-- ==== Sys2Proof/Word.lean ====
section
/-! DEFINITION. The widths of DLS-TWT (spec 00_scope.md R7, R9; 30_encoding.md R90, R91). -/

namespace Sys2Proof

/-- A data item, a status code, a byte on the bus: `DATA_W` = 8 bits (R7). -/
abbrev Byte := BitVec 8

/-- An address of the target space: `ADDR_W` = 11 bits (R7, R60). -/
abbrev Address := BitVec 11

/-- A handler token: `HANDLER_W` = 16 bits (R8, R36). -/
abbrev Token := BitVec 16

/-- A command word: 24 bits, bit 0 the least significant (R9, R90). -/
abbrev CommandWord := BitVec 24

end Sys2Proof
end

