-- ==== Sys2Proof/Syntax.lean ====
section
/-! DEFINITION. The twelve commands of DLS-TWT (spec 30_encoding.md R94, R96), one constructor per row of
spec/opcode_table.json. Operands have exactly the widths of their fields (R91), so no operand out of range can be written
(R66, R93). -/

namespace Sys2Proof

/-- A command with its operands. -/
inductive Instr where
  /-- `START` (R122) -/
  | start
  /-- `STOP` (R123) -/
  | stop
  /-- `WRITEB D` (R124) -/
  | writeb (d : Byte)
  /-- `RDACK` (R125) -/
  | rdack
  /-- `RDNACK` (R126) -/
  | rdnack
  /-- `STATUS` (R127) -/
  | status
  /-- `WRTXN A, D` (R143) -/
  | wrtxn (a : Address) (d : Byte)
  /-- `RDTXN A` (R146) -/
  | rdtxn (a : Address)
  /-- `TSETH H` (R163) -/
  | tseth (h : Token)
  /-- `TSTART` (R165) -/
  | tstart
  /-- `TSTOP` (R166) -/
  | tstop
  /-- `TRET` (R168) -/
  | tret
deriving DecidableEq, Repr

/-- "Bus command" means `OP` in 0x1..0x6, 0x8, 0x9; the rest are scheduler commands (R94). -/
def Instr.isBus : Instr → Bool
  | .start => true
  | .stop => true
  | .writeb _ => true
  | .rdack => true
  | .rdnack => true
  | .status => true
  | .wrtxn _ _ => true
  | .rdtxn _ => true
  | .tseth _ => false
  | .tstart => false
  | .tstop => false
  | .tret => false

end Sys2Proof
end

