-- ==== Sys2Proof/WellFormed.lean ====
section
/-! DEFINITION. Which command words are well formed (spec 30_encoding.md R92, R93, R94, R97), stated from the mask and match
columns of the opcode table, apart from the decoder. A command itself is always well formed: its operand types are as wide
as its fields (R66, R91, R93), so the checks are checks of words. -/

namespace Sys2Proof

/-- A row of the opcode map R94: "A word `w` is an instance of a row of the opcode table when `w & mask == match`" (R92). -/
structure OpcodeRow where
  mnemonic : String
  wordMask : CommandWord
  wordMatch : CommandWord
deriving DecidableEq, Repr

/-- The twelve rows of R94, with the masks of their formats (R92). -/
def opcodeRows : List OpcodeRow := [
  ⟨"START",  0xFFFFFF#24, 0x100000#24⟩,
  ⟨"STOP",   0xFFFFFF#24, 0x200000#24⟩,
  ⟨"WRITEB", 0xFFFF00#24, 0x300000#24⟩,
  ⟨"RDACK",  0xFFFFFF#24, 0x400000#24⟩,
  ⟨"RDNACK", 0xFFFFFF#24, 0x500000#24⟩,
  ⟨"STATUS", 0xFFFFFF#24, 0x600000#24⟩,
  ⟨"WRTXN",  0xF80000#24, 0x800000#24⟩,
  ⟨"RDTXN",  0xF800FF#24, 0x900000#24⟩,
  ⟨"TSETH",  0xFF0000#24, 0xC00000#24⟩,
  ⟨"TSTART", 0xFFFFFF#24, 0xD00000#24⟩,
  ⟨"TSTOP",  0xFFFFFF#24, 0xE00000#24⟩,
  ⟨"TRET",   0xFFFFFF#24, 0xF00000#24⟩]

/-- `w` is an instance of the row `r` (R92). -/
def OpcodeRow.holds (r : OpcodeRow) (w : CommandWord) : Bool := w &&& r.wordMask == r.wordMatch

/-- The row's mnemonic, for each command. -/
def Instr.mnemonic : Instr → String
  | .start => "START"
  | .stop => "STOP"
  | .writeb _ => "WRITEB"
  | .rdack => "RDACK"
  | .rdnack => "RDNACK"
  | .status => "STATUS"
  | .wrtxn _ _ => "WRTXN"
  | .rdtxn _ => "RDTXN"
  | .tseth _ => "TSETH"
  | .tstart => "TSTART"
  | .tstop => "TSTOP"
  | .tret => "TRET"

/-- A word is legal when some row of the table holds of it; every other word is illegal (R97). -/
def wordWellFormed (w : CommandWord) : Bool := opcodeRows.any (·.holds w)

end Sys2Proof
end

