-- ==== Sys2Proof/Decode.lean ====
section
/-! DEFINITION. The decoder of command words (spec 30_encoding.md R91, R92, R94, R95, R97), total, refusing every illegal word
by name, and the encoder written from the same formats. -/

namespace Sys2Proof

/-- Why a word is illegal (R97). -/
inductive IllegalWord where
  /-- `OP` is 0x0, 0x7, 0xA or 0xB. -/
  | reservedOp
  /-- A bit the format marks as must-be-zero is 1. -/
  | mustBeZero
deriving DecidableEq, Repr

/-- What the decoder answers: a command with its operands, or the reason the word is illegal (R95). -/
inductive Decoded where
  | command (i : Instr)
  | illegal (why : IllegalWord)
deriving DecidableEq, Repr

/-- `OP`, bits 23:20 (R91). -/
def opField (w : CommandWord) : BitVec 4 := w.extractLsb' 20 4
/-- `A`, bits 18:8 (R91). -/
def addrField (w : CommandWord) : Address := w.extractLsb' 8 11
/-- `D`, bits 7:0 (R91). -/
def dataField (w : CommandWord) : Byte := w.extractLsb' 0 8
/-- `H`, bits 15:0 (R91). -/
def handlerField (w : CommandWord) : Token := w.extractLsb' 0 16

/-- The second check of R95: `(w & row.mask) != row.match` makes the word illegal. -/
def checkZeros (w rowMask rowMatch : CommandWord) (i : Instr) : Decoded :=
  if w &&& rowMask = rowMatch then .command i else .illegal .mustBeZero

/-- Decoding (R95): `OP` selects the row, then the must-be-zero bits are checked, then the fields the format names are taken. -/
def decode (w : CommandWord) : Decoded :=
  if opField w = 0x1#4 then checkZeros w 0xFFFFFF#24 0x100000#24 .start
  else if opField w = 0x2#4 then checkZeros w 0xFFFFFF#24 0x200000#24 .stop
  else if opField w = 0x3#4 then checkZeros w 0xFFFF00#24 0x300000#24 (.writeb (dataField w))
  else if opField w = 0x4#4 then checkZeros w 0xFFFFFF#24 0x400000#24 .rdack
  else if opField w = 0x5#4 then checkZeros w 0xFFFFFF#24 0x500000#24 .rdnack
  else if opField w = 0x6#4 then checkZeros w 0xFFFFFF#24 0x600000#24 .status
  else if opField w = 0x8#4 then checkZeros w 0xF80000#24 0x800000#24 (.wrtxn (addrField w) (dataField w))
  else if opField w = 0x9#4 then checkZeros w 0xF800FF#24 0x900000#24 (.rdtxn (addrField w))
  else if opField w = 0xC#4 then checkZeros w 0xFF0000#24 0xC00000#24 (.tseth (handlerField w))
  else if opField w = 0xD#4 then checkZeros w 0xFFFFFF#24 0xD00000#24 .tstart
  else if opField w = 0xE#4 then checkZeros w 0xFFFFFF#24 0xE00000#24 .tstop
  else if opField w = 0xF#4 then checkZeros w 0xFFFFFF#24 0xF00000#24 .tret
  else .illegal .reservedOp

/-- The word of a command, laid out by the formats of R92 with the codes of R94. -/
def encode : Instr → CommandWord
  | .start => 0x100000#24
  | .stop => 0x200000#24
  | .writeb d => 0x3000#16 ++ d
  | .rdack => 0x400000#24
  | .rdnack => 0x500000#24
  | .status => 0x600000#24
  | .wrtxn a d => 0b10000#5 ++ a ++ d
  | .rdtxn a => 0b10010#5 ++ a ++ 0#8
  | .tseth h => 0xC0#8 ++ h
  | .tstart => 0xD00000#24
  | .tstop => 0xE00000#24
  | .tret => 0xF00000#24

/-- The command the decoder reads from an opcode-table row's `nbits` bits `w`, every bit above them 0. A command word is one
value of 24 bits with no byte order (R90), so the word is `w` itself. -/
def decodeTableWord (nbits w : Nat) : Option Instr :=
  if nbits ≤ 24 then
    match decode (BitVec.ofNat 24 (w % 2 ^ nbits)) with
    | .command i => some i
    | .illegal _ => none
  else none

end Sys2Proof
end

