-- ==== Sys2Proof/Config.lean ====
section
/-! DEFINITION. What an implementation fixes and what the spec leaves open (spec 00_scope.md R7, R8). A parameter the spec
gives a value or a default is a definition; a parameter it leaves open is built from an opaque constant; a free value is an
opaque function of the state's draw counter. -/

namespace Sys2Proof.Config

/-! ## Parameters the source fixes (R7) -/

/-- start sent -/
def ST_START : Byte := 0x08#8
/-- repeated start sent -/
def ST_RSTART : Byte := 0x10#8
/-- select byte with write bit acknowledged -/
def ST_SLAW_ACK : Byte := 0x18#8
/-- data byte acknowledged -/
def ST_DATA_ACK : Byte := 0x28#8
/-- select byte with read bit acknowledged -/
def ST_SLAR_ACK : Byte := 0x40#8
/-- byte received, no acknowledge returned -/
def ST_RX_NACK : Byte := 0x58#8

/-- The six status values the source fixes (R7). -/
def SIX : List Byte := [ST_START, ST_RSTART, ST_SLAW_ACK, ST_DATA_ACK, ST_SLAR_ACK, ST_RX_NACK]

/-- Bytes in a credential (R7). -/
def CRED_LEN : Nat := 5

/-! ## Parameters with a default (R8). Log 7. -/

/-- The fixed part of the select byte (R8, decision D7, conflict C1). -/
def SEL_PREFIX : BitVec 4 := 0b1010#4

/-- The value of the read/write bit that means read (R8, decision D6). -/
def RW_READ : BitVec 1 := 1#1

/-! ## Open status codes (R8, decision D5). Log 4.

Each is any byte outside `SIX`. There are 250 such bytes; `outsideSix` numbers them in rising order, so an opaque index is
exactly an unknown byte outside `SIX`. -/

/-- Step over the value `c` in a rising numbering. -/
def skipOver (c n : Nat) : Nat := if c ≤ n then n + 1 else n

/-- The `i`-th byte, counting from 0, that is not in `SIX`. -/
def outsideSix (i : Fin 250) : Byte :=
  BitVec.ofNat 8 (skipOver 0x58 (skipOver 0x40 (skipOver 0x28 (skipOver 0x18 (skipOver 0x10 (skipOver 0x08 i.val))))))

/-- Which byte outside `SIX` is `ST_SLAW_NACK`. -/
opaque stSlawNackIndex : Fin 250
/-- Which byte outside `SIX` is `ST_SLAR_NACK`. -/
opaque stSlarNackIndex : Fin 250
/-- Which byte outside `SIX` is `ST_DATA_NACK`. -/
opaque stDataNackIndex : Fin 250
/-- Which byte outside `SIX` is `ST_RX_ACK`. -/
opaque stRxAckIndex : Fin 250
/-- Which byte outside `SIX` is `ST_AFTER_STOP`. -/
opaque stAfterStopIndex : Fin 250
/-- Which byte outside `SIX` is `ST_RESET`. -/
opaque stResetIndex : Fin 250

/-- select byte with write bit not acknowledged -/
def ST_SLAW_NACK : Byte := outsideSix stSlawNackIndex
/-- select byte with read bit not acknowledged -/
def ST_SLAR_NACK : Byte := outsideSix stSlarNackIndex
/-- data byte not acknowledged -/
def ST_DATA_NACK : Byte := outsideSix stDataNackIndex
/-- byte received, acknowledge returned -/
def ST_RX_ACK : Byte := outsideSix stRxAckIndex
/-- after a stop -/
def ST_AFTER_STOP : Byte := outsideSix stAfterStopIndex
/-- after reset, before any phase -/
def ST_RESET : Byte := outsideSix stResetIndex

/-! ## The timer (R8, decision D18). Log 6. -/

/-- One less than `T_W`: the spec leaves `T_W` open and asks only that it be positive. -/
opaque tWidthLessOne : Nat

/-- The width of the period counter, a positive integer (R8). -/
def T_W : Nat := tWidthLessOne + 1

/-- The compare value, `T_W` bits wide, so below 2^`T_W` (R8). -/
opaque T_TOP : BitVec T_W

/-! ## Client parameters (R8, decision D16): arguments of the pseudo-operations. Log 19. -/

/-- The fixed storage addresses and the two sentinel values of the client (R69). -/
structure Layout where
  credBase : Address
  flagAddr : Address
  /-- `EXISTS` -/
  present : Byte
  /-- `NONE` -/
  absent : Byte
deriving DecidableEq, Repr

/-- The constraints of R8: `CRED_BASE`+4 ≤ 0x7FF; `FLAG_ADDR` not in `CRED_BASE`..`CRED_BASE`+4; `EXISTS` ≠ `NONE`. -/
abbrev Layout.wf (L : Layout) : Prop :=
  L.credBase.toNat + 4 ≤ 0x7FF ∧
  (L.flagAddr.toNat < L.credBase.toNat ∨ L.credBase.toNat + 4 < L.flagAddr.toNat) ∧
  L.present ≠ L.absent

/-! ## The device's modes (20_memory.md R75) and the free draws -/

/-- The modes of the reference device (R75). -/
inductive DevMode where
  | didle | daddr | ddata | dpend | dread
deriving DecidableEq, Repr, Inhabited

/-- What an unconstrained environment may answer to a byte-out phase (R121). -/
inductive ByteOutDraw where
  | ack
  | nack
  | abnormal (code : Fin 250)
deriving DecidableEq, Repr, Inhabited

/-- What an unconstrained environment may answer to a byte-in phase (R121). -/
inductive ByteInDraw where
  | byte (v : Byte)
  | abnormal (code : Fin 250)
deriving DecidableEq, Repr, Inhabited

/-- `RXDATA` after reset (R20 "unspecified"). Log 5. -/
opaque freeRxdata : Nat → Byte
/-- `CMDR` after reset (R20 "unspecified"). Log 5. -/
opaque freeCmdr : Nat → CommandWord
/-- `T_HANDLER` after reset (R20 "unspecified"). Log 5. -/
opaque freeHandler : Nat → Token
/-- The byte at an address of the device that nothing has written (R75 "`M` is arbitrary"). Log 10. -/
opaque initialByte : Nat → Byte
/-- An arbitrary pointer `P` of the device (R75, R84). Log 10, 11. -/
opaque freePtr : Nat → Address
/-- An arbitrary `LATCH` of the device (R75, R84). Log 10, 11. -/
opaque freeLatch : Nat → Byte
/-- An arbitrary `MODE` of the device (R84). Log 11. -/
opaque freeMode : Nat → DevMode
/-- The oracle's answer to a byte-out phase for which the device has no rule (R84). Log 11. -/
opaque freeByteOut : Nat → ByteOutDraw
/-- The oracle's answer to a byte-in phase for which the device has no rule (R84). Log 11. -/
opaque freeByteIn : Nat → ByteInDraw
/-- The byte found after a loss of power in a write-busy interval (R83, K16). Log 14. -/
opaque freeStored : Nat → Byte
/-- The answer of `HAS_CRED` when the flag read fails (R114, K10). Log 19. -/
opaque freeAnswer : Nat → Bool

end Sys2Proof.Config
end

