-- ==== Sys2Proof/Machine/State.lean ====
section
/-! DEFINITION. The state of DLS-TWT (spec 10_state.md R20 to R44), of the reference device behind its bus (20_memory.md R75),
and of the schedule that says which agent moves next; the reasons a step can stop; the state right after reset (R44). -/

namespace Sys2Proof.Machine

/-- `PH`, the protocol phase of the bus as the master sees it (R29). -/
inductive PH where
  /-- the master does not hold the bus -/
  | idle
  /-- a start or repeated start has been sent; the next byte out is a device-select byte -/
  | addr
  /-- a select byte with the write bit has been sent: the master transmits -/
  | mt
  /-- a select byte with the read bit has been sent: the master receives -/
  | mr
deriving DecidableEq, Repr

/-- What the master returns after a byte in (R11 `ByteIn(k)`, R40). -/
inductive AckBit where
  | ack
  | nack
deriving DecidableEq, Repr

/-- A bus phase (R11). -/
inductive Phase where
  | startCond
  | byteOut (b : Byte)
  | byteIn (k : AckBit)
  | stopCond
deriving DecidableEq, Repr

/-- How the environment completes a phase (R11). -/
inductive PhaseOutcome where
  | startOk
  | ack
  | nack
  | byte (v : Byte)
  | done
  | abnormal (c : Byte)
deriving DecidableEq, Repr

/-- A step some agent is to take (R5), with what the environment answers (R6). Log 1, 2. -/
inductive Event where
  /-- the host presents a command word at the port (R39) -/
  | command (w : CommandWord)
  /-- the environment, as an oracle, completes the phase in progress (R121) -/
  | env (o : PhaseOutcome)
  /-- the reference device completes the phase in progress (R77 to R84) -/
  | dev
  /-- a timer-clock event (R170) -/
  | timerClock
  /-- the host takes the pending tick (R172) -/
  | dispatch
  /-- the device finishes storing, by itself (R80) -/
  | settle
  /-- `DELAY T_SETTLE` of the main context runs to its end (R110) -/
  | delay
  /-- reset of the block (R220) -/
  | reset
  /-- power is lost and returns, for the block and the device (R83, R224) -/
  | powerCycle
deriving DecidableEq, Repr

/-- The registers of the two-wire master (R20). -/
structure Twm where
  /-- `READY` (R21) -/
  ready : Bool
  /-- `OK` (R22) -/
  ok : Bool
  /-- `FSTEP` (R23) -/
  fstep : BitVec 3
  /-- `STATUS` (R25) -/
  status : Byte
  /-- `RXDATA` (R26) -/
  rxdata : Byte
  /-- `PH` (R29), hidden -/
  ph : PH
  /-- `SEQ` (R24), hidden -/
  seq : BitVec 3
  /-- `CMDR` (R28), hidden -/
  cmdr : CommandWord
deriving DecidableEq, Repr

/-- The registers of the tick scheduler (R20). -/
structure Tks where
  /-- `T_RUN` (R34) -/
  run : Bool
  /-- `T_HVALID` (R36) -/
  hvalid : Bool
  /-- `T_HANDLER` (R36) -/
  handler : Token
  /-- `T_PEND` (R37) -/
  pend : Bool
  /-- `T_INSVC` (R38) -/
  insvc : Bool
  /-- `T_CNT` (R35), hidden -/
  cnt : BitVec Config.T_W
deriving DecidableEq, Repr

/-- The bytes of the device that something has written, addresses strictly rising; an address not listed holds no known
value (log 10). -/
abbrev Memory := List Host.Cell

/-- The reference device `DEV` (R42, R75). -/
structure Dev where
  /-- `M`: the bytes written so far -/
  mem : Memory
  /-- `P` -/
  ptr : Address
  /-- `MODE` -/
  mode : Config.DevMode
  /-- `LATCH` -/
  latch : Byte
  /-- `WBUSY` -/
  wbusy : Bool
  /-- the address of the byte being stored while `WBUSY` (R83; log 14) -/
  wAddr : Address
deriving DecidableEq, Repr

/-- The whole state: the block's two sub-blocks and their shared fault register (R20), the device (R42), and the model's own
two fields: how many free values have been drawn (log 5) and which steps are to be taken (log 1). -/
structure State where
  twm : Twm
  tks : Tks
  /-- `FAULT` (R27) -/
  fault : BitVec 3
  dev : Dev
  draws : Nat
  agenda : List Event
deriving DecidableEq, Repr

/-- The reasons a step can stop. No command stops (the spec's own faults are recorded in `FAULT`, R196). -/
inductive Fault where
  /-- Raised by the step that completes a bus phase, when the agenda names an answer that the environment cannot give to the
  phase in progress: an outcome R121 does not admit for it, or an abnormal code inside `SIX` (R11, R31 row 12). Safe: no
  environment has such a run (log 3). -/
  | outcomeNotAdmitted
deriving DecidableEq, Repr

/-- The reasons an instruction can be refused. -/
inductive Refusal where
  /-- Raised by an arm of `exec` whose instruction has no meaning yet: safe. No arm raises it. -/
  | notModelled (mnemonic : String)
deriving DecidableEq, Repr

/-- The two-wire master right after reset (R44); `d` says which free values stand for the unspecified registers (log 5). -/
def Twm.atReset (d : Nat) : Twm where
  ready := true
  ok := false
  fstep := 0#3
  status := Config.ST_RESET
  rxdata := Config.freeRxdata d
  ph := .idle
  seq := 0#3
  cmdr := Config.freeCmdr d

/-- The tick scheduler right after reset (R44); `T_HANDLER` is unspecified (log 5). -/
def Tks.atReset (d : Nat) : Tks where
  run := false
  hvalid := false
  handler := Config.freeHandler d
  pend := false
  insvc := false
  cnt := 0

/-- The device at its first power-up (R75). -/
def Dev.atFirstPower (d : Nat) : Dev where
  mem := []
  ptr := Config.freePtr d
  mode := .didle
  latch := Config.freeLatch d
  wbusy := false
  wAddr := Config.freePtr d

/-- The machine right after reset (R44), with a device powered for the first time (R75) and nothing scheduled (R223). -/
def State.reset : State where
  twm := Twm.atReset 0
  tks := Tks.atReset 0
  fault := 0#3
  dev := Dev.atFirstPower 0
  draws := 1
  agenda := []

end Sys2Proof.Machine
end

