-- ==== Sys2Proof/Machine/Operands.lean ====
section
/-! DEFINITION. From an address to bus bytes (spec 20_memory.md R63; 30_encoding.md R104, R105), and the phases a command
performs (40_bus_primitives.md R122 to R126; 41_bus_transactions.md R140). -/

namespace Sys2Proof.Machine

/-- The device-select byte: prefix 7:4, `A[10:8]` 3:1, read/write bit 0 (R104). -/
def selectByte (a : Address) (rw : BitVec 1) : Byte := Config.SEL_PREFIX ++ a.extractLsb' 8 3 ++ rw

/-- `SELW(A)`: the select byte with the write bit (R63). -/
def selw (a : Address) : Byte := selectByte a (1#1 - Config.RW_READ)

/-- `SELR(A)`: the select byte with the read bit (R63). -/
def selr (a : Address) : Byte := selectByte a Config.RW_READ

/-- `ALO(A)`: the low address byte (R63, R105). -/
def alo (a : Address) : Byte := a.extractLsb' 0 8

/-- "read bit" means `b[0] == RW_READ` (R30). -/
def hasReadBit (b : Byte) : Bool := b.extractLsb' 0 1 == Config.RW_READ

/-- One numbered step of a transaction: its phase, and the status it must reach if the step is verified (R140). -/
structure TxnStep where
  phase : Phase
  expected : Option Byte
deriving DecidableEq, Repr

/-- The five steps of `WRTXN A, D` (R140, R143). -/
def writeSteps (a : Address) (d : Byte) : List TxnStep := [
  ⟨.startCond, some Config.ST_START⟩,
  ⟨.byteOut (selw a), some Config.ST_SLAW_ACK⟩,
  ⟨.byteOut (alo a), some Config.ST_DATA_ACK⟩,
  ⟨.byteOut d, some Config.ST_DATA_ACK⟩,
  ⟨.stopCond, none⟩]

/-- The seven steps of `RDTXN A` (R140, R146). -/
def readSteps (a : Address) : List TxnStep := [
  ⟨.startCond, some Config.ST_START⟩,
  ⟨.byteOut (selw a), some Config.ST_SLAW_ACK⟩,
  ⟨.byteOut (alo a), some Config.ST_DATA_ACK⟩,
  ⟨.startCond, some Config.ST_RSTART⟩,
  ⟨.byteOut (selr a), some Config.ST_SLAR_ACK⟩,
  ⟨.byteIn .nack, some Config.ST_RX_NACK⟩,
  ⟨.stopCond, none⟩]

/-- The steps of the transaction in `CMDR`: "which transaction is running is read from `CMDR[23:20]`" (R24), its operands
from `CMDR[18:8]` and `CMDR[7:0]` (R28); no steps if `CMDR` holds no transaction. -/
def txnSteps (w : CommandWord) : List TxnStep :=
  if opField w = 0x8#4 then writeSteps (addrField w) (dataField w)
  else if opField w = 0x9#4 then readSteps (addrField w)
  else []

/-- The one phase of the primitive in `CMDR` (R122 to R126); `WRITEB` sends `CMDR[7:0]` (R28, R124). -/
def primitivePhase (w : CommandWord) : Option Phase :=
  if opField w = 0x1#4 then some .startCond
  else if opField w = 0x2#4 then some .stopCond
  else if opField w = 0x3#4 then some (.byteOut (dataField w))
  else if opField w = 0x4#4 then some (.byteIn .ack)
  else if opField w = 0x5#4 then some (.byteIn .nack)
  else none

end Sys2Proof.Machine
end

