-- ==== Sys2Proof/Machine/Flags.lean ====
section
/-! DEFINITION. How `PH`, `STATUS` and `RXDATA` move at the completion of a phase (spec 10_state.md R26, R30, R31), and in
which `PH` a phase may begin (40_bus_primitives.md R129). -/

namespace Sys2Proof.Machine

/-- The `PH` values in which a phase may begin (R129; the rows of R30). -/
def Phase.allowedIn : Phase → PH → Bool
  | .startCond, _ => true
  | .stopCond, .idle => false
  | .stopCond, _ => true
  | .byteOut _, .addr => true
  | .byteOut _, .mt => true
  | .byteOut _, _ => false
  | .byteIn _, .mr => true
  | .byteIn _, _ => false

/-- The outcomes the environment may give to a phase (R121); the code of an abnormal outcome is outside `SIX` (R11). -/
def Phase.admits : Phase → PhaseOutcome → Bool
  | _, .abnormal c => !Config.SIX.contains c
  | .startCond, .startOk => true
  | .byteOut _, .ack => true
  | .byteOut _, .nack => true
  | .byteIn _, .byte _ => true
  | .stopCond, .done => true
  | _, _ => false

/-- `STATUS` after a phase (R31), for a phase that may begin in `ph` and an admitted outcome. -/
def statusAfter (x : Phase) (ph : PH) (o : PhaseOutcome) : Byte :=
  match x, o with
  | _, .abnormal c => c
  | .startCond, _ => if ph = .idle then Config.ST_START else Config.ST_RSTART
  | .byteOut b, .nack =>
    if ph = .addr then (if hasReadBit b then Config.ST_SLAR_NACK else Config.ST_SLAW_NACK) else Config.ST_DATA_NACK
  | .byteOut b, _ =>
    if ph = .addr then (if hasReadBit b then Config.ST_SLAR_ACK else Config.ST_SLAW_ACK) else Config.ST_DATA_ACK
  | .byteIn .nack, _ => Config.ST_RX_NACK
  | .byteIn .ack, _ => Config.ST_RX_ACK
  | .stopCond, _ => Config.ST_AFTER_STOP

/-- `PH` after a phase (R30), for a phase that may begin in `ph` and an admitted outcome. -/
def phAfter (x : Phase) (ph : PH) (o : PhaseOutcome) : PH :=
  match x, o with
  | _, .abnormal _ => ph
  | .startCond, _ => .addr
  | .byteOut b, _ => if ph = .addr then (if hasReadBit b then .mr else .mt) else ph
  | .byteIn _, _ => ph
  | .stopCond, _ => .idle

/-- `RXDATA` after a phase: only a byte-in phase that ends `Byte(v)` writes it (R26, R121). -/
def rxdataAfter (x : Phase) (o : PhaseOutcome) (old : Byte) : Byte :=
  match x, o with
  | .byteIn _, .byte v => v
  | _, _ => old

end Sys2Proof.Machine
end

