-- ==== Sys2Proof/Machine/Ops.lean ====
section
/-! DEFINITION. The named operations over registers and over the device's memory: recording a fault (spec 60_exceptions.md
R196), accepting a bus command (40_bus_primitives.md R120), ending one (00_scope.md R11), the tick interrupt's entry and
return (R172, R208; R168, R209), the views of the state, and the device's bytes (20_memory.md R76, R79). -/

namespace Sys2Proof.Machine

/-! ## Faults (R27, R196 to R202) -/

/-- The causes recorded in `FAULT`. -/
inductive Cause where
  | illegal | phase | ctx | overlap | rearm | tret
deriving DecidableEq, Repr

/-- The cause codes (R27). -/
def Cause.code : Cause → BitVec 3
  | .illegal => 1#3
  | .phase => 2#3
  | .ctx => 3#3
  | .overlap => 4#3
  | .rearm => 5#3
  | .tret => 6#3

/-- `raise Fault(cause)`: "if `FAULT` == 0 then `FAULT <- cause`; the command ends with no other effect" (R11, R196). -/
def State.raise (c : Cause) (s : State) : State :=
  { s with fault := if s.fault = 0#3 then c.code else s.fault }

/-! ## The bus engine's registers (R11, R120, R142) -/

/-- Acceptance: `CMDR <- w; READY <- 0` (R120). -/
def Twm.accept (w : CommandWord) (b : Twm) : Twm := { b with cmdr := w, ready := false }

/-- Acceptance of a transaction: besides, `OK <- 0; FSTEP <- 0; SEQ <- 1` (R143, R146). -/
def Twm.acceptTxn (w : CommandWord) (b : Twm) : Twm :=
  { b with cmdr := w, ready := false, ok := false, fstep := 0#3, seq := 1#3 }

/-- `complete`: `SEQ <- 0; READY <- 1` (R11). -/
def Twm.complete (b : Twm) : Twm := { b with seq := 0#3, ready := true }

/-- `OK <- 1; complete` (R143, R146). -/
def Twm.succeed (b : Twm) : Twm := { b with ok := true, seq := 0#3, ready := true }

/-- `fail(n)`: `FSTEP <- n; OK <- 0; SEQ <- 0; READY <- 1`, and nothing else (R142). -/
def Twm.fail (n : BitVec 3) (b : Twm) : Twm := { b with fstep := n, ok := false, seq := 0#3, ready := true }

/-- The sequencer goes on to the next step (R24, R140). -/
def Twm.nextStep (b : Twm) : Twm := { b with seq := b.seq + 1#3 }

/-- The writes of a completed phase, together (R121). -/
def Twm.record (x : Phase) (o : PhaseOutcome) (b : Twm) : Twm :=
  { b with status := statusAfter x b.ph o, rxdata := rxdataAfter x o b.rxdata, ph := phAfter x b.ph o }

/-- The checks of R120 in their order (R203): context, busy, phase; then what acceptance does. -/
def acceptBus (allowed : Bool) (accepted : Twm → Twm) (s : State) : State :=
  if s.tks.insvc = true then s.raise .ctx
  else if s.twm.ready = false then s.raise .overlap
  else if allowed = false then s.raise .phase
  else { s with twm := accepted s.twm }

/-! ## Views of the state -/

/-- The host's two execution contexts, told apart by `T_INSVC` (R211). -/
inductive Context where
  | main | handler
deriving DecidableEq, Repr

/-- The context whose commands the port receives (R199, R211; log 18). -/
def State.context (s : State) : Context := if s.tks.insvc = true then .handler else .main

/-- `IRQ` = `T_PEND` and not `T_INSVC` (R39, R205). -/
def Tks.irq (t : Tks) : Bool := t.pend && !t.insvc

/-- The interrupt request: the token `T_HANDLER`, while `IRQ`=1 (R39, R74). -/
def Tks.request (t : Tks) : Option Token := if t.irq = true then some t.handler else none

/-- The eleven host-readable registers (R20), read with no side effect (R237). -/
structure HostView where
  ready : Bool
  ok : Bool
  fstep : BitVec 3
  status : Byte
  rxdata : Byte
  fault : BitVec 3
  run : Bool
  hvalid : Bool
  handler : Token
  pend : Bool
  insvc : Bool
deriving DecidableEq, Repr

/-- What the host reads (R20, R39). -/
def State.hostView (s : State) : HostView where
  ready := s.twm.ready
  ok := s.twm.ok
  fstep := s.twm.fstep
  status := s.twm.status
  rxdata := s.twm.rxdata
  fault := s.fault
  run := s.tks.run
  hvalid := s.tks.hvalid
  handler := s.tks.handler
  pend := s.tks.pend
  insvc := s.tks.insvc

/-- The next state of an outcome, if it has one. -/
def nextOf : Host.Outcome State Fault Refusal → Option State
  | .next s => some s
  | .fault _ => none
  | .refused _ => none

/-- Go on from an outcome: a stop stays a stop. -/
def andThen {α β : Type} (o : Host.Outcome α Fault Refusal) (f : α → Host.Outcome β Fault Refusal) :
    Host.Outcome β Fault Refusal :=
  match o with
  | .next x => f x
  | .fault r => .fault r
  | .refused r => .refused r

/-- `HOST.main` can take its next step: `READY`=1, for which it waits (R236 (a)), and no handler in service (R38). -/
def State.mainMoves (s : State) : Bool := s.twm.ready && !s.tks.insvc

/-! ## The tick interrupt: entry and return -/

/-- Entry: `T_PEND <- 0; T_INSVC <- 1`, nothing saved (R172, R208). The token `T_HANDLER` is presented as it stands. -/
def Tks.enterHandler (t : Tks) : Tks := { t with pend := false, insvc := true }

/-- Return: `T_INSVC <- 0`, nothing restored (R168, R209). -/
def Tks.leaveHandler (t : Tks) : Tks := { t with insvc := false }

/-! ## The device's bytes -/

/-- The byte written last at address `a`, if any was. -/
def Memory.lookup : Memory → Nat → Option Byte
  | [], _ => none
  | (b, v) :: m, a => if a = b then some v else Memory.lookup m a

/-- `MemRead(a, 1)`: the byte the device holds (R76); an address nothing has written holds the free byte of R75 (log 10). -/
def Memory.read (m : Memory) (a : Address) : Byte := (Memory.lookup m a.toNat).getD (Config.initialByte a.toNat)

/-- Insert or replace one cell, keeping addresses strictly rising. -/
def Memory.insert : Memory → Nat → Byte → Memory
  | [], a, v => [(a, v)]
  | (b, u) :: m, a, v =>
    if a < b then (a, v) :: (b, u) :: m
    else if a = b then (a, v) :: m
    else (b, u) :: Memory.insert m a v

/-- `MemWrite(a, 1, v)` (R79). -/
def Memory.write (m : Memory) (a : Address) (v : Byte) : Memory := Memory.insert m a.toNat v

/-- The canonical form: addresses strictly rising, all in the 2048 bytes of R60. No entry can equal what an unlisted address
reads as, because an unlisted address has no known value (log 10). -/
abbrev Memory.wf (m : Memory) : Prop :=
  List.Pairwise (fun x y : Host.Cell => x.1 < y.1) m ∧ ∀ c ∈ m, c.1 < 2048

end Sys2Proof.Machine
end

