-- ==== Sys2Proof/Machine/Engine.lean ====
section
/-! DEFINITION. The bus engine and the transaction sequencer: which phase is in progress, and what its completion does (spec
40_bus_primitives.md R121; 41_bus_transactions.md R140 to R142, R152; 10_state.md R24, R28). -/

namespace Sys2Proof.Machine

/-- The numbered step that `SEQ` names, of the transaction in `CMDR`; none while `SEQ`=0 (R24). -/
def Twm.currentStep (b : Twm) : Option TxnStep :=
  match b.seq.toNat with
  | 0 => none
  | n + 1 => (txnSteps b.cmdr)[n]?

/-- The phase the command in `CMDR` is at: the sequencer's step, or the primitive's one phase (R28). -/
def Twm.wantedPhase (b : Twm) : Option Phase :=
  if b.seq = 0#3 then primitivePhase b.cmdr else b.currentStep.map TxnStep.phase

/-- The phase in progress on the bus: none while `READY`=1; "A phase from a `PH` not listed never begins" (R30). Log 16, 22. -/
def Twm.phaseInProgress (b : Twm) : Option Phase :=
  if b.ready = true then none
  else
    match b.wantedPhase with
    | none => none
    | some x => if x.allowedIn b.ph = true then some x else none

/-- What follows a completed phase, in the same step: a primitive completes; a verified step is compared, all 8 bits, and the
transaction fails or goes on; the stop is not verified and the transaction succeeds (R141, R142, R143, R146, R152). -/
def Twm.proceed (b : Twm) : Twm :=
  match b.currentStep with
  | none => b.complete
  | some st =>
    match st.expected with
    | none => b.succeed
    | some c => if b.status = c then b.nextStep else b.fail b.seq

/-- The step in which phase `x` completes with outcome `o` (R121). -/
def Twm.finishPhase (x : Phase) (o : PhaseOutcome) (b : Twm) : Twm := (b.record x o).proceed

/-- Complete phase `x` with `o`, if the environment can give that answer to it (log 3). -/
def completePhase (x : Phase) (o : PhaseOutcome) (s : State) : Host.Outcome State Fault Refusal :=
  if x.admits o = true then .next { s with twm := s.twm.finishPhase x o } else .fault .outcomeNotAdmitted

/-- The environment, as an oracle, completes the phase in progress with outcome `o` (R121); with none in progress it has no
step. The device's state is not touched (log 9). -/
def envAnswer (o : PhaseOutcome) (s : State) : Host.Outcome State Fault Refusal :=
  match s.twm.phaseInProgress with
  | none => .next s
  | some x => completePhase x o s

/-- The environment's answers one after another. -/
def envAnswers : List PhaseOutcome → State → Host.Outcome State Fault Refusal
  | [], s => .next s
  | o :: os, s => andThen (envAnswer o s) (envAnswers os)

/-- The phases that the answers `os` complete, in the order they reach the bus (R71), ending with the one left in progress. -/
def busTrace : List PhaseOutcome → State → List Phase
  | [], s => s.twm.phaseInProgress.toList
  | o :: os, s =>
    match s.twm.phaseInProgress with
    | none => []
    | some x => x :: (match completePhase x o s with | .next t => busTrace os t | .fault _ => [] | .refused _ => [])

end Sys2Proof.Machine
end

