-- ==== Sys2Proof/Machine/Bus.lean ====
section
/-! DEFINITION. The bus primitives `START`, `STOP`, `WRITEB`, `RDACK`, `RDNACK`, `STATUS` (spec 40_bus_primitives.md R120, R122
to R127, R129). A meaning is the step in which the block takes the command: the checks, `CMDR <- w`, `READY <- 0`, and the
phase begins; the phase completes in a later step, when the environment answers (Machine/Engine.lean; log 15). `CMDR` takes the
command's word (log 20). -/

namespace Sys2Proof.Machine

/-- `START` (R122): allowed in every `PH`. -/
def execStart (s : State) : Host.Outcome State Fault Refusal :=
  .next (acceptBus (Phase.startCond.allowedIn s.twm.ph) (Twm.accept (encode .start)) s)

/-- `STOP` (R123): `PH` must be `ADDR`, `MT` or `MR`. -/
def execStop (s : State) : Host.Outcome State Fault Refusal :=
  .next (acceptBus (Phase.stopCond.allowedIn s.twm.ph) (Twm.accept (encode .stop)) s)

/-- `WRITEB D` (R124): `PH` must be `ADDR` or `MT`. -/
def execWriteb (d : Byte) (s : State) : Host.Outcome State Fault Refusal :=
  .next (acceptBus ((Phase.byteOut d).allowedIn s.twm.ph) (Twm.accept (encode (.writeb d))) s)

/-- `RDACK` (R125): `PH` must be `MR`. -/
def execRdack (s : State) : Host.Outcome State Fault Refusal :=
  .next (acceptBus ((Phase.byteIn .ack).allowedIn s.twm.ph) (Twm.accept (encode .rdack)) s)

/-- `RDNACK` (R126): `PH` must be `MR`. -/
def execRdnack (s : State) : Host.Outcome State Fault Refusal :=
  .next (acceptBus ((Phase.byteIn .nack).allowedIn s.twm.ph) (Twm.accept (encode .rdnack)) s)

/-- `STATUS` (R127): allowed in every `PH`; begins no phase and writes no register; what it returns is `statusReturn`. -/
def execStatus (s : State) : Host.Outcome State Fault Refusal :=
  .next (acceptBus true id s)

/-- What `STATUS` returns, in the step that accepts it: the register `STATUS`; nothing if the command is turned away (R127). -/
def statusReturn (s : State) : Option Byte :=
  if s.tks.insvc = true ∨ s.twm.ready = false then none else some s.twm.status

/-- What `RDACK` and `RDNACK` return at completion: `RXDATA` (R125, R126; log 17). -/
def readReturn (t : State) : Byte := t.twm.rxdata

end Sys2Proof.Machine
end

