-- ==== Sys2Proof/Machine/Tick.lean ====
section
/-! DEFINITION. The scheduler commands `TSETH`, `TSTART`, `TSTOP`, `TRET` (spec 42_tick_scheduler.md R161, R163, R165, R166,
R168): accepted at any time, from either context, and complete in the accepting step. -/

namespace Sys2Proof.Machine

/-- `T_HANDLER <- H; T_HVALID <- 1` (R163). -/
def Tks.register (h : Token) (t : Tks) : Tks := { t with handler := h, hvalid := true }

/-- `T_RUN <- 1; T_CNT <- 0` (R165). -/
def Tks.start (t : Tks) : Tks := { t with run := true, cnt := 0 }

/-- `T_RUN <- 0; T_PEND <- 0` (R166). -/
def Tks.stop (t : Tks) : Tks := { t with run := false, pend := false }

/-- `TSETH H` (R163): `E_REARM` while the scheduler runs. -/
def execTseth (h : Token) (s : State) : Host.Outcome State Fault Refusal :=
  .next (if s.tks.run = true then s.raise .rearm else { s with tks := s.tks.register h })

/-- `TSTART` (R165). -/
def execTstart (s : State) : Host.Outcome State Fault Refusal :=
  .next { s with tks := s.tks.start }

/-- `TSTOP` (R166). -/
def execTstop (s : State) : Host.Outcome State Fault Refusal :=
  .next { s with tks := s.tks.stop }

/-- `TRET` (R168): `E_TRET` with no handler in service, else the return from the tick interrupt. -/
def execTret (s : State) : Host.Outcome State Fault Refusal :=
  .next (if s.tks.insvc = false then s.raise .tret else { s with tks := s.tks.leaveHandler })

end Sys2Proof.Machine
end

