-- ==== Sys2Proof/Machine/Txn.lean ====
section
/-! DEFINITION. The verified transactions `WRTXN` and `RDTXN` (spec 41_bus_transactions.md R143, R146): a meaning is the
accepting step, with no phase check (R120); the sequencer does the rest (Machine/Engine.lean; log 15). -/

namespace Sys2Proof.Machine

/-- `WRTXN A, D` (R143). -/
def execWrtxn (a : Address) (d : Byte) (s : State) : Host.Outcome State Fault Refusal :=
  .next (acceptBus true (Twm.acceptTxn (encode (.wrtxn a d))) s)

/-- `RDTXN A` (R146). -/
def execRdtxn (a : Address) (s : State) : Host.Outcome State Fault Refusal :=
  .next (acceptBus true (Twm.acceptTxn (encode (.rdtxn a))) s)

/-- What `WRTXN` returns at completion: `OK` (R143; log 17). -/
def writeReturn (t : State) : Bool := t.twm.ok

/-- What `RDTXN` returns at completion: `(OK, RXDATA)` (R146; log 17). -/
def readTxnReturn (t : State) : Bool × Byte := (t.twm.ok, t.twm.rxdata)

end Sys2Proof.Machine
end

