-- ==== Sys2Proof/Machine/Dispatch.lean ====
section
/-! DEFINITION. The meaning of each command (spec 30_encoding.md R94). -/

namespace Sys2Proof.Machine

def exec (i : Instr) (s : State) : Host.Outcome State Fault Refusal :=
  match i with
  | .start => Sys2Proof.Machine.execStart s
  | .stop => Sys2Proof.Machine.execStop s
  | .writeb d => Sys2Proof.Machine.execWriteb d s
  | .rdack => Sys2Proof.Machine.execRdack s
  | .rdnack => Sys2Proof.Machine.execRdnack s
  | .status => Sys2Proof.Machine.execStatus s
  | .wrtxn a d => Sys2Proof.Machine.execWrtxn a d s
  | .rdtxn a => Sys2Proof.Machine.execRdtxn a s
  | .tseth h => Sys2Proof.Machine.execTseth h s
  | .tstart => Sys2Proof.Machine.execTstart s
  | .tstop => Sys2Proof.Machine.execTstop s
  | .tret => Sys2Proof.Machine.execTret s

end Sys2Proof.Machine
end

