-- ==== Sys2Proof/Machine/Device.lean ====
section
/-! DEFINITION. The reference device `DEV`, one particular environment (spec 20_memory.md R75 to R84; decision D15). -/

namespace Sys2Proof.Machine

/-- What the device answers to a phase, and its state after. -/
structure DevReply where
  outcome : PhaseOutcome
  dev : Dev
  draws : Nat
deriving DecidableEq, Repr

/-- "the latched byte is dropped", "`MODE <- DIDLE`; `P` keeps its value" (R82). -/
def Dev.onStart (d : Dev) : Dev := { d with mode := .didle }

/-- A select byte is accepted when its top four bits are `SEL_PREFIX` and the device is not write-busy (R77). -/
def Dev.selects (b : Byte) (d : Dev) : Bool := b.extractLsb' 4 4 == Config.SEL_PREFIX && !d.wbusy

/-- `P[10:8] <- b[3:1]`, and `MODE` by the read/write bit (R77). -/
def Dev.onSelect (b : Byte) (d : Dev) : Dev :=
  { d with
    ptr := b.extractLsb' 1 3 ++ d.ptr.extractLsb' 0 8
    mode := if hasReadBit b then .dread else .daddr }

/-- `P[7:0] <- b`, `MODE <- DDATA` (R78). -/
def Dev.onLowAddress (b : Byte) (d : Dev) : Dev :=
  { d with ptr := d.ptr.extractLsb' 8 3 ++ b, mode := .ddata }

/-- `LATCH <- b`, `MODE <- DPEND` (R78). -/
def Dev.onData (b : Byte) (d : Dev) : Dev := { d with latch := b, mode := .dpend }

/-- A stop: a latched byte is stored at `P` and the device becomes write-busy; in every case `MODE <- DIDLE` (R79). -/
def Dev.onStop (d : Dev) : Dev :=
  if d.mode = .dpend then
    { d with mem := d.mem.write d.ptr d.latch, wbusy := true, wAddr := d.ptr, mode := .didle }
  else { d with mode := .didle }

/-- A byte given: `P <- (P + 1) mod 2048`; `MODE <- DIDLE` if no acknowledge came back (R81). -/
def Dev.onRead (k : AckBit) (d : Dev) : Dev :=
  { d with
    ptr := d.ptr + 1#11
    mode := match k with | .nack => .didle | .ack => .dread }

/-- A free answer to a byte out, as an outcome. -/
def byteOutDraw : Config.ByteOutDraw → PhaseOutcome
  | .ack => .ack
  | .nack => .nack
  | .abnormal i => .abnormal (Config.outsideSix i)

/-- A free answer to a byte in, as an outcome. -/
def byteInDraw : Config.ByteInDraw → PhaseOutcome
  | .byte v => .byte v
  | .abnormal i => .abnormal (Config.outsideSix i)

/-- A byte out for which the device has no rule: any outcome the phase admits (R84), and an unknown `P`, `MODE`, `LATCH`
afterwards (log 11). -/
def Dev.unruledByteOut (d : Dev) (n : Nat) : DevReply where
  outcome := byteOutDraw (Config.freeByteOut n)
  dev := { d with ptr := Config.freePtr n, mode := Config.freeMode n, latch := Config.freeLatch n }
  draws := n + 1

/-- A byte in for which the device has no rule: any byte or an abnormal code (R84); a read changes only `P` (R68; log 11). -/
def Dev.unruledByteIn (d : Dev) (n : Nat) : DevReply where
  outcome := byteInDraw (Config.freeByteIn n)
  dev := { d with ptr := Config.freePtr n }
  draws := n + 1

/-- The device on a byte out, begun with `PH`=`ADDR` (a select byte, R77) or not (R78, R84). -/
def Dev.onByteOut (b : Byte) (ph : PH) (d : Dev) (n : Nat) : DevReply :=
  if ph = .addr then
    if d.selects b = true then ⟨.ack, d.onSelect b, n⟩ else ⟨.nack, { d with mode := .didle }, n⟩
  else
    match d.mode with
    | .daddr => ⟨.ack, d.onLowAddress b, n⟩
    | .ddata => ⟨.ack, d.onData b, n⟩
    | .didle => ⟨.nack, d, n⟩
    | .dpend => d.unruledByteOut n
    | .dread => d.unruledByteOut n

/-- The device on a byte in (R81, R84). -/
def Dev.onByteIn (k : AckBit) (d : Dev) (n : Nat) : DevReply :=
  match d.mode with
  | .dread => ⟨.byte (d.mem.read d.ptr), d.onRead k, n⟩
  | .didle => d.unruledByteIn n
  | .daddr => d.unruledByteIn n
  | .ddata => d.unruledByteIn n
  | .dpend => d.unruledByteIn n

/-- The device completes a phase begun with the master in `ph`; `n` counts the free values drawn so far (R77 to R84). -/
def Dev.respond (x : Phase) (ph : PH) (d : Dev) (n : Nat) : DevReply :=
  match x with
  | .startCond => ⟨.startOk, d.onStart, n⟩
  | .byteOut b => d.onByteOut b ph n
  | .byteIn k => d.onByteIn k n
  | .stopCond => ⟨.done, d.onStop, n⟩

/-- The reference device completes the phase in progress; with none in progress it has no step. -/
def devAnswer (s : State) : Host.Outcome State Fault Refusal :=
  match s.twm.phaseInProgress with
  | none => .next s
  | some x =>
    let r := s.dev.respond x s.twm.ph s.draws
    completePhase x r.outcome { s with dev := r.dev, draws := r.draws }

/-- The device completes up to `n` phases, one after another. -/
def devAnswers : Nat → State → Host.Outcome State Fault Refusal
  | 0, s => .next s
  | n + 1, s => andThen (devAnswer s) (devAnswers n)

end Sys2Proof.Machine
end

