-- ==== Sys2Proof/Machine/Events.lean ====
section
/-! DEFINITION. The events that are not commands: timer clock and tick (spec 42_tick_scheduler.md R170, R171), dispatch (R172),
the end of a write-busy interval (20_memory.md R80), a delay (30_encoding.md R110), reset and loss of power
(70_reset_and_hazards.md R220 to R224, 20_memory.md R83). An event whose agent has no enabled step changes nothing (log 2). -/

namespace Sys2Proof.Machine

/-- One count of the periodic-compare timer: on a match with `top` the count restarts and a tick is raised (R170). -/
def countClock {w : Nat} (top cnt : BitVec w) : BitVec w × Bool :=
  if cnt = top then (0#w, true) else (cnt + 1#w, false)

/-- Tick: discarded with no handler, lost if one is pending, else latched (R171). -/
def Tks.tick (t : Tks) : Tks :=
  if t.hvalid = false then t
  else if t.pend = true then t
  else { t with pend := true }

/-- Timer-clock event (R170): nothing while `T_RUN`=0. -/
def Tks.clock (t : Tks) : Tks :=
  if t.run = true then
    if (countClock Config.T_TOP t.cnt).2 = true then { t with cnt := (countClock Config.T_TOP t.cnt).1 }.tick
    else { t with cnt := (countClock Config.T_TOP t.cnt).1 }
  else t

/-- Dispatch, enabled when `IRQ`=1 (R172). -/
def Tks.dispatch (t : Tks) : Tks := if t.irq = true then t.enterHandler else t

/-- The timer-clock event on the machine. -/
def timerClock (s : State) : State := { s with tks := s.tks.clock }

/-- Dispatch on the machine. -/
def dispatch (s : State) : State := { s with tks := s.tks.dispatch }

/-- The device finishes storing (R80). -/
def settle (s : State) : State := { s with dev := { s.dev with wbusy := false } }

/-- `DELAY T_SETTLE` ends: a step of `HOST.main`, which moves only while `READY`=1 and `T_INSVC`=0 (R5, R38, R110); one that
began after the commit ends with `WBUSY` false (R80; log 12). -/
def delay (s : State) : State :=
  if s.twm.ready = true ∧ s.tks.insvc = false then settle s else s

/-- Reset of the block: every register at its reset value, the device as it was (R221, R222; log 13). -/
def blockReset (s : State) : State where
  twm := Twm.atReset s.draws
  tks := Tks.atReset s.draws
  fault := 0#3
  dev := s.dev
  draws := s.draws + 1
  agenda := s.agenda

/-- The device at the return of power: storage kept, but for the byte being stored, which holds any value (R83, K16; log 14). -/
def Dev.powerCycle (d : Dev) (n : Nat) : Dev :=
  { d with
    mem := if d.wbusy = true then d.mem.write d.wAddr (Config.freeStored n) else d.mem
    ptr := Config.freePtr n
    mode := .didle
    latch := Config.freeLatch n
    wbusy := false }

/-- Loss of power is for the block a reset at its return (R224). -/
def powerCycle (s : State) : State := blockReset { s with dev := s.dev.powerCycle s.draws }

end Sys2Proof.Machine
end

