-- ==== Sys2Proof/Machine/Perform.lean ====
section
/-! DEFINITION. What each event does: presenting a command word (spec 10_state.md R39; 30_encoding.md R95, R97), and every
other event of the agenda (log 2). -/

namespace Sys2Proof.Machine

/-- The host presents a command word: an illegal word is recorded and has no other effect (R97, R197), any other is executed
by its rule (R95). -/
def presentWord (w : CommandWord) (s : State) : Host.Outcome State Fault Refusal :=
  match decode w with
  | .illegal _ => .next (s.raise .illegal)
  | .command i => exec i s

/-- The step of one event. -/
def perform (e : Event) (s : State) : Host.Outcome State Fault Refusal :=
  match e with
  | .command w => presentWord w s
  | .env o => envAnswer o s
  | .dev => devAnswer s
  | .timerClock => .next (timerClock s)
  | .dispatch => .next (dispatch s)
  | .settle => .next (settle s)
  | .delay => .next (delay s)
  | .reset => .next (blockReset s)
  | .powerCycle => .next (powerCycle s)

/-- Steps until the agenda is done, stopping at a stop. -/
def performAll : List Event → State → Host.Outcome State Fault Refusal
  | [], s => .next s
  | e :: es, s => andThen (perform e s) (performAll es)

end Sys2Proof.Machine
end

