-- ==== Sys2Proof/Machine/Step.lean ====
section
/-! DEFINITION. One step of the machine: the step that the head of the agenda names (spec 00_scope.md R5, R6; log 1, log 2). -/

namespace Sys2Proof.Machine

/-- One step: the head of the agenda is taken off and performed; with nothing scheduled no agent moves and the state stays as
it is ("the block waits", R223). -/
def step (s : State) : Host.Outcome State Fault Refusal :=
  match s.agenda with
  | [] => .next s
  | e :: rest => perform e { s with agenda := rest }

/-- The word of an opcode-table row presented at the command port, as the next thing that happens (log 1). -/
def State.withFetchWord (s : State) (nbits w : Nat) : State :=
  { s with agenda := .command (BitVec.ofNat 24 (w % 2 ^ nbits)) :: s.agenda }

end Sys2Proof.Machine
end

