-- ==== Sys2Proof/Machine/Pseudo.lean ====
section
/-! DEFINITION. The pseudo-operations: host software that issues commands (spec 30_encoding.md R110 to R114), run in the main
context while the environment and the scheduler take any steps; and a transaction the host builds by hand from primitives
(40_bus_primitives.md R128, 41_bus_transactions.md R153). Log 19. -/

namespace Sys2Proof.Machine

/-! ## Waiting -/

/-- A step of an agent other than `HOST.main`, which waits: a command is the handler's, so it needs a handler in service (R38,
R211). A reset of the block resets the host and ends the pseudo-operation (R221), so it is no step of one. -/
def othersStep (e : Event) (s : State) : Host.Outcome State Fault Refusal :=
  match e with
  | .command w => if s.tks.insvc = true then presentWord w s else .next s
  | .env o => envAnswer o s
  | .dev => devAnswer s
  | .timerClock => .next (timerClock s)
  | .dispatch => .next (dispatch s)
  | .settle => .next (settle s)
  | .delay => .next s
  | .reset => .next s
  | .powerCycle => .next s

/-- Steps of the other agents, one after another. -/
def meanwhile : List Event → State → Host.Outcome State Fault Refusal
  | [], s => .next s
  | e :: es, s => andThen (othersStep e s) (meanwhile es)

/-- The reference device answers every phase: seven are the most a command has (R140). -/
def devAnswersAll : List Event := List.replicate 7 .dev

/-- Issue a bus command; while the host waits for `READY`=1 (R151, R236 (a)) the other
agents take the steps `es`. -/
def issue (es : List Event) (i : Instr) (s : State) : Host.Outcome State Fault Refusal :=
  andThen (exec i s) (meanwhile es)

/-- Issue a bus command with every phase completed by the device. -/
def issueUnderDev (i : Instr) (s : State) : Host.Outcome State Fault Refusal := issue devAnswersAll i s

/-- `DELAY T_SETTLE`; meanwhile the other agents take the steps `es` ("Ticks, dispatch and handler runs can occur during a
`DELAY`", R110). -/
def pauseFor (es : List Event) (s : State) : Host.Outcome State Fault Refusal :=
  andThen (meanwhile es s) fun t => .next (delay t)

/-- Issue bus commands one after another under the device, a settle delay after each (R110). -/
def issueSpaced : List Instr → State → Host.Outcome State Fault Refusal
  | [], s => .next s
  | i :: is, s => andThen (issueUnderDev i s) fun t => issueSpaced is (delay t)

/-- How a pseudo-operation stands when the steps given are used up. -/
inductive HostResult (α : Type) where
  /-- it ended with a result -/
  | success (v : α)
  /-- it stopped at a transaction that ended with `OK`=0 -/
  | failure
  /-- the host still waits: for `READY`=1 (a hang, R193, if no answer comes) or for the handler's `TRET` (R209) -/
  | unfinished
deriving DecidableEq, Repr

/-- The same result with its value changed. -/
def HostResult.map {α β : Type} (f : α → β) : HostResult α → HostResult β
  | .success v => .success (f v)
  | .failure => .failure
  | .unfinished => .unfinished

/-- The outcome of a pseudo-operation: the state, and how it stands. -/
abbrev HostOutcome (α : Type) := Host.Outcome (State × HostResult α) Fault Refusal

/-- What the host does after a transaction: nothing until it can move; it stops at `OK`=0; else it goes on (R112, R113). -/
def afterTxn {α : Type} (f : State → HostOutcome α) (t : State) : HostOutcome α :=
  if t.mainMoves = false then .next (t, .unfinished)
  else if t.twm.ok = false then .next (t, .failure)
  else f t

/-- Issue commands one after another, each complete in its accepting step. -/
def issueAll : List Instr → State → Host.Outcome State Fault Refusal
  | [], s => .next s
  | i :: is, s => andThen (exec i s) (issueAll is)

/-- `REARM h` = `TSTOP`; `TSETH h`; `TSTART` (R111). -/
def rearm (h : Token) : List Instr := [.tstop, .tseth h, .tstart]

/-- The five symbols of a credential (R7, R64). -/
structure Credential where
  c0 : Byte
  c1 : Byte
  c2 : Byte
  c3 : Byte
  c4 : Byte
deriving DecidableEq, Repr

/-- The symbols in increasing address order (R64). -/
def Credential.bytes (c : Credential) : List Byte := [c.c0, c.c1, c.c2, c.c3, c.c4]

/-- The addresses `CRED_BASE`+0..4 (R69). -/
def credAddresses (L : Config.Layout) : List Address :=
  [L.credBase, L.credBase + 1#11, L.credBase + 2#11, L.credBase + 3#11, L.credBase + 4#11]

/-- The writes of `CRED_WRITE`: five bytes at `CRED_BASE`+0..4, then `EXISTS` at `FLAG_ADDR` (R112). -/
def credWrites (L : Config.Layout) (c : Credential) : List (Address × Byte) :=
  (credAddresses L).zip c.bytes ++ [(L.flagAddr, L.present)]

/-- What the other agents do during one write of `CRED_WRITE`: while its transaction runs, and during the delay after it. -/
structure Slot where
  wait : List Event
  pause : List Event
deriving DecidableEq, Repr

/-- Nothing happens: the transaction hangs. -/
def Slot.silent : Slot := ⟨[], []⟩

/-- The device answers every phase of the transaction, and nothing else happens. -/
def Slot.ofDev : Slot := ⟨devAnswersAll, []⟩

/-- Write bytes one by one, a settle delay after each, stopping at the first that ends with `OK`=0 (R112). -/
def writeBytes : List (Address × Byte) → List Slot → State → HostOutcome Unit
  | [], _, s => .next (s, .success ())
  | (a, d) :: rest, slots, s =>
    andThen (issue (slots.headD .silent).wait (.wrtxn a d) s) <| afterTxn fun t =>
      andThen (pauseFor (slots.headD .silent).pause t) fun u =>
        if u.mainMoves = false then .next (u, .unfinished) else writeBytes rest slots.tail u

/-- `CRED_WRITE` (R112), one slot for each of its six writes. -/
def credWrite (L : Config.Layout) (c : Credential) (slots : List Slot) (s : State) : HostOutcome Unit :=
  writeBytes (credWrites L c) slots s

/-- Read bytes one by one, with no delay between, stopping at the first that ends with `OK`=0 (R113). -/
def readBytes : List Address → List (List Event) → State → HostOutcome (List Byte)
  | [], _, s => .next (s, .success [])
  | a :: rest, waits, s =>
    andThen (issue (waits.headD []) (.rdtxn a) s) <| afterTxn fun t =>
      andThen (readBytes rest waits.tail t) fun p => .next (p.1, p.2.map (t.twm.rxdata :: ·))

/-- `CRED_READ` (R113): the five bytes; what the other agents do during each of its five reads. -/
def credRead (L : Config.Layout) (waits : List (List Event)) (s : State) : HostOutcome (List Byte) :=
  readBytes (credAddresses L) waits s

/-- `HAS_CRED` (R114): compares the flag byte with `EXISTS`; if the read fails the answer is free (K10). -/
def hasCred (L : Config.Layout) (wait : List Event) (s : State) : HostOutcome Bool :=
  andThen (issue wait (.rdtxn L.flagAddr) s) fun t =>
    if t.mainMoves = false then .next (t, .unfinished)
    else if t.twm.ok = true then .next (t, .success (t.twm.rxdata == L.present))
    else .next ({ t with draws := t.draws + 1 }, .success (Config.freeAnswer t.draws))

/-! ## A transaction built by hand (R128) -/

/-- The write transaction as primitives, each with the code the host compares `STATUS` with afterwards (R153). -/
def handWrite (a : Address) (d : Byte) : List (Instr × Option Byte) := [
  (.start, some Config.ST_START),
  (.writeb (selw a), some Config.ST_SLAW_ACK),
  (.writeb (alo a), some Config.ST_DATA_ACK),
  (.writeb d, some Config.ST_DATA_ACK),
  (.stop, none)]

/-- The read transaction as primitives (R153). -/
def handRead (a : Address) : List (Instr × Option Byte) := [
  (.start, some Config.ST_START),
  (.writeb (selw a), some Config.ST_SLAW_ACK),
  (.writeb (alo a), some Config.ST_DATA_ACK),
  (.start, some Config.ST_RSTART),
  (.writeb (selr a), some Config.ST_SLAR_ACK),
  (.rdnack, some Config.ST_RX_NACK),
  (.stop, none)]

/-- Issue primitives one by one, the environment answering each in turn, comparing after each and stopping at the first
mismatch (R128); if the environment gives no further answer the command issued last stays in progress (R193). -/
def byHand : List (Instr × Option Byte) → List PhaseOutcome → State → Host.Outcome State Fault Refusal
  | [], _, s => .next s
  | (i, _) :: _, [], s => exec i s
  | (i, want) :: rest, o :: os, s =>
    andThen (exec i s) fun t =>
      andThen (envAnswer o t) fun u =>
        match want with
        | none => byHand rest os u
        | some c => if u.twm.status = c then byHand rest os u else .next u

end Sys2Proof.Machine
end

