-- ==== Sys2Proof/Safety.lean ====
section
/-! DEFINITION. What holds of every state the machine reaches (spec 10_state.md R24; 42_tick_scheduler.md R176), what the host
owes the block (70_reset_and_hazards.md R236, R238), and when a run has ended (R243). -/

namespace Sys2Proof.Machine

/-- The bus engine in good order: idle with `SEQ`=0 (R24), or busy with a phase in progress; a transaction in progress has
`OK`=0 and `FSTEP`=0 (R22, R23); `OK`=1 records no failure; `FSTEP` is never 7 (R23). -/
structure Twm.Good (b : Twm) : Prop where
  idle : b.ready = true → b.seq = 0#3
  busy : b.ready = false → b.phaseInProgress ≠ none
  running : b.seq ≠ 0#3 → b.ok = false ∧ b.fstep = 0#3
  passed : b.ok = true → b.fstep = 0#3
  step : b.fstep ≠ 7#3

/-- The invariants of the scheduler, R176 (a), (b), (d); (c) is the definition of the handler context. -/
structure Tks.Good (t : Tks) : Prop where
  stopped : t.run = false → t.pend = false
  pending : t.pend = true → t.hvalid = true
  count : t.cnt.toNat ≤ Config.T_TOP.toNat

/-- The invariant of the machine; value 7 of `FAULT` never occurs (R27). -/
structure State.Inv (s : State) : Prop where
  twm : s.twm.Good
  tks : s.tks.Good
  fault : s.fault ≠ 7#3
  mem : s.dev.mem.wf

/-- The host keeps its duties when it presents `i` in state `s`, as far as one command shows them: bus commands only from the
main context and only while `READY`=1 (R236 (a), R238 (a)); `TSTART` only with a handler registered (R236 (b)); `TRET` only
from the handler (R236 (d)); `TSETH` only while the scheduler is stopped (R232); a primitive only in a `PH` that R129 allows. -/
def keepsDuties (i : Instr) (s : State) : Prop :=
  (i.isBus = true → s.tks.insvc = false ∧ s.twm.ready = true) ∧
  (i = .tstart → s.tks.hvalid = true) ∧
  (i = .tret → s.tks.insvc = true) ∧
  ((∃ h, i = .tseth h) → s.tks.run = false) ∧
  (i = .stop → s.twm.ph ≠ .idle) ∧
  ((∃ d, i = .writeb d) → s.twm.ph = .addr ∨ s.twm.ph = .mt) ∧
  (i = .rdack ∨ i = .rdnack → s.twm.ph = .mr)

/-- A bus command can be accepted: no handler in service and `READY`=1 (R120). -/
def State.acceptsBus (s : State) : Prop := s.tks.insvc = false ∧ s.twm.ready = true

/-- The start of a transaction the client relies on: it can be accepted and the bus is not held (R85, R143). -/
def State.freshBus (s : State) : Prop := s.acceptsBus ∧ s.twm.ph = .idle ∧ s.twm.seq = 0#3

/-- The machine after a fault with cause code `n`: `FAULT` takes it if it held none, and nothing else changes (R196). -/
def recordFault (n : BitVec 3) (s : State) : State := { s with fault := if s.fault = 0#3 then n else s.fault }

/-- When a bus command is turned away, and what that does: `E_CTX`, then `E_OVERLAP`, then, for a primitive in a `PH` that is
not allowed, `E_PHASE` (R120, R203). -/
def busFaults (i : Instr) (allowed : PH → Bool) (s : State) : Prop :=
  (s.tks.insvc = true → exec i s = .next (recordFault 3#3 s)) ∧
  (s.tks.insvc = false → s.twm.ready = false → exec i s = .next (recordFault 4#3 s)) ∧
  (s.acceptsBus → allowed s.twm.ph = false → exec i s = .next (recordFault 2#3 s))

/-- The machine `t`, which has just accepted in state `s` the transaction of word `w`, ends it on the answers `os` with
`fail(n)`: `STATUS`=`code`, `PH`=`ph`, the phases `sent` on the bus and none after (R142). -/
def failsAs (w : CommandWord) (s t : State) (os : List PhaseOutcome) (n : BitVec 3) (code : Byte) (ph : PH)
    (sent : List Phase) : Prop :=
  envAnswers os t = .next { s with twm := { s.twm with
    cmdr := w, ready := true, ok := false, fstep := n, status := code, ph := ph, seq := 0#3 } } ∧
  busTrace os t = sent

/-- What the bus and the host can compare of two runs (R153): `STATUS`, `RXDATA`, `PH` and the phase on the bus. -/
def busEffect (o : Host.Outcome State Fault Refusal) : Option (Byte × Byte × PH × Option Phase) :=
  (nextOf o).map fun u => (u.twm.status, u.twm.rxdata, u.twm.ph, u.twm.phaseInProgress)

/-- The values `STATUS` takes while the device completes the next `n` phases. -/
def devStatuses : Nat → State → List Byte
  | 0, _ => []
  | n + 1, s =>
    match devAnswer s with
    | .next t => t.twm.status :: devStatuses n t
    | .fault _ => []
    | .refused _ => []

/-- The end of a run (R243): no command left to present, and `READY`=1, `T_INSVC`=0, `T_PEND`=0, `FAULT`=0. -/
def finalState (s : State) : Prop :=
  (∀ w, Event.command w ∉ s.agenda) ∧
  s.twm.ready = true ∧ s.tks.insvc = false ∧ s.tks.pend = false ∧ s.fault = 0#3

/-- Events that answer a phase or reset the block: the only ones that end a wait for `READY` (R193). -/
def Event.endsWait : Event → Bool
  | .env _ => true
  | .dev => true
  | .reset => true
  | .powerCycle => true
  | .command _ => false
  | .timerClock => false
  | .dispatch => false
  | .settle => false
  | .delay => false

/-- Events of the oracle environment. -/
def Event.isEnv : Event → Bool
  | .env _ => true
  | .dev => false
  | .reset => false
  | .powerCycle => false
  | .command _ => false
  | .timerClock => false
  | .dispatch => false
  | .settle => false
  | .delay => false

/-- Events of the tick scheduler and of its commands (R161, R170, R172), and illegal words: what may happen while a
transaction runs without being an answer to it (R151). -/
def Event.isTick : Event → Bool
  | .timerClock => true
  | .dispatch => true
  | .command w =>
    match decode w with
    | .command i => !i.isBus
    | .illegal _ => true
  | .env _ => false
  | .dev => false
  | .reset => false
  | .powerCycle => false
  | .settle => false
  | .delay => false

/-- Events after which no phase has passed that the device did not see: an answer given in the device's place is a refusal or an
abnormal outcome (R121). -/
def Event.deniesOnly : Event → Bool
  | .env .startOk => false
  | .env .ack => false
  | .env .nack => true
  | .env (.byte _) => false
  | .env .done => false
  | .env (.abnormal _) => true
  | .dev => true
  | .reset => true
  | .powerCycle => true
  | .command _ => true
  | .timerClock => true
  | .dispatch => true
  | .settle => true
  | .delay => true

/-- Events that are no reset of the block. -/
def Event.keepsPower : Event → Bool
  | .reset => false
  | .powerCycle => false
  | .env _ => true
  | .dev => true
  | .command _ => true
  | .timerClock => true
  | .dispatch => true
  | .settle => true
  | .delay => true

end Sys2Proof.Machine
end

