-- ==== Sys2Proof/Certificates/Slice0/Obligations.lean ====
section
/-! DEFINITION. The statements about DLS-TWT, each from the rules of spec/ that its docstring names. -/

open Sys2Proof Sys2Proof.Machine

/-! ## Encoding -/

/-- Words of every format decode to the command they stand for, and illegal words are refused by name (spec 95_test_vectors.md
section 2.1). -/
def Obligations.TableWordsDecode : Prop :=
  decode 0x100000#24 = .command .start ∧
  decode 0x3000A6#24 = .command (.writeb 0xA6#8) ∧
  decode 0x831135#24 = .command (.wrtxn 0x311#11 0x35#8) ∧
  decode 0x87FFFF#24 = .command (.wrtxn 0x7FF#11 0xFF#8) ∧
  decode 0x931100#24 = .command (.rdtxn 0x311#11) ∧
  decode 0xC00D01#24 = .command (.tseth 0x0D01#16) ∧
  decode 0xF00000#24 = .command .tret ∧
  decode 0x000000#24 = .illegal .reservedOp ∧
  decode 0x880000#24 = .illegal .mustBeZero ∧
  decode 0xFFFFFF#24 = .illegal .mustBeZero

/-- Decoding the word of a command gives the command back, with every operand at every value (R92, R95, R96). -/
def Obligations.DecodeOfEncode : Prop := ∀ i : Instr, decode (encode i) = .command i

/-- Each command has one word: a word that decodes to a command is that command's word (R92, R95). -/
def Obligations.EncodeOfDecode : Prop := ∀ (w : CommandWord) (i : Instr), decode w = .command i → encode i = w

/-- R97: which words are illegal, and what an illegal word does in any state. -/
def Obligations.IllegalWordRecordsFaultOnly : Prop :=
  (∀ w : CommandWord, (∃ r, decode w = .illegal r) ↔ wordWellFormed w = false) ∧
  (∀ w : CommandWord, decode w = .illegal .reservedOp ↔ opField w ∈ [0x0#4, 0x7#4, 0xA#4, 0xB#4]) ∧
  (∀ w : CommandWord, w.getLsbD 19 = true → wordWellFormed w = false) ∧
  wordWellFormed 0x000000#24 = false ∧ wordWellFormed 0xFFFFFF#24 = false ∧
  (∀ (w : CommandWord) (s : State), wordWellFormed w = false → presentWord w s = .next (recordFault 1#3 s))

/-! ## Steps -/

/-- A step takes the head of the agenda: a word that decodes to `i` runs `exec i`, a word that decodes to nothing is recorded,
and with nothing scheduled the state stays (log 1, log 2; R39, R95). -/
def Obligations.StepRunsDecodedCommand : Prop :=
  (∀ (s : State) (w : CommandWord) (i : Instr) (rest : List Event),
    s.agenda = .command w :: rest → decode w = .command i → step s = exec i { s with agenda := rest }) ∧
  (∀ (s : State) (w : CommandWord) (r : IllegalWord) (rest : List Event),
    s.agenda = .command w :: rest → decode w = .illegal r →
      step s = .next (recordFault 1#3 { s with agenda := rest })) ∧
  (∀ s : State, s.agenda = [] → step s = .next s)

/-- Running the machine for as many steps as the agenda is long performs the agenda's events in order (the model's own
schedule, log 1). -/
def Obligations.RunPerformsAgenda : Prop :=
  ∀ s : State, Host.Core.run core s.agenda.length s = performAll s.agenda { s with agenda := [] }

/-- The machine stops only when the agenda names an answer that the environment cannot give to the phase in progress (R121;
log 3), and no instruction is refused. -/
def Obligations.StopsOnlyOnInadmissibleAnswer : Prop :=
  ∀ s : State,
    ((∃ r, step s = .fault r) ↔
      ∃ o rest x, s.agenda = .env o :: rest ∧ s.twm.phaseInProgress = some x ∧ x.admits o = false) ∧
    ∀ r, step s ≠ .refused r

/-! ## Reset -/

/-- R44: the values after reset; `RXDATA`, `CMDR`, `T_HANDLER` are unspecified and nothing is said of them. -/
def Obligations.ResetRegisterValues : Prop :=
  State.reset.twm.ready = true ∧ State.reset.twm.ok = false ∧ State.reset.twm.fstep = 0#3 ∧
  State.reset.twm.status = Config.ST_RESET ∧ Config.ST_RESET ∉ Config.SIX ∧ State.reset.fault = 0#3 ∧
  State.reset.twm.ph = .idle ∧ State.reset.twm.seq = 0#3 ∧ State.reset.tks.run = false ∧
  State.reset.tks.hvalid = false ∧ State.reset.tks.pend = false ∧ State.reset.tks.insvc = false ∧
  State.reset.tks.cnt.toNat = 0

/-- A reset of the block, in every state: the registers of R44, no phase left in progress, no interrupt requested, the device
as it was (R220 to R223; the agenda stays, log 13). -/
def Obligations.ResetWorksInEveryState : Prop :=
  ∀ (s : State) (rest : List Event), s.agenda = .reset :: rest →
    ∃ t, step s = .next t ∧
      t.twm.ready = true ∧ t.twm.ok = false ∧ t.twm.fstep = 0#3 ∧ t.twm.status = Config.ST_RESET ∧ t.fault = 0#3 ∧
      t.twm.ph = .idle ∧ t.twm.seq = 0#3 ∧ t.tks.run = false ∧ t.tks.hvalid = false ∧ t.tks.pend = false ∧
      t.tks.insvc = false ∧ t.tks.cnt.toNat = 0 ∧
      t.twm.phaseInProgress = none ∧ t.tks.request = none ∧ t.context = .main ∧ t.dev = s.dev ∧ t.agenda = rest

/-- R83, R224: what a loss of power leaves of the block and the device. The model's choices in it: the event is taken from the
agenda (log 1); the registers the spec leaves unspecified at reset, `RXDATA`, `CMDR`, `T_HANDLER`, take free draws inside
`Twm.atReset` and `Tks.atReset` (log 5); the byte being written is the one that the model's own field `wAddr` names (log 14;
the statement DeviceStoresOnlyAtStop ties that field to the byte stored). -/
def Obligations.PowerLossKeepsStorage : Prop :=
  ∀ (s : State) (rest : List Event), s.agenda = .powerCycle :: rest →
    ∃ t, step s = .next t ∧ t.twm = Twm.atReset s.draws ∧ t.tks = Tks.atReset s.draws ∧ t.fault = 0#3 ∧
      t.dev.mode = .didle ∧ t.dev.wbusy = false ∧
      ∀ a : Address, (s.dev.wbusy = false ∨ a ≠ s.dev.wAddr) → t.dev.mem.read a = s.dev.mem.read a

/-! ## The invariant -/

/-- The invariant holds after reset. -/
def Obligations.InvariantAtReset : Prop := State.reset.Inv

/-- Every step keeps the invariant: a busy engine has a phase in progress that its `PH` allows, `SEQ`=0 when idle (R24), a
transaction in progress has `OK`=0 and `FSTEP`=0, `FSTEP` and `FAULT` never hold 7, the scheduler's invariants of R176, and the
canonical form of the device's bytes. -/
def Obligations.StepKeepsInvariant : Prop := ∀ s t : State, s.Inv → step s = .next t → t.Inv

/-- R24, in states the machine can reach: whatever happens, `SEQ` stays, goes up by one, or returns to 0; after the last step
(5 of a write, 7 of a read) it does not go up. -/
def Obligations.SequencerMovesByOneOrToZero : Prop :=
  ∀ (s t : State) (e : Event), s.Inv → perform e s = .next t →
    (t.twm.seq = s.twm.seq ∨ t.twm.seq = 0#3 ∨ t.twm.seq.toNat = s.twm.seq.toNat + 1) ∧
    (s.twm.seq.toNat = (txnSteps s.twm.cmdr).length → s.twm.seq ≠ 0#3 →
      t.twm.seq = s.twm.seq ∨ t.twm.seq = 0#3)

/-! ## Faults and acceptance -/

/-- R203: the order of the checks, for every command in every state. -/
def Obligations.FaultChecksInOrder : Prop :=
  (∀ (w : CommandWord) (s : State), wordWellFormed w = false → presentWord w s = .next (recordFault 1#3 s)) ∧
  (∀ (i : Instr) (s : State), i.isBus = true → s.tks.insvc = true → exec i s = .next (recordFault 3#3 s)) ∧
  (∀ (i : Instr) (s : State), i.isBus = true → s.tks.insvc = false → s.twm.ready = false →
    exec i s = .next (recordFault 4#3 s)) ∧
  (∀ s : State, s.acceptsBus → s.twm.ph = .idle → exec .stop s = .next (recordFault 2#3 s)) ∧
  (∀ (d : Byte) (s : State), s.acceptsBus → s.twm.ph = .idle ∨ s.twm.ph = .mr →
    exec (.writeb d) s = .next (recordFault 2#3 s)) ∧
  (∀ s : State, s.acceptsBus → s.twm.ph ≠ .mr →
    exec .rdack s = .next (recordFault 2#3 s) ∧ exec .rdnack s = .next (recordFault 2#3 s)) ∧
  (∀ (h : Token) (s : State), s.tks.run = true → exec (.tseth h) s = .next (recordFault 5#3 s)) ∧
  (∀ s : State, s.tks.insvc = false → exec .tret s = .next (recordFault 6#3 s))

/-- R196: `FAULT` is sticky, whatever happens, until a reset; and a state with `FAULT` not 0 is never final (R243). -/
def Obligations.FaultIsSticky : Prop :=
  ∀ (es : List Event) (s t : State), (∀ e ∈ es, e.keepsPower = true) → s.fault ≠ 0#3 →
    performAll es s = .next t → t.fault = s.fault ∧ ¬ finalState t

/-- A host that keeps its duties (R236, R238), the re-arm order (R232) and the phases of R129 never raises a fault. -/
def Obligations.DutifulHostRaisesNoFault : Prop :=
  ∀ (i : Instr) (s : State), keepsDuties i s → s.fault = 0#3 → ∃ t, exec i s = .next t ∧ t.fault = 0#3

/-- What one command leaves unchanged, in its accepting step: a bus command the scheduler, a scheduler command the bus engine,
each of them `STATUS`, `RXDATA`, `PH` (R120, R161), the device and every byte of it (R61); a primitive leaves `OK`, `FSTEP`
and `SEQ` (R22, R23, R24), and `STATUS` leaves `CMDR` and `READY` too (R28, R127). -/
def Obligations.CommandFrame : Prop :=
  ∀ (i : Instr) (s t : State), exec i s = .next t →
    (i.isBus = true → t.tks = s.tks) ∧ (i.isBus = false → t.twm = s.twm) ∧
    t.twm.status = s.twm.status ∧ t.twm.rxdata = s.twm.rxdata ∧ t.twm.ph = s.twm.ph ∧
    ((∀ a d, i ≠ .wrtxn a d) → (∀ a, i ≠ .rdtxn a) →
      t.twm.ok = s.twm.ok ∧ t.twm.fstep = s.twm.fstep ∧ t.twm.seq = s.twm.seq) ∧
    (i = .status → t.twm.cmdr = s.twm.cmdr ∧ t.twm.ready = s.twm.ready) ∧
    (t.fault ≠ s.fault → t.twm = s.twm ∧ t.tks = s.tks) ∧
    t.dev = s.dev ∧ (∀ a : Address, t.dev.mem.read a = s.dev.mem.read a) ∧ t.draws = s.draws ∧ t.agenda = s.agenda

/-- What the completion of a phase leaves unchanged: the scheduler, `FAULT`, `CMDR`; the device and every byte of it, which is the
model's choice for an oracle's answer and no rule of the spec (log 9); `RXDATA` unless a byte came in (R26); `OK` and `FSTEP` for a primitive (R22, R23); with no phase in progress, all. -/
def Obligations.PhaseFrame : Prop :=
  ∀ (o : PhaseOutcome) (s t : State), envAnswer o s = .next t →
    t.tks = s.tks ∧ t.fault = s.fault ∧ t.twm.cmdr = s.twm.cmdr ∧ t.dev = s.dev ∧
    (∀ a : Address, t.dev.mem.read a = s.dev.mem.read a) ∧ t.draws = s.draws ∧ t.agenda = s.agenda ∧
    ((∀ k v, ¬ (s.twm.phaseInProgress = some (.byteIn k) ∧ o = .byte v)) → t.twm.rxdata = s.twm.rxdata) ∧
    (s.twm.seq = 0#3 → t.twm.ok = s.twm.ok ∧ t.twm.fstep = s.twm.fstep) ∧
    (s.twm.phaseInProgress = none → t = s)

/-! ## Bus primitives -/

/-- R122: `START`. -/
def Obligations.StartEffect : Prop :=
  ∀ s : State, encode .start = 0x100000#24 ∧ busFaults .start (fun _ => true) s ∧
    (s.acceptsBus → s.twm.seq = 0#3 →
      ∃ t, exec .start s = .next t ∧
        t = { s with twm := { s.twm with cmdr := 0x100000#24, ready := false } } ∧
        t.twm.phaseInProgress = some .startCond ∧
        envAnswer .startOk t = .next { s with twm := { s.twm with
          cmdr := 0x100000#24, ready := true, status := if s.twm.ph = .idle then 0x08#8 else 0x10#8, ph := .addr } } ∧
        ∀ c, c ∉ Config.SIX → envAnswer (.abnormal c) t = .next { s with twm := { s.twm with
          cmdr := 0x100000#24, ready := true, status := c } })

/-- R123: `STOP`. -/
def Obligations.StopEffect : Prop :=
  ∀ s : State, encode .stop = 0x200000#24 ∧ busFaults .stop (fun p => p != .idle) s ∧
    (s.acceptsBus → s.twm.seq = 0#3 → s.twm.ph ≠ .idle →
      ∃ t, exec .stop s = .next t ∧
        t = { s with twm := { s.twm with cmdr := 0x200000#24, ready := false } } ∧
        t.twm.phaseInProgress = some .stopCond ∧
        envAnswer .done t = .next { s with twm := { s.twm with
          cmdr := 0x200000#24, ready := true, status := Config.ST_AFTER_STOP, ph := .idle } } ∧
        ∀ c, c ∉ Config.SIX → envAnswer (.abnormal c) t = .next { s with twm := { s.twm with
          cmdr := 0x200000#24, ready := true, status := c } })

/-- R124: `WRITEB D`. That `D[0]`=0 writes and `D[0]`=1 reads is the default of `RW_READ`, presumed (log 7). -/
def Obligations.WritebEffect : Prop :=
  ∀ (s : State) (d : Byte), encode (.writeb d) = 0x3000#16 ++ d ∧
    busFaults (.writeb d) (fun p => p == .addr || p == .mt) s ∧
    (s.acceptsBus → s.twm.seq = 0#3 → s.twm.ph = .addr ∨ s.twm.ph = .mt →
      ∃ t, exec (.writeb d) s = .next t ∧
        t = { s with twm := { s.twm with cmdr := 0x3000#16 ++ d, ready := false } } ∧
        t.twm.phaseInProgress = some (.byteOut d) ∧
        (s.twm.ph = .addr → d.getLsbD 0 = false →
          envAnswer .ack t = .next { s with twm := { s.twm with
            cmdr := 0x3000#16 ++ d, ready := true, status := 0x18#8, ph := .mt } } ∧
          envAnswer .nack t = .next { s with twm := { s.twm with
            cmdr := 0x3000#16 ++ d, ready := true, status := Config.ST_SLAW_NACK, ph := .mt } }) ∧
        (s.twm.ph = .addr → d.getLsbD 0 = true →
          envAnswer .ack t = .next { s with twm := { s.twm with
            cmdr := 0x3000#16 ++ d, ready := true, status := 0x40#8, ph := .mr } } ∧
          envAnswer .nack t = .next { s with twm := { s.twm with
            cmdr := 0x3000#16 ++ d, ready := true, status := Config.ST_SLAR_NACK, ph := .mr } }) ∧
        (s.twm.ph = .mt →
          envAnswer .ack t = .next { s with twm := { s.twm with
            cmdr := 0x3000#16 ++ d, ready := true, status := 0x28#8, ph := .mt } } ∧
          envAnswer .nack t = .next { s with twm := { s.twm with
            cmdr := 0x3000#16 ++ d, ready := true, status := Config.ST_DATA_NACK, ph := .mt } }) ∧
        ∀ c, c ∉ Config.SIX → envAnswer (.abnormal c) t = .next { s with twm := { s.twm with
          cmdr := 0x3000#16 ++ d, ready := true, status := c } })

/-- R125: `RDACK`. -/
def Obligations.RdackEffect : Prop :=
  ∀ s : State, encode .rdack = 0x400000#24 ∧ busFaults .rdack (fun p => p == .mr) s ∧
    (s.acceptsBus → s.twm.seq = 0#3 → s.twm.ph = .mr →
      ∃ t, exec .rdack s = .next t ∧
        t = { s with twm := { s.twm with cmdr := 0x400000#24, ready := false } } ∧
        t.twm.phaseInProgress = some (.byteIn .ack) ∧
        (∀ v, ∃ u, envAnswer (.byte v) t = .next u ∧
          u = { s with twm := { s.twm with
            cmdr := 0x400000#24, ready := true, status := Config.ST_RX_ACK, rxdata := v } } ∧
          readReturn u = v) ∧
        ∀ c, c ∉ Config.SIX → envAnswer (.abnormal c) t = .next { s with twm := { s.twm with
          cmdr := 0x400000#24, ready := true, status := c } })

/-- R126: `RDNACK`. -/
def Obligations.RdnackEffect : Prop :=
  ∀ s : State, encode .rdnack = 0x500000#24 ∧ busFaults .rdnack (fun p => p == .mr) s ∧
    (s.acceptsBus → s.twm.seq = 0#3 → s.twm.ph = .mr →
      ∃ t, exec .rdnack s = .next t ∧
        t = { s with twm := { s.twm with cmdr := 0x500000#24, ready := false } } ∧
        t.twm.phaseInProgress = some (.byteIn .nack) ∧
        (∀ v, ∃ u, envAnswer (.byte v) t = .next u ∧
          u = { s with twm := { s.twm with
            cmdr := 0x500000#24, ready := true, status := 0x58#8, rxdata := v } } ∧
          readReturn u = v) ∧
        ∀ c, c ∉ Config.SIX → envAnswer (.abnormal c) t = .next { s with twm := { s.twm with
          cmdr := 0x500000#24, ready := true, status := c } })

/-- R127: `STATUS` writes no register and returns the register `STATUS`; turned away, it returns nothing. -/
def Obligations.StatusEffect : Prop :=
  ∀ s : State, encode .status = 0x600000#24 ∧ busFaults .status (fun _ => true) s ∧
    (s.acceptsBus → exec .status s = .next s ∧ statusReturn s = some s.twm.status) ∧
    (¬ s.acceptsBus → statusReturn s = none)

/-! ## Transactions -/

/-- R143: `WRTXN A, D` from a free bus, every phase as expected: the phases on the bus, the end state, what it returns. -/
def Obligations.WrtxnSucceeds : Prop :=
  ∀ (s : State) (a : Address) (d : Byte), s.acceptsBus → s.twm.ph = .idle →
    ∃ t u, exec (.wrtxn a d) s = .next t ∧
      t = { s with twm := { s.twm with
        cmdr := 0b10000#5 ++ a ++ d, ready := false, ok := false, fstep := 0#3, seq := 1#3 } } ∧
      busTrace [.startOk, .ack, .ack, .ack, .done] t =
        [.startCond, .byteOut (selw a), .byteOut (alo a), .byteOut d, .stopCond] ∧
      envAnswers [.startOk, .ack, .ack, .ack, .done] t = .next u ∧
      u = { s with twm := { s.twm with
        cmdr := 0b10000#5 ++ a ++ d, ready := true, ok := true, fstep := 0#3, seq := 0#3,
        status := Config.ST_AFTER_STOP, ph := .idle } } ∧
      writeReturn u = true

/-- R144: the end state of a failed `WRTXN` from a free bus, every row of the table. -/
def Obligations.WrtxnFailureTable : Prop :=
  ∀ (s : State) (a : Address) (d c : Byte), s.acceptsBus → s.twm.ph = .idle → c ∉ Config.SIX →
    ∃ t, exec (.wrtxn a d) s = .next t ∧
      let w := encode (.wrtxn a d)
      failsAs w s t [.abnormal c] 1#3 c .idle [.startCond] ∧
      failsAs w s t [.startOk, .nack] 2#3 Config.ST_SLAW_NACK .mt [.startCond, .byteOut (selw a)] ∧
      failsAs w s t [.startOk, .abnormal c] 2#3 c .addr [.startCond, .byteOut (selw a)] ∧
      failsAs w s t [.startOk, .ack, .nack] 3#3 Config.ST_DATA_NACK .mt
        [.startCond, .byteOut (selw a), .byteOut (alo a)] ∧
      failsAs w s t [.startOk, .ack, .abnormal c] 3#3 c .mt [.startCond, .byteOut (selw a), .byteOut (alo a)] ∧
      failsAs w s t [.startOk, .ack, .ack, .nack] 4#3 Config.ST_DATA_NACK .mt
        [.startCond, .byteOut (selw a), .byteOut (alo a), .byteOut d] ∧
      failsAs w s t [.startOk, .ack, .ack, .abnormal c] 4#3 c .mt
        [.startCond, .byteOut (selw a), .byteOut (alo a), .byteOut d]

/-- R146: `RDTXN A` from a free bus, every phase as expected: the phases on the bus, the end state, what it returns. -/
def Obligations.RdtxnSucceeds : Prop :=
  ∀ (s : State) (a : Address) (v : Byte), s.acceptsBus → s.twm.ph = .idle →
    ∃ t u, exec (.rdtxn a) s = .next t ∧
      t = { s with twm := { s.twm with
        cmdr := 0b10010#5 ++ a ++ 0#8, ready := false, ok := false, fstep := 0#3, seq := 1#3 } } ∧
      busTrace [.startOk, .ack, .ack, .startOk, .ack, .byte v, .done] t =
        [.startCond, .byteOut (selw a), .byteOut (alo a), .startCond, .byteOut (selr a), .byteIn .nack, .stopCond] ∧
      envAnswers [.startOk, .ack, .ack, .startOk, .ack, .byte v, .done] t = .next u ∧
      u = { s with twm := { s.twm with
        cmdr := 0b10010#5 ++ a ++ 0#8, ready := true, ok := true, fstep := 0#3, seq := 0#3, rxdata := v,
        status := Config.ST_AFTER_STOP, ph := .idle } } ∧
      readTxnReturn u = (true, v)

/-- R147: the end state of a failed `RDTXN` from a free bus, every row of the table. -/
def Obligations.RdtxnFailureTable : Prop :=
  ∀ (s : State) (a : Address) (c : Byte), s.acceptsBus → s.twm.ph = .idle → c ∉ Config.SIX →
    ∃ t, exec (.rdtxn a) s = .next t ∧
      let w := encode (.rdtxn a)
      failsAs w s t [.abnormal c] 1#3 c .idle [.startCond] ∧
      failsAs w s t [.startOk, .nack] 2#3 Config.ST_SLAW_NACK .mt [.startCond, .byteOut (selw a)] ∧
      failsAs w s t [.startOk, .abnormal c] 2#3 c .addr [.startCond, .byteOut (selw a)] ∧
      failsAs w s t [.startOk, .ack, .nack] 3#3 Config.ST_DATA_NACK .mt
        [.startCond, .byteOut (selw a), .byteOut (alo a)] ∧
      failsAs w s t [.startOk, .ack, .abnormal c] 3#3 c .mt [.startCond, .byteOut (selw a), .byteOut (alo a)] ∧
      failsAs w s t [.startOk, .ack, .ack, .abnormal c] 4#3 c .mt
        [.startCond, .byteOut (selw a), .byteOut (alo a), .startCond] ∧
      failsAs w s t [.startOk, .ack, .ack, .startOk, .nack] 5#3 Config.ST_SLAR_NACK .mr
        [.startCond, .byteOut (selw a), .byteOut (alo a), .startCond, .byteOut (selr a)] ∧
      failsAs w s t [.startOk, .ack, .ack, .startOk, .abnormal c] 5#3 c .addr
        [.startCond, .byteOut (selw a), .byteOut (alo a), .startCond, .byteOut (selr a)] ∧
      failsAs w s t [.startOk, .ack, .ack, .startOk, .ack, .abnormal c] 6#3 c .mr
        [.startCond, .byteOut (selw a), .byteOut (alo a), .startCond, .byteOut (selr a), .byteIn .nack]

/-- R149: a transaction begun with the bus held fails at its first step, whatever the start's outcome. -/
def Obligations.HeldBusTransactionFailsAtStepOne : Prop :=
  ∀ (s : State) (i : Instr) (c : Byte), (∃ a d, i = .wrtxn a d) ∨ (∃ a, i = .rdtxn a) → s.acceptsBus →
    s.twm.ph ≠ .idle → c ∉ Config.SIX →
    ∃ t, exec i s = .next t ∧
      failsAs (encode i) s t [.startOk] 1#3 0x10#8 .addr [.startCond] ∧
      failsAs (encode i) s t [.abnormal c] 1#3 c s.twm.ph [.startCond]

/-- R152: the stop is not verified: whatever its outcome the transaction reports success, and an abnormal one leaves the bus
held. -/
def Obligations.StopOfTransactionNotVerified : Prop :=
  ∀ (s : State) (a : Address) (d v c : Byte), s.acceptsBus → s.twm.ph = .idle → c ∉ Config.SIX →
    (∃ t, exec (.wrtxn a d) s = .next t ∧
      envAnswers [.startOk, .ack, .ack, .ack, .abnormal c] t = .next { s with twm := { s.twm with
        cmdr := encode (.wrtxn a d), ready := true, ok := true, fstep := 0#3, seq := 0#3, status := c, ph := .mt } }) ∧
    (∃ t, exec (.rdtxn a) s = .next t ∧
      envAnswers [.startOk, .ack, .ack, .startOk, .ack, .byte v, .abnormal c] t = .next { s with twm := { s.twm with
        cmdr := encode (.rdtxn a), ready := true, ok := true, fstep := 0#3, seq := 0#3, rxdata := v, status := c,
        ph := .mr } })

/-- R141, R142: at any step of any transaction, an answer whose status code is not the expected one ends it with `fail(n)`, `n`
the step: no further phase, no stop, `FAULT` untouched; the expected code takes it to the next step. -/
def Obligations.MismatchAbortsTransaction : Prop :=
  ∀ (s : State) (x : Phase) (o : PhaseOutcome) (st : TxnStep) (c : Byte),
    s.twm.phaseInProgress = some x → s.twm.currentStep = some st → st.expected = some c → x.admits o = true →
    (statusAfter x s.twm.ph o ≠ c →
      ∃ t, envAnswer o s = .next t ∧ t.twm.fstep = s.twm.seq ∧ t.twm.ok = false ∧ t.twm.seq = 0#3 ∧
        t.twm.ready = true ∧ t.twm.phaseInProgress = none ∧ t.twm.status = statusAfter x s.twm.ph o ∧
        t.twm.ph = phAfter x s.twm.ph o ∧ t.twm.rxdata = rxdataAfter x o s.twm.rxdata ∧ t.fault = s.fault ∧
        t.tks = s.tks) ∧
    (statusAfter x s.twm.ph o = c →
      ∃ t, envAnswer o s = .next t ∧ t.twm.seq = s.twm.seq + 1#3 ∧ t.twm.ready = false ∧ t.twm.status = c ∧
        t.twm.ph = phAfter x s.twm.ph o ∧ t.twm.ok = s.twm.ok ∧ t.twm.fstep = s.twm.fstep)

/-- R31 with the constraint of R8: a phase reaches one of the six verified codes exactly when the environment gave the outcome
that the code names. -/
def Obligations.SixCodesOnlyForTheirOutcomes : Prop :=
  ∀ (x : Phase) (p : PH) (o : PhaseOutcome), x.allowedIn p = true → x.admits o = true →
    (statusAfter x p o ∈ Config.SIX ↔ o = .startOk ∨ o = .ack ∨ (x = .byteIn .nack ∧ ∃ v, o = .byte v))

/-- R153: a transaction has the same effect on the bus, `STATUS`, `RXDATA` and `PH` as the host's own sequence of primitives
and comparisons, for every sequence of answers, one that ends in a hang included. -/
def Obligations.TransactionsEqualHandBuiltSequences : Prop :=
  ∀ (s : State) (a : Address) (d : Byte) (os : List PhaseOutcome), s.acceptsBus → s.twm.seq = 0#3 →
    (∃ t, exec (.wrtxn a d) s = .next t ∧ busEffect (envAnswers os t) = busEffect (byHand (handWrite a d) os s)) ∧
    (∃ t, exec (.rdtxn a) s = .next t ∧ busEffect (envAnswers os t) = busEffect (byHand (handRead a) os s))

/-- R151: whatever the scheduler does meanwhile (timer clocks, dispatches, scheduler commands, illegal words), the bus engine
ends as it would on the environment's answers alone. -/
def Obligations.TransactionIndependentOfTicks : Prop :=
  ∀ (es : List Event) (s t : State), (∀ e ∈ es, e.isEnv = true ∨ e.isTick = true) → performAll es s = .next t →
    ∃ u, performAll (es.filter Event.isEnv) s = .next u ∧ u.twm = t.twm

/-- R193: a phase the environment never completes leaves the command in progress for ever, whatever else happens. -/
def Obligations.HangLastsUntilAnswerOrReset : Prop :=
  ∀ (es : List Event) (s t : State), s.twm.ready = false → (∀ e ∈ es, e.endsWait = false) →
    performAll es s = .next t → t.twm = s.twm

/-- In states that satisfy the invariant, a bus command ends after at most seven answers, under the device and under the oracle
(R140). -/
def Obligations.BusCommandEndsWithinSevenAnswers : Prop :=
  ∀ s : State, s.Inv →
    (∃ t, devAnswers 7 s = .next t ∧ t.twm.ready = true) ∧
    ∀ (os : List PhaseOutcome) (t : State), 7 ≤ os.length → envAnswers os s = .next t → t.twm.ready = true

/-- R231: after a transaction that ended with `OK`=0, unless `FSTEP`=1 and `STATUS` is not 0x10, the bus is held and `STOP` is
accepted without a fault. -/
def Obligations.RecoveryRecipeNeverFaults : Prop :=
  ∀ (s t u : State) (i : Instr) (os : List PhaseOutcome), (∃ a d, i = .wrtxn a d) ∨ (∃ a, i = .rdtxn a) →
    s.acceptsBus → exec i s = .next t → envAnswers os t = .next u → u.twm.ready = true → u.twm.ok = false →
    ¬ (u.twm.fstep = 1#3 ∧ u.twm.status ≠ 0x10#8) →
    u.twm.ph ≠ .idle ∧ exec .stop u = .next { u with twm := { u.twm with cmdr := 0x200000#24, ready := false } }

/-! ## The tick scheduler -/

/-- R163: `TSETH H`. -/
def Obligations.TsethEffect : Prop :=
  ∀ (s : State) (h : Token), encode (.tseth h) = 0xC0#8 ++ h ∧
    (s.tks.run = true → exec (.tseth h) s = .next (recordFault 5#3 s)) ∧
    (s.tks.run = false → exec (.tseth h) s = .next { s with tks := { s.tks with handler := h, hvalid := true } })

/-- R165: `TSTART`, in every state. -/
def Obligations.TstartEffect : Prop :=
  ∀ s : State, encode .tstart = 0xD00000#24 ∧ exec .tstart s = .next { s with tks := { s.tks with run := true, cnt := 0 } }

/-- R166: `TSTOP`, in every state. -/
def Obligations.TstopEffect : Prop :=
  ∀ s : State, encode .tstop = 0xE00000#24 ∧
    exec .tstop s = .next { s with tks := { s.tks with run := false, pend := false } }

/-- R168: `TRET`; with a tick pending a dispatch is enabled at once. -/
def Obligations.TretEffect : Prop :=
  ∀ s : State, encode .tret = 0xF00000#24 ∧
    (s.tks.insvc = false → exec .tret s = .next (recordFault 6#3 s)) ∧
    (s.tks.insvc = true → ∃ t, exec .tret s = .next t ∧ t = { s with tks := { s.tks with insvc := false } } ∧
      t.context = .main ∧ t.tks.irq = s.tks.pend)

/-- R170 and R171: the timer-clock event and the tick, in states with the count within its bound (R176 (d)); the step takes
the event from the model's agenda (log 1). -/
def Obligations.TimerClockEffect : Prop :=
  ∀ (s : State) (rest : List Event), s.agenda = .timerClock :: rest → s.tks.cnt.toNat ≤ Config.T_TOP.toNat →
    ∃ t, step s = .next t ∧ t.twm = s.twm ∧ t.fault = s.fault ∧ t.dev = s.dev ∧ t.agenda = rest ∧
      t.tks.run = s.tks.run ∧ t.tks.hvalid = s.tks.hvalid ∧ t.tks.handler = s.tks.handler ∧
      t.tks.insvc = s.tks.insvc ∧
      (s.tks.run = false → t.tks = s.tks) ∧
      (s.tks.run = true → s.tks.cnt = Config.T_TOP →
        t.tks.cnt.toNat = 0 ∧ t.tks.pend = (s.tks.pend || s.tks.hvalid)) ∧
      (s.tks.run = true → s.tks.cnt ≠ Config.T_TOP →
        t.tks.cnt.toNat = s.tks.cnt.toNat + 1 ∧ t.tks.pend = s.tks.pend)

/-- R172, R208: dispatch takes the pending tick, saves nothing, and presents the token registered now; with none pending, or a
handler in service, no dispatch occurs. The step takes the event from the model's agenda (log 1, log 2). -/
def Obligations.DispatchEffect : Prop :=
  ∀ (s : State) (rest : List Event), s.agenda = .dispatch :: rest →
    (s.tks.pend = true → s.tks.insvc = false → s.tks.request = some s.tks.handler ∧
      ∃ t, step s = .next t ∧ t = { s with tks := { s.tks with pend := false, insvc := true }, agenda := rest } ∧
        t.context = .handler) ∧
    (s.tks.pend = false ∨ s.tks.insvc = true → s.tks.request = none ∧ step s = .next { s with agenda := rest })

/-- R174 in timer clocks: after `TSTART`, `n` timer clocks leave the count at `n` modulo `T_TOP`+1, and the clock after them
raises a tick exactly when it completes a whole number of periods; with a handler registered the tick is latched. -/
def Obligations.TicksFallOnWholePeriods : Prop :=
  ∀ (s : State) (n : Nat), ∃ t u, exec .tstart s = .next t ∧
    performAll (List.replicate n .timerClock) t = .next u ∧
    u.tks.cnt.toNat = n % (Config.T_TOP.toNat + 1) ∧
    (countClock Config.T_TOP u.tks.cnt).2 = decide ((n + 1) % (Config.T_TOP.toNat + 1) = 0) ∧
    u.tks.pend = (s.tks.pend || (s.tks.hvalid && decide (Config.T_TOP.toNat + 1 ≤ n))) ∧
    u.tks.run = true ∧ u.twm = s.twm ∧ u.dev = s.dev ∧ u.fault = s.fault

/-- R166, R173: once `TSTOP` has executed, no handler run begins until a `TSTART`, whatever else happens. -/
def Obligations.NoHandlerRunAfterStop : Prop :=
  ∀ (es : List Event) (s t u : State), (∀ w, Event.command w ∈ es → decode w ≠ .command .tstart) →
    exec .tstop s = .next t → performAll es t = .next u →
    u.tks.run = false ∧ u.tks.pend = false ∧ (u.tks.insvc = true → s.tks.insvc = true)

/-- R207 (a) and (d): a timer clock and a `TSTOP` in either order leave the scheduler stopped with nothing pending; a dispatch
and a phase completion in either order give the same result. -/
def Obligations.SimultaneousEventsCommute : Prop :=
  (∀ s : State, ∃ t u, andThen (.next (timerClock s)) (exec .tstop) = .next t ∧
    andThen (exec .tstop s) (fun r => .next (timerClock r)) = .next u ∧
    t.tks.run = false ∧ t.tks.pend = false ∧ u.tks.run = false ∧ u.tks.pend = false ∧ t.twm = u.twm ∧ t.dev = u.dev) ∧
  (∀ (s : State) (o : PhaseOutcome),
    andThen (.next (dispatch s)) (envAnswer o) = andThen (envAnswer o s) (fun r => .next (dispatch r)))

/-- The three commands of `REARM h` (R111), by the effects of R166, R163 and R165: from either context and any state, they leave the
scheduler running from the start of a period with the new handler registered. `REARM` is host software (log 19). -/
def Obligations.RearmEffect : Prop :=
  ∀ (s : State) (h : Token), issueAll (rearm h) s = .next { s with tks := { s.tks with
    run := true, hvalid := true, handler := h, pend := false, cnt := 0 } }

/-! ## The bus bytes and the reference device -/

/-- R63: the bytes an access sends, and the two selects differ in bit 0 only. The prefix 0b1010 and the read bit 1 are the defaults
of `SEL_PREFIX` and `RW_READ`, presumed (log 7). -/
def Obligations.SelectBytesOfAddress : Prop :=
  ∀ a : Address,
    selw a = 0b1010#4 ++ a.extractLsb' 8 3 ++ 0#1 ∧ selr a = 0b1010#4 ++ a.extractLsb' 8 3 ++ 1#1 ∧
    alo a = a.extractLsb' 0 8 ∧
    (∀ k, 0 < k → (selr a).getLsbD k = (selw a).getLsbD k) ∧
    (selr a).getLsbD 0 = true ∧ (selw a).getLsbD 0 = false

/-- R85: the net effect of the two transactions under the device, from a free bus, write-busy or not. That `wAddr`, the
model's own field, takes the address is log 14. -/
def Obligations.DeviceTransactionEffect : Prop :=
  ∀ (s : State) (a : Address) (d : Byte), s.acceptsBus → s.twm.ph = .idle →
    (s.dev.wbusy = false →
      ∃ t, exec (.wrtxn a d) s = .next t ∧
        devStatuses 5 t = [0x08#8, 0x18#8, 0x28#8, 0x28#8, Config.ST_AFTER_STOP] ∧
        devAnswers 5 t = .next { s with
          twm := { s.twm with cmdr := encode (.wrtxn a d), ready := true, ok := true, fstep := 0#3, seq := 0#3,
                              status := Config.ST_AFTER_STOP, ph := .idle }
          dev := { s.dev with mem := s.dev.mem.write a d, ptr := a, mode := .didle, latch := d, wbusy := true,
                              wAddr := a } }) ∧
    (s.dev.wbusy = false →
      ∃ t, exec (.rdtxn a) s = .next t ∧
        devStatuses 7 t = [0x08#8, 0x18#8, 0x28#8, 0x10#8, 0x40#8, 0x58#8, Config.ST_AFTER_STOP] ∧
        devAnswers 7 t = .next { s with
          twm := { s.twm with cmdr := encode (.rdtxn a), ready := true, ok := true, fstep := 0#3, seq := 0#3,
                              rxdata := s.dev.mem.read a, status := Config.ST_AFTER_STOP, ph := .idle }
          dev := { s.dev with ptr := a + 1#11, mode := .didle } }) ∧
    (s.dev.wbusy = true → ∀ i, i = .wrtxn a d ∨ i = .rdtxn a →
      ∃ t, exec i s = .next t ∧
        devStatuses 2 t = [0x08#8, Config.ST_SLAW_NACK] ∧
        devAnswers 2 t = .next { s with
          twm := { s.twm with cmdr := encode i, ready := true, ok := false, fstep := 2#3, seq := 0#3,
                              status := Config.ST_SLAW_NACK, ph := .mt }
          dev := { s.dev with mode := .didle } })

/-- R79, R68: the device stores a byte only at a stop with a byte latched, at `P`, and every other byte of it reads as before,
at every answer it gives. The model's choices in it: in the phases for which R84 gives the device no rule, that its bytes and
`WBUSY` stay as they were (log 11); and the model's own field `wAddr`, which takes the address of the byte stored and which no
other answer changes (log 14). -/
def Obligations.DeviceStoresOnlyAtStop : Prop :=
  ∀ s t : State, devAnswer s = .next t →
    (∀ a : Address, ¬ (s.twm.phaseInProgress = some .stopCond ∧ s.dev.mode = .dpend ∧ a = s.dev.ptr) →
      t.dev.mem.read a = s.dev.mem.read a) ∧
    (s.twm.phaseInProgress = some .stopCond → s.dev.mode = .dpend →
      t.dev.mem.read s.dev.ptr = s.dev.latch ∧ t.dev.wbusy = true ∧ t.dev.mode = .didle ∧ t.dev.wAddr = s.dev.ptr) ∧
    (¬ (s.twm.phaseInProgress = some .stopCond ∧ s.dev.mode = .dpend) →
      t.dev.wAddr = s.dev.wAddr ∧ t.dev.wbusy = s.dev.wbusy) ∧
    (s.twm.phaseInProgress = none → t = s)

/-- R86: read-after-write under the device: after a `WRTXN A, D` that ended with `OK`=1 and a settle delay, and any
transactions with no write to `A` among them, a `RDTXN A` that ends with `OK`=1 leaves `RXDATA`=`D`. How the host's software
runs under the device is log 19; that a delay ends a write-busy interval is log 12. -/
def Obligations.ReadAfterWriteUnderDevice : Prop :=
  ∀ (s t u v : State) (a : Address) (d : Byte) (is : List Instr), s.acceptsBus →
    issueUnderDev (.wrtxn a d) s = .next t → t.twm.ok = true →
    (∀ i ∈ is, (∃ b e, i = .wrtxn b e ∧ b ≠ a) ∨ ∃ b, i = .rdtxn b) → issueSpaced is (delay t) = .next u →
    issueUnderDev (.rdtxn a) u = .next v → v.twm.ok = true → v.twm.rxdata = d

/-- R112 to R114 under the device, from a free bus and a device that is not write-busy: `CRED_WRITE` succeeds, `CRED_READ`
then gives back the five bytes in order, and `HAS_CRED` answers true. How the host's software runs is log 19. -/
def Obligations.CredentialWriteThenRead : Prop :=
  ∀ (L : Config.Layout) (c : Credential) (s : State), L.wf → s.acceptsBus → s.twm.ph = .idle → s.dev.wbusy = false →
    ∃ t u v, credWrite L c (List.replicate 6 Slot.ofDev) s = .next (t, .success ()) ∧
      credRead L (List.replicate 5 devAnswersAll) t = .next (u, .success c.bytes) ∧
      hasCred L devAnswersAll u = .next (v, .success true)

/-- R87, the "only if" half, one run of `CRED_WRITE` at a time, under the device with any ticks, handler runs, refusals and
abnormal outcomes meanwhile: a run that fails leaves the flag byte as it was; one that succeeds leaves `EXISTS` there, unless the
last stop ended abnormally and the bus is still held (R152), when the flag byte is as it was; one that is not finished leaves it
as it was or at `EXISTS`. How the host's software runs is log 19; that an answer given in the device's place does not touch the
device is log 9. -/
def Obligations.PresenceFlagOnlyAfterFullWrite : Prop :=
  ∀ (L : Config.Layout) (c : Credential) (slots : List Slot) (s t : State) (r : HostResult Unit), L.wf → s.acceptsBus →
    (∀ x ∈ slots, ∀ e ∈ x.wait ++ x.pause, e.deniesOnly = true) → credWrite L c slots s = .next (t, r) →
    (r = .failure → t.dev.mem.read L.flagAddr = s.dev.mem.read L.flagAddr) ∧
    (r = .success () → t.twm.ph = .idle → t.dev.mem.read L.flagAddr = L.present) ∧
    (r = .success () → t.twm.ph ≠ .idle → t.dev.mem.read L.flagAddr = s.dev.mem.read L.flagAddr) ∧
    (r = .unfinished → t.dev.mem.read L.flagAddr = s.dev.mem.read L.flagAddr ∨ t.dev.mem.read L.flagAddr = L.present)

/-- R80, R110: a `DELAY T_SETTLE` of the main context ends with the device not write-busy; it changes nothing else, and while
the main context does not move (a handler in service, or `READY`=0) it does not end (log 12). The device may also finish by
itself. The step takes the event from the model's agenda (log 1). -/
def Obligations.DelayEndsWriteBusy : Prop :=
  ∀ (s : State) (rest : List Event),
    (s.agenda = .delay :: rest →
      (s.acceptsBus → step s = .next { s with dev := { s.dev with wbusy := false }, agenda := rest }) ∧
      (¬ s.acceptsBus → step s = .next { s with agenda := rest })) ∧
    (s.agenda = .settle :: rest → step s = .next { s with dev := { s.dev with wbusy := false }, agenda := rest })

/-- R112: `CRED_WRITE` stops at the first transaction that fails, whichever of the six it is (`k` writes went well) and whichever
of its verified steps fails (`j` phases went well), with a refusal or an abnormal outcome: the result is failure, no phase
follows, and the device holds the first `k` bytes and is otherwise as it was. How the host's software runs is log 19; that an
answer given in the device's place does not touch the device is log 9. -/
def Obligations.CredWriteStopsAtEachFailure : Prop :=
  ∀ (L : Config.Layout) (c : Credential) (s : State) (k j : Nat) (o : PhaseOutcome), s.acceptsBus → s.twm.ph = .idle →
    s.dev.wbusy = false → k ≤ 5 → j ≤ 3 → (o = .nack ∧ 1 ≤ j) ∨ (∃ x, o = .abnormal x ∧ x ∉ Config.SIX) →
    ∃ t, credWrite L c (List.replicate k Slot.ofDev ++ [⟨List.replicate j .dev ++ [.env o], []⟩]) s = .next (t, .failure) ∧
      t.twm.ready = true ∧ t.twm.ok = false ∧ t.twm.fstep.toNat = j + 1 ∧ t.twm.seq = 0#3 ∧
      (∀ x, o = .abnormal x → t.twm.status = x) ∧
      (o = .nack → t.twm.status = if j = 1 then Config.ST_SLAW_NACK else Config.ST_DATA_NACK) ∧
      t.twm.phaseInProgress = none ∧ t.fault = s.fault ∧
      t.dev.mem = ((credWrites L c).take k).foldl (fun m x => m.write x.1 x.2) s.dev.mem

/-- R113: `CRED_READ` stops at the first transaction that fails, whichever of the five it is (`k` reads went well) and whichever of
its verified steps fails (`j` phases went well), with a refusal or an abnormal outcome: the result is failure, no phase follows,
and every byte of the device is as it was. How the host's software runs is log 19; that an answer given in the device's place
does not touch the device is log 9. -/
def Obligations.CredReadStopsAtEachFailure : Prop :=
  ∀ (L : Config.Layout) (s : State) (k j : Nat) (o : PhaseOutcome), s.acceptsBus → s.twm.ph = .idle →
    s.dev.wbusy = false → k ≤ 4 → j ≤ 5 →
    (o = .nack ∧ (j = 1 ∨ j = 2 ∨ j = 4)) ∨ (∃ x, o = .abnormal x ∧ x ∉ Config.SIX) →
    ∃ t, credRead L (List.replicate k devAnswersAll ++ [List.replicate j .dev ++ [.env o]]) s = .next (t, .failure) ∧
      t.twm.ready = true ∧ t.twm.ok = false ∧ t.twm.fstep.toNat = j + 1 ∧ t.twm.seq = 0#3 ∧
      (∀ x, o = .abnormal x → t.twm.status = x) ∧
      (o = .nack → t.twm.status = if j = 1 then Config.ST_SLAW_NACK else if j = 2 then Config.ST_DATA_NACK
        else Config.ST_SLAR_NACK) ∧
      t.twm.phaseInProgress = none ∧ t.fault = s.fault ∧ t.dev.mem = s.dev.mem

/-- R114: under the device, from a free bus and a device that is not write-busy, `HAS_CRED` answers whether the flag byte is
`EXISTS`, and stores nothing. How the host's software runs is log 19. -/
def Obligations.HasCredComparesFlag : Prop :=
  ∀ (L : Config.Layout) (s : State), s.acceptsBus → s.twm.ph = .idle → s.dev.wbusy = false →
    ∃ t, hasCred L devAnswersAll s = .next (t, .success (s.dev.mem.read L.flagAddr == L.present)) ∧ t.dev.mem = s.dev.mem
end

