-- ==== Sys2Proof/Laws/Config.lean ====
section
/-! SUPPORT. The open status codes lie outside `SIX` (spec 00_scope.md R8, decision D5), and their numbering misses no byte. -/

namespace Sys2Proof.Config

theorem skipOver_lt {c n m : Nat} (h : n < m) : skipOver c n < m + 1 := by
  unfold skipOver; split <;> omega

theorem outsideSix_toNat (i : Fin 250) : (outsideSix i).toNat =
    skipOver 0x58 (skipOver 0x40 (skipOver 0x28 (skipOver 0x18 (skipOver 0x10 (skipOver 0x08 i.val))))) := by
  have h := skipOver_lt (c := 0x58) (skipOver_lt (c := 0x40) (skipOver_lt (c := 0x28) (skipOver_lt (c := 0x18)
    (skipOver_lt (c := 0x10) (skipOver_lt (c := 0x08) i.isLt)))))
  simp only [outsideSix, BitVec.toNat_ofNat]
  omega

theorem skipOver_ne (c n : Nat) : skipOver c n ≠ c := by
  unfold skipOver; split <;> omega

theorem skipOver_keeps {c n d : Nat} (hd : d < c) (h : n ≠ d) : skipOver c n ≠ d := by
  unfold skipOver; split <;> omega

theorem skipOver_below {c n : Nat} (h : n < c) : skipOver c n = n := by
  unfold skipOver; split <;> omega

theorem skipOver_above {c n : Nat} (h : c ≤ n) : skipOver c n = n + 1 := by
  unfold skipOver; split <;> omega

theorem outsideSix_not_mem (i : Fin 250) : outsideSix i ∉ SIX := by
  have key : ∀ e ∈ SIX, (outsideSix i).toNat ≠ e.toNat := by
    rw [outsideSix_toNat]
    intro e he
    simp only [SIX, List.mem_cons, List.not_mem_nil, or_false] at he
    rcases he with rfl | rfl | rfl | rfl | rfl | rfl
    · exact skipOver_keeps (by decide) (skipOver_keeps (by decide) (skipOver_keeps (by decide)
        (skipOver_keeps (by decide) (skipOver_keeps (by decide) (skipOver_ne 0x08 _)))))
    · exact skipOver_keeps (by decide) (skipOver_keeps (by decide) (skipOver_keeps (by decide)
        (skipOver_keeps (by decide) (skipOver_ne 0x10 _))))
    · exact skipOver_keeps (by decide) (skipOver_keeps (by decide) (skipOver_keeps (by decide) (skipOver_ne 0x18 _)))
    · exact skipOver_keeps (by decide) (skipOver_keeps (by decide) (skipOver_ne 0x28 _))
    · exact skipOver_keeps (by decide) (skipOver_ne 0x40 _)
    · exact skipOver_ne 0x58 _
  exact fun hm => key _ hm rfl

/-- Every byte outside `SIX` is one that an index can name: the numbering leaves no value out. -/
theorem outsideSix_onto (c : Byte) (h : c ∉ SIX) : ∃ i, outsideSix i = c := by
  have hn := c.isLt
  have hne : ∀ e ∈ SIX, c.toNat ≠ e.toNat := fun e he heq => h (BitVec.eq_of_toNat_eq heq ▸ he)
  have h1 : c.toNat ≠ 0x08 := hne ST_START (by decide)
  have h2 : c.toNat ≠ 0x10 := hne ST_RSTART (by decide)
  have h3 : c.toNat ≠ 0x18 := hne ST_SLAW_ACK (by decide)
  have h4 : c.toNat ≠ 0x28 := hne ST_DATA_ACK (by decide)
  have h5 : c.toNat ≠ 0x40 := hne ST_SLAR_ACK (by decide)
  have h6 : c.toNat ≠ 0x58 := hne ST_RX_NACK (by decide)
  clear hne h
  have key : ∀ k, k < 250 → skipOver 0x58 (skipOver 0x40 (skipOver 0x28 (skipOver 0x18 (skipOver 0x10
      (skipOver 0x08 k))))) = c.toNat → ∃ i, outsideSix i = c := fun k hk e =>
    ⟨⟨k, hk⟩, BitVec.eq_of_toNat_eq (by rw [outsideSix_toNat]; exact e)⟩
  by_cases g1 : c.toNat < 0x08
  · exact key c.toNat (by omega) (by simp (disch := omega) only [skipOver_below])
  by_cases g2 : c.toNat < 0x10
  · exact key (c.toNat - 1) (by omega) (by simp (disch := omega) only [skipOver_below, skipOver_above]; omega)
  by_cases g3 : c.toNat < 0x18
  · exact key (c.toNat - 2) (by omega) (by simp (disch := omega) only [skipOver_below, skipOver_above]; omega)
  by_cases g4 : c.toNat < 0x28
  · exact key (c.toNat - 3) (by omega) (by simp (disch := omega) only [skipOver_below, skipOver_above]; omega)
  by_cases g5 : c.toNat < 0x40
  · exact key (c.toNat - 4) (by omega) (by simp (disch := omega) only [skipOver_below, skipOver_above]; omega)
  by_cases g6 : c.toNat < 0x58
  · exact key (c.toNat - 5) (by omega) (by simp (disch := omega) only [skipOver_below, skipOver_above]; omega)
  · exact key (c.toNat - 6) (by omega) (by simp (disch := omega) only [skipOver_above]; omega)

@[simp] theorem outsideSix_contains (i : Fin 250) : SIX.contains (outsideSix i) = false := by
  simpa using outsideSix_not_mem i

theorem ne_of_not_mem_six {c e : Byte} (hc : c ∉ SIX) (he : e ∈ SIX) : c ≠ e := fun h => hc (h ▸ he)

theorem stSlawNack_not_mem : ST_SLAW_NACK ∉ SIX := outsideSix_not_mem _
theorem stSlarNack_not_mem : ST_SLAR_NACK ∉ SIX := outsideSix_not_mem _
theorem stDataNack_not_mem : ST_DATA_NACK ∉ SIX := outsideSix_not_mem _
theorem stRxAck_not_mem : ST_RX_ACK ∉ SIX := outsideSix_not_mem _
theorem stAfterStop_not_mem : ST_AFTER_STOP ∉ SIX := outsideSix_not_mem _
theorem stReset_not_mem : ST_RESET ∉ SIX := outsideSix_not_mem _

theorem stSlawNack_ne {e : Byte} (he : e ∈ SIX) : ST_SLAW_NACK ≠ e := ne_of_not_mem_six stSlawNack_not_mem he
theorem stSlarNack_ne {e : Byte} (he : e ∈ SIX) : ST_SLAR_NACK ≠ e := ne_of_not_mem_six stSlarNack_not_mem he
theorem stDataNack_ne {e : Byte} (he : e ∈ SIX) : ST_DATA_NACK ≠ e := ne_of_not_mem_six stDataNack_not_mem he

end Sys2Proof.Config
end

