-- ==== Sys2Proof/Laws/Encoding.lean ====
section
/-! SUPPORT. The fields of an encoded command, and the phases it stands for. -/

namespace Sys2Proof

/-- Bits `lo` and up of `hi ++ low` are bits of `hi`, when `low` is no wider than `lo`. -/
theorem extract_append_high {m n : Nat} (x : BitVec m) (y : BitVec n) (lo len : Nat) (h : n ≤ lo) :
    (x ++ y).extractLsb' lo len = x.extractLsb' (lo - n) len := by
  ext i hi
  simp [BitVec.getElem_extractLsb', BitVec.getLsbD_append, show ¬ lo + i < n by omega,
    show lo + i - n = lo - n + i by omega]

/-- Bits of `hi ++ low` below the width of `low` are bits of `low`. -/
theorem extract_append_low {m n : Nat} (x : BitVec m) (y : BitVec n) (lo len : Nat) (h : lo + len ≤ n) :
    (x ++ y).extractLsb' lo len = y.extractLsb' lo len := by
  ext i hi
  simp [BitVec.getElem_extractLsb', BitVec.getLsbD_append, show lo + i < n by omega]

theorem extract_all {n : Nat} (x : BitVec n) : x.extractLsb' 0 n = x := by
  ext i hi
  simp

/-- A word is its high part before its low part. -/
theorem extract_split {m n : Nat} (x : BitVec (m + n)) : x.extractLsb' n m ++ x.extractLsb' 0 n = x := by
  ext i hi
  simp

@[simp] theorem opField_wrtxn (a : Address) (d : Byte) : opField (encode (.wrtxn a d)) = 0x8#4 := by
  simp only [opField, encode, extract_append_high _ _ 20 4 (show 8 ≤ 20 by omega),
    extract_append_high _ _ (20 - 8) 4 (show 11 ≤ 20 - 8 by omega)]
  rfl

@[simp] theorem opField_rdtxn (a : Address) : opField (encode (.rdtxn a)) = 0x9#4 := by
  simp only [opField, encode, extract_append_high _ _ 20 4 (show 8 ≤ 20 by omega),
    extract_append_high _ _ (20 - 8) 4 (show 11 ≤ 20 - 8 by omega)]
  rfl

@[simp] theorem opField_writeb (d : Byte) : opField (encode (.writeb d)) = 0x3#4 := by
  simp only [opField, encode, extract_append_high _ _ 20 4 (show 8 ≤ 20 by omega)]
  rfl

@[simp] theorem opField_tseth (h : Token) : opField (encode (.tseth h)) = 0xC#4 := by
  simp only [opField, encode, extract_append_high _ _ 20 4 (show 16 ≤ 20 by omega)]
  rfl

@[simp] theorem addrField_wrtxn (a : Address) (d : Byte) : addrField (encode (.wrtxn a d)) = a := by
  simp only [addrField, encode, extract_append_high _ _ 8 11 (Nat.le_refl 8), Nat.sub_self,
    extract_append_low _ _ 0 11 (show 0 + 11 ≤ 11 by omega), extract_all]

@[simp] theorem addrField_rdtxn (a : Address) : addrField (encode (.rdtxn a)) = a := by
  simp only [addrField, encode, extract_append_high _ _ 8 11 (Nat.le_refl 8), Nat.sub_self,
    extract_append_low _ _ 0 11 (show 0 + 11 ≤ 11 by omega), extract_all]

@[simp] theorem dataField_wrtxn (a : Address) (d : Byte) : dataField (encode (.wrtxn a d)) = d := by
  simp only [dataField, encode, extract_append_low _ _ 0 8 (show 0 + 8 ≤ 8 by omega), extract_all]

@[simp] theorem dataField_writeb (d : Byte) : dataField (encode (.writeb d)) = d := by
  simp only [dataField, encode, extract_append_low _ _ 0 8 (show 0 + 8 ≤ 8 by omega), extract_all]

@[simp] theorem handlerField_tseth (h : Token) : handlerField (encode (.tseth h)) = h := by
  simp only [handlerField, encode, extract_append_low _ _ 0 16 (show 0 + 16 ≤ 16 by omega), extract_all]

/-! ## What the decoder can answer -/

/-- The decoder's rows for the word `w`: `OP`, mask, match, and the command with the operands taken from `w` (R94, R95). -/
def decodeRows (w : CommandWord) : List (BitVec 4 × CommandWord × CommandWord × Instr) := [
  (0x1#4, 0xFFFFFF#24, 0x100000#24, .start),
  (0x2#4, 0xFFFFFF#24, 0x200000#24, .stop),
  (0x3#4, 0xFFFF00#24, 0x300000#24, .writeb (dataField w)),
  (0x4#4, 0xFFFFFF#24, 0x400000#24, .rdack),
  (0x5#4, 0xFFFFFF#24, 0x500000#24, .rdnack),
  (0x6#4, 0xFFFFFF#24, 0x600000#24, .status),
  (0x8#4, 0xF80000#24, 0x800000#24, .wrtxn (addrField w) (dataField w)),
  (0x9#4, 0xF800FF#24, 0x900000#24, .rdtxn (addrField w)),
  (0xC#4, 0xFF0000#24, 0xC00000#24, .tseth (handlerField w)),
  (0xD#4, 0xFFFFFF#24, 0xD00000#24, .tstart),
  (0xE#4, 0xFFFFFF#24, 0xE00000#24, .tstop),
  (0xF#4, 0xFFFFFF#24, 0xF00000#24, .tret)]

/-- Take the first row whose `OP` is the word's. -/
def decodeBy (w : CommandWord) : List (BitVec 4 × CommandWord × CommandWord × Instr) → Decoded
  | [] => .illegal .reservedOp
  | (op, rowMask, rowMatch, i) :: rows => if opField w = op then checkZeros w rowMask rowMatch i else decodeBy w rows

theorem decode_eq_decodeBy (w : CommandWord) : decode w = decodeBy w (decodeRows w) := rfl

/-- Everything the row scan can answer. -/
theorem decodeBy_cases (w : CommandWord) (rows : List (BitVec 4 × CommandWord × CommandWord × Instr)) :
    (decodeBy w rows = .illegal .reservedOp ∧ ∀ r ∈ rows, opField w ≠ r.1) ∨
    ∃ r ∈ rows, opField w = r.1 ∧ ((w &&& r.2.1 = r.2.2.1 ∧ decodeBy w rows = .command r.2.2.2) ∨
      (w &&& r.2.1 ≠ r.2.2.1 ∧ decodeBy w rows = .illegal .mustBeZero)) := by
  induction rows with
  | nil => exact .inl ⟨rfl, fun _ h => nomatch h⟩
  | cons r rows ih =>
    obtain ⟨op, m, v, i⟩ := r
    by_cases h : opField w = op
    · refine .inr ⟨_, List.mem_cons_self, h, ?_⟩
      by_cases hm : w &&& m = v
      · exact .inl ⟨hm, by simp [decodeBy, h, checkZeros, hm]⟩
      · exact .inr ⟨hm, by simp [decodeBy, h, checkZeros, hm]⟩
    · have hd : decodeBy w ((op, m, v, i) :: rows) = decodeBy w rows := by simp [decodeBy, h]
      rw [hd]
      rcases ih with ⟨e, hn⟩ | ⟨r, hr, ho, hc⟩
      · exact .inl ⟨e, fun r hr => (List.mem_cons.1 hr).elim (fun e => e ▸ h) (hn r)⟩
      · exact .inr ⟨r, List.mem_cons_of_mem _ hr, ho, hc⟩

/-- Everything the decoder can answer (R95, R97). -/
theorem decode_cases (w : CommandWord) :
    (decode w = .illegal .reservedOp ∧ ∀ r ∈ decodeRows w, opField w ≠ r.1) ∨
    ∃ r ∈ decodeRows w, opField w = r.1 ∧ ((w &&& r.2.1 = r.2.2.1 ∧ decode w = .command r.2.2.2) ∨
      (w &&& r.2.1 ≠ r.2.2.1 ∧ decode w = .illegal .mustBeZero)) :=
  decodeBy_cases w (decodeRows w)

namespace Machine

@[simp] theorem txnSteps_wrtxn (a : Address) (d : Byte) : txnSteps (encode (.wrtxn a d)) = writeSteps a d := by
  simp [txnSteps]

@[simp] theorem txnSteps_rdtxn (a : Address) : txnSteps (encode (.rdtxn a)) = readSteps a := by
  simp [txnSteps]

@[simp] theorem primitivePhase_start : primitivePhase (encode .start) = some .startCond := by decide
@[simp] theorem primitivePhase_stop : primitivePhase (encode .stop) = some .stopCond := by decide
@[simp] theorem primitivePhase_writeb (d : Byte) : primitivePhase (encode (.writeb d)) = some (.byteOut d) := by
  simp [primitivePhase]
@[simp] theorem primitivePhase_rdack : primitivePhase (encode .rdack) = some (.byteIn .ack) := by decide
@[simp] theorem primitivePhase_rdnack : primitivePhase (encode .rdnack) = some (.byteIn .nack) := by decide

end Machine

end Sys2Proof
end

