-- ==== Sys2Proof/Laws/Memory.lean ====
section
/-! SUPPORT. The device's bytes: a read after a write, and the canonical form is kept by every memory operation. -/

namespace Sys2Proof.Machine

theorem Memory.lookup_insert_same (m : Memory) (a : Nat) (v : Byte) : (m.insert a v).lookup a = some v := by
  induction m with
  | nil => simp [Memory.insert, Memory.lookup]
  | cons c m ih =>
    obtain ⟨b, u⟩ := c
    rcases Nat.lt_trichotomy a b with h | h | h
    · simp [Memory.insert, h, Memory.lookup]
    · simp [Memory.insert, h, Memory.lookup]
    · simp [Memory.insert, Nat.not_lt_of_gt h, Nat.ne_of_gt h, Memory.lookup, ih]

theorem Memory.lookup_insert_other (m : Memory) (a b : Nat) (v : Byte) (h : b ≠ a) :
    (m.insert a v).lookup b = m.lookup b := by
  induction m with
  | nil => simp [Memory.insert, Memory.lookup, h]
  | cons c m ih =>
    obtain ⟨e, u⟩ := c
    rcases Nat.lt_trichotomy a e with g | g | g
    · simp [Memory.insert, g, Memory.lookup, h]
    · subst g; simp [Memory.insert, Memory.lookup, h]
    · simp [Memory.insert, Nat.not_lt_of_gt g, Nat.ne_of_gt g, Memory.lookup, ih]

theorem Memory.mem_insert {m : Memory} {a : Nat} {v : Byte} {c : Host.Cell} (h : c ∈ m.insert a v) :
    c = (a, v) ∨ c ∈ m := by
  induction m with
  | nil => simpa [Memory.insert] using h
  | cons d m ih =>
    obtain ⟨e, u⟩ := d
    simp only [Memory.insert] at h
    split at h
    · simpa using h
    · split at h
      · rcases List.mem_cons.1 h with h | h
        · exact .inl h
        · exact .inr (List.mem_cons_of_mem _ h)
      · rcases List.mem_cons.1 h with h | h
        · exact .inr (h ▸ List.mem_cons_self)
        · exact (ih h).imp id (List.mem_cons_of_mem _)

/-- Inserting keeps the canonical form. -/
theorem Memory.wf_insert {m : Memory} {a : Nat} (v : Byte) (ha : a < 2048) (h : m.wf) : (m.insert a v).wf := by
  refine ⟨?_, fun c hc => (Memory.mem_insert hc).elim (fun e => e ▸ ha) (h.2 c)⟩
  obtain ⟨h, -⟩ := h
  induction m with
  | nil => simp [Memory.insert]
  | cons d m ih =>
    obtain ⟨e, u⟩ := d
    obtain ⟨hd, hm⟩ := List.pairwise_cons.1 h
    simp only [Memory.insert]
    split
    · next g =>
      refine List.pairwise_cons.2 ⟨fun c hc => ?_, h⟩
      rcases List.mem_cons.1 hc with rfl | hc
      · exact g
      · exact Nat.lt_trans g (hd c hc)
    · split
      · next g => exact List.pairwise_cons.2 ⟨fun c hc => g ▸ hd c hc, hm⟩
      · next g g' =>
        refine List.pairwise_cons.2 ⟨fun c hc => ?_, ih hm⟩
        rcases Memory.mem_insert hc with rfl | hc
        · exact Nat.lt_of_le_of_ne (Nat.le_of_not_lt g) (Ne.symm g')
        · exact hd c hc

theorem Memory.wf_write {m : Memory} (a : Address) (v : Byte) (h : m.wf) : (m.write a v).wf :=
  Memory.wf_insert v a.isLt h

/-- A read after a write to the same address gives the value written (R76, R79). -/
@[simp] theorem Memory.read_write_same (m : Memory) (a : Address) (v : Byte) : (m.write a v).read a = v := by
  simp [Memory.read, Memory.write, Memory.lookup_insert_same]

/-- A write leaves every other address alone (R79). -/
theorem Memory.read_write_other (m : Memory) (a b : Address) (v : Byte) (h : b ≠ a) :
    (m.write a v).read b = m.read b := by
  have h' : b.toNat ≠ a.toNat := fun e => h (BitVec.eq_of_toNat_eq e)
  simp [Memory.read, Memory.write, Memory.lookup_insert_other _ _ _ _ h']

/-- What a phase does to the device's bytes: only a stop with a latched byte stores one (R68, R79). -/
theorem Dev.respond_mem (x : Phase) (ph : PH) (d : Dev) (n : Nat) :
    (d.respond x ph n).dev.mem = if x = .stopCond ∧ d.mode = .dpend then d.mem.write d.ptr d.latch else d.mem := by
  cases x with
  | startCond => simp [Dev.respond, Dev.onStart]
  | stopCond => by_cases h : d.mode = .dpend <;> simp [Dev.respond, Dev.onStop, h]
  | byteOut b =>
    simp only [Dev.respond, Dev.onByteOut]
    split
    · split <;> simp [Dev.onSelect]
    · cases h : d.mode <;> simp [Dev.onLowAddress, Dev.onData, Dev.unruledByteOut]
  | byteIn k => cases h : d.mode <;> simp [Dev.respond, Dev.onByteIn, h, Dev.onRead, Dev.unruledByteIn]

/-- Every answer of the device keeps the canonical form. -/
theorem Dev.respond_wf (x : Phase) (ph : PH) {d : Dev} (n : Nat) (h : d.mem.wf) : (d.respond x ph n).dev.mem.wf := by
  rw [Dev.respond_mem]
  split
  · exact Memory.wf_write _ _ h
  · exact h

theorem Dev.powerCycle_wf {d : Dev} (n : Nat) (h : d.mem.wf) : (d.powerCycle n).mem.wf := by
  simp only [Dev.powerCycle]
  split
  · exact Memory.wf_write _ _ h
  · exact h

theorem reset_memory_wf : State.reset.dev.mem.wf := ⟨List.Pairwise.nil, fun _ h => nomatch h⟩

/-- The device always gives an answer the phase admits (R121, R84). -/
theorem Dev.respond_admitted (x : Phase) (ph : PH) (d : Dev) (n : Nat) : x.admits (d.respond x ph n).outcome = true := by
  cases x with
  | startCond => rfl
  | stopCond => rfl
  | byteOut b =>
    simp only [Dev.respond, Dev.onByteOut]
    split
    · split <;> rfl
    · cases d.mode <;> simp only [Phase.admits, Dev.unruledByteOut]
      all_goals cases Config.freeByteOut n <;> simp [byteOutDraw, Config.outsideSix_not_mem]
  | byteIn k =>
    cases h : d.mode <;> simp only [Dev.respond, Dev.onByteIn, h, Dev.unruledByteIn]
    case dread => rfl
    all_goals cases Config.freeByteIn n <;> simp [byteInDraw, Phase.admits, Config.outsideSix_not_mem]

end Sys2Proof.Machine
end

