-- ==== Sys2Proof/Laws/State.lean ====
section
/-! SUPPORT. What each register update leaves and writes, field by field, so that no proof unfolds a record update. -/

namespace Sys2Proof.Machine

section Twm
variable (b : Twm) (w : CommandWord) (n : BitVec 3) (x : Phase) (o : PhaseOutcome)

@[simp] theorem Twm_accept_ready : (b.accept w).ready = false := rfl
@[simp] theorem Twm_accept_ok : (b.accept w).ok = b.ok := rfl
@[simp] theorem Twm_accept_fstep : (b.accept w).fstep = b.fstep := rfl
@[simp] theorem Twm_accept_status : (b.accept w).status = b.status := rfl
@[simp] theorem Twm_accept_rxdata : (b.accept w).rxdata = b.rxdata := rfl
@[simp] theorem Twm_accept_ph : (b.accept w).ph = b.ph := rfl
@[simp] theorem Twm_accept_seq : (b.accept w).seq = b.seq := rfl
@[simp] theorem Twm_accept_cmdr : (b.accept w).cmdr = w := rfl

@[simp] theorem Twm_acceptTxn_ready : (b.acceptTxn w).ready = false := rfl
@[simp] theorem Twm_acceptTxn_ok : (b.acceptTxn w).ok = false := rfl
@[simp] theorem Twm_acceptTxn_fstep : (b.acceptTxn w).fstep = 0#3 := rfl
@[simp] theorem Twm_acceptTxn_status : (b.acceptTxn w).status = b.status := rfl
@[simp] theorem Twm_acceptTxn_rxdata : (b.acceptTxn w).rxdata = b.rxdata := rfl
@[simp] theorem Twm_acceptTxn_ph : (b.acceptTxn w).ph = b.ph := rfl
@[simp] theorem Twm_acceptTxn_seq : (b.acceptTxn w).seq = 1#3 := rfl
@[simp] theorem Twm_acceptTxn_cmdr : (b.acceptTxn w).cmdr = w := rfl

@[simp] theorem Twm_complete_ready : (b.complete).ready = true := rfl
@[simp] theorem Twm_complete_ok : (b.complete).ok = b.ok := rfl
@[simp] theorem Twm_complete_fstep : (b.complete).fstep = b.fstep := rfl
@[simp] theorem Twm_complete_status : (b.complete).status = b.status := rfl
@[simp] theorem Twm_complete_rxdata : (b.complete).rxdata = b.rxdata := rfl
@[simp] theorem Twm_complete_ph : (b.complete).ph = b.ph := rfl
@[simp] theorem Twm_complete_seq : (b.complete).seq = 0#3 := rfl
@[simp] theorem Twm_complete_cmdr : (b.complete).cmdr = b.cmdr := rfl

@[simp] theorem Twm_succeed_ready : (b.succeed).ready = true := rfl
@[simp] theorem Twm_succeed_ok : (b.succeed).ok = true := rfl
@[simp] theorem Twm_succeed_fstep : (b.succeed).fstep = b.fstep := rfl
@[simp] theorem Twm_succeed_status : (b.succeed).status = b.status := rfl
@[simp] theorem Twm_succeed_rxdata : (b.succeed).rxdata = b.rxdata := rfl
@[simp] theorem Twm_succeed_ph : (b.succeed).ph = b.ph := rfl
@[simp] theorem Twm_succeed_seq : (b.succeed).seq = 0#3 := rfl
@[simp] theorem Twm_succeed_cmdr : (b.succeed).cmdr = b.cmdr := rfl

@[simp] theorem Twm_fail_ready : (b.fail n).ready = true := rfl
@[simp] theorem Twm_fail_ok : (b.fail n).ok = false := rfl
@[simp] theorem Twm_fail_fstep : (b.fail n).fstep = n := rfl
@[simp] theorem Twm_fail_status : (b.fail n).status = b.status := rfl
@[simp] theorem Twm_fail_rxdata : (b.fail n).rxdata = b.rxdata := rfl
@[simp] theorem Twm_fail_ph : (b.fail n).ph = b.ph := rfl
@[simp] theorem Twm_fail_seq : (b.fail n).seq = 0#3 := rfl
@[simp] theorem Twm_fail_cmdr : (b.fail n).cmdr = b.cmdr := rfl

@[simp] theorem Twm_nextStep_ready : (b.nextStep).ready = b.ready := rfl
@[simp] theorem Twm_nextStep_ok : (b.nextStep).ok = b.ok := rfl
@[simp] theorem Twm_nextStep_fstep : (b.nextStep).fstep = b.fstep := rfl
@[simp] theorem Twm_nextStep_status : (b.nextStep).status = b.status := rfl
@[simp] theorem Twm_nextStep_rxdata : (b.nextStep).rxdata = b.rxdata := rfl
@[simp] theorem Twm_nextStep_ph : (b.nextStep).ph = b.ph := rfl
@[simp] theorem Twm_nextStep_seq : (b.nextStep).seq = b.seq + 1#3 := rfl
@[simp] theorem Twm_nextStep_cmdr : (b.nextStep).cmdr = b.cmdr := rfl

@[simp] theorem Twm_record_ready : (b.record x o).ready = b.ready := rfl
@[simp] theorem Twm_record_ok : (b.record x o).ok = b.ok := rfl
@[simp] theorem Twm_record_fstep : (b.record x o).fstep = b.fstep := rfl
@[simp] theorem Twm_record_status : (b.record x o).status = statusAfter x b.ph o := rfl
@[simp] theorem Twm_record_rxdata : (b.record x o).rxdata = rxdataAfter x o b.rxdata := rfl
@[simp] theorem Twm_record_ph : (b.record x o).ph = phAfter x b.ph o := rfl
@[simp] theorem Twm_record_seq : (b.record x o).seq = b.seq := rfl
@[simp] theorem Twm_record_cmdr : (b.record x o).cmdr = b.cmdr := rfl

end Twm

section Tks
variable (t : Tks) (h : Token)

@[simp] theorem Tks_enterHandler_run : (t.enterHandler).run = t.run := rfl
@[simp] theorem Tks_enterHandler_hvalid : (t.enterHandler).hvalid = t.hvalid := rfl
@[simp] theorem Tks_enterHandler_handler : (t.enterHandler).handler = t.handler := rfl
@[simp] theorem Tks_enterHandler_pend : (t.enterHandler).pend = false := rfl
@[simp] theorem Tks_enterHandler_insvc : (t.enterHandler).insvc = true := rfl
@[simp] theorem Tks_enterHandler_cnt : (t.enterHandler).cnt = t.cnt := rfl

@[simp] theorem Tks_leaveHandler_run : (t.leaveHandler).run = t.run := rfl
@[simp] theorem Tks_leaveHandler_hvalid : (t.leaveHandler).hvalid = t.hvalid := rfl
@[simp] theorem Tks_leaveHandler_handler : (t.leaveHandler).handler = t.handler := rfl
@[simp] theorem Tks_leaveHandler_pend : (t.leaveHandler).pend = t.pend := rfl
@[simp] theorem Tks_leaveHandler_insvc : (t.leaveHandler).insvc = false := rfl
@[simp] theorem Tks_leaveHandler_cnt : (t.leaveHandler).cnt = t.cnt := rfl

@[simp] theorem Tks_register_run : (t.register h).run = t.run := rfl
@[simp] theorem Tks_register_hvalid : (t.register h).hvalid = true := rfl
@[simp] theorem Tks_register_handler : (t.register h).handler = h := rfl
@[simp] theorem Tks_register_pend : (t.register h).pend = t.pend := rfl
@[simp] theorem Tks_register_insvc : (t.register h).insvc = t.insvc := rfl
@[simp] theorem Tks_register_cnt : (t.register h).cnt = t.cnt := rfl

@[simp] theorem Tks_start_run : (t.start).run = true := rfl
@[simp] theorem Tks_start_hvalid : (t.start).hvalid = t.hvalid := rfl
@[simp] theorem Tks_start_handler : (t.start).handler = t.handler := rfl
@[simp] theorem Tks_start_pend : (t.start).pend = t.pend := rfl
@[simp] theorem Tks_start_insvc : (t.start).insvc = t.insvc := rfl
@[simp] theorem Tks_start_cnt : (t.start).cnt = 0 := rfl

@[simp] theorem Tks_stop_run : (t.stop).run = false := rfl
@[simp] theorem Tks_stop_hvalid : (t.stop).hvalid = t.hvalid := rfl
@[simp] theorem Tks_stop_handler : (t.stop).handler = t.handler := rfl
@[simp] theorem Tks_stop_pend : (t.stop).pend = false := rfl
@[simp] theorem Tks_stop_insvc : (t.stop).insvc = t.insvc := rfl
@[simp] theorem Tks_stop_cnt : (t.stop).cnt = t.cnt := rfl

end Tks

section Dev
variable (d : Dev) (b : Byte) (k : AckBit)

@[simp] theorem Dev_onStart_mem : (d.onStart).mem = d.mem := rfl
@[simp] theorem Dev_onStart_ptr : (d.onStart).ptr = d.ptr := rfl
@[simp] theorem Dev_onStart_mode : (d.onStart).mode = .didle := rfl
@[simp] theorem Dev_onStart_latch : (d.onStart).latch = d.latch := rfl
@[simp] theorem Dev_onStart_wbusy : (d.onStart).wbusy = d.wbusy := rfl
@[simp] theorem Dev_onStart_wAddr : (d.onStart).wAddr = d.wAddr := rfl

@[simp] theorem Dev_onSelect_mem : (d.onSelect b).mem = d.mem := rfl
@[simp] theorem Dev_onSelect_ptr : (d.onSelect b).ptr = b.extractLsb' 1 3 ++ d.ptr.extractLsb' 0 8 := rfl
@[simp] theorem Dev_onSelect_mode : (d.onSelect b).mode = if hasReadBit b then .dread else .daddr := rfl
@[simp] theorem Dev_onSelect_latch : (d.onSelect b).latch = d.latch := rfl
@[simp] theorem Dev_onSelect_wbusy : (d.onSelect b).wbusy = d.wbusy := rfl
@[simp] theorem Dev_onSelect_wAddr : (d.onSelect b).wAddr = d.wAddr := rfl

@[simp] theorem Dev_onLowAddress_mem : (d.onLowAddress b).mem = d.mem := rfl
@[simp] theorem Dev_onLowAddress_ptr : (d.onLowAddress b).ptr = d.ptr.extractLsb' 8 3 ++ b := rfl
@[simp] theorem Dev_onLowAddress_mode : (d.onLowAddress b).mode = .ddata := rfl
@[simp] theorem Dev_onLowAddress_latch : (d.onLowAddress b).latch = d.latch := rfl
@[simp] theorem Dev_onLowAddress_wbusy : (d.onLowAddress b).wbusy = d.wbusy := rfl
@[simp] theorem Dev_onLowAddress_wAddr : (d.onLowAddress b).wAddr = d.wAddr := rfl

@[simp] theorem Dev_onData_mem : (d.onData b).mem = d.mem := rfl
@[simp] theorem Dev_onData_ptr : (d.onData b).ptr = d.ptr := rfl
@[simp] theorem Dev_onData_mode : (d.onData b).mode = .dpend := rfl
@[simp] theorem Dev_onData_latch : (d.onData b).latch = b := rfl
@[simp] theorem Dev_onData_wbusy : (d.onData b).wbusy = d.wbusy := rfl
@[simp] theorem Dev_onData_wAddr : (d.onData b).wAddr = d.wAddr := rfl

@[simp] theorem Dev_onRead_mem : (d.onRead k).mem = d.mem := rfl
@[simp] theorem Dev_onRead_ptr : (d.onRead k).ptr = d.ptr + 1#11 := rfl
@[simp] theorem Dev_onRead_latch : (d.onRead k).latch = d.latch := rfl
@[simp] theorem Dev_onRead_wbusy : (d.onRead k).wbusy = d.wbusy := rfl
@[simp] theorem Dev_onRead_wAddr : (d.onRead k).wAddr = d.wAddr := rfl

end Dev

section State
variable (s : State) (c : Cause)

@[simp] theorem State_raise_twm : (s.raise c).twm = s.twm := rfl
@[simp] theorem State_raise_tks : (s.raise c).tks = s.tks := rfl
@[simp] theorem State_raise_fault : (s.raise c).fault = if s.fault = 0#3 then c.code else s.fault := rfl
@[simp] theorem State_raise_dev : (s.raise c).dev = s.dev := rfl
@[simp] theorem State_raise_draws : (s.raise c).draws = s.draws := rfl
@[simp] theorem State_raise_agenda : (s.raise c).agenda = s.agenda := rfl

@[simp] theorem timerClock_twm : (timerClock s).twm = s.twm := rfl
@[simp] theorem timerClock_tks : (timerClock s).tks = s.tks.clock := rfl
@[simp] theorem timerClock_fault : (timerClock s).fault = s.fault := rfl
@[simp] theorem timerClock_dev : (timerClock s).dev = s.dev := rfl
@[simp] theorem timerClock_draws : (timerClock s).draws = s.draws := rfl
@[simp] theorem timerClock_agenda : (timerClock s).agenda = s.agenda := rfl

@[simp] theorem dispatch_twm : (dispatch s).twm = s.twm := rfl
@[simp] theorem dispatch_tks : (dispatch s).tks = s.tks.dispatch := rfl
@[simp] theorem dispatch_fault : (dispatch s).fault = s.fault := rfl
@[simp] theorem dispatch_dev : (dispatch s).dev = s.dev := rfl
@[simp] theorem dispatch_draws : (dispatch s).draws = s.draws := rfl
@[simp] theorem dispatch_agenda : (dispatch s).agenda = s.agenda := rfl

@[simp] theorem settle_twm : (settle s).twm = s.twm := rfl
@[simp] theorem settle_tks : (settle s).tks = s.tks := rfl
@[simp] theorem settle_fault : (settle s).fault = s.fault := rfl
@[simp] theorem settle_draws : (settle s).draws = s.draws := rfl
@[simp] theorem settle_agenda : (settle s).agenda = s.agenda := rfl

@[simp] theorem settle_wbusy : (settle s).dev.wbusy = false := rfl
@[simp] theorem settle_mem : (settle s).dev.mem = s.dev.mem := rfl

@[simp] theorem blockReset_twm : (blockReset s).twm = Twm.atReset s.draws := rfl
@[simp] theorem blockReset_tks : (blockReset s).tks = Tks.atReset s.draws := rfl
@[simp] theorem blockReset_fault : (blockReset s).fault = 0#3 := rfl
@[simp] theorem blockReset_dev : (blockReset s).dev = s.dev := rfl
@[simp] theorem blockReset_draws : (blockReset s).draws = s.draws + 1 := rfl
@[simp] theorem blockReset_agenda : (blockReset s).agenda = s.agenda := rfl

@[simp] theorem powerCycle_twm : (powerCycle s).twm = Twm.atReset s.draws := rfl
@[simp] theorem powerCycle_tks : (powerCycle s).tks = Tks.atReset s.draws := rfl
@[simp] theorem powerCycle_fault : (powerCycle s).fault = 0#3 := rfl
@[simp] theorem powerCycle_dev : (powerCycle s).dev = s.dev.powerCycle s.draws := rfl
@[simp] theorem powerCycle_draws : (powerCycle s).draws = s.draws + 1 := rfl
@[simp] theorem powerCycle_agenda : (powerCycle s).agenda = s.agenda := rfl

end State

end Sys2Proof.Machine
end

