-- ==== Sys2Proof/Laws/Engine.lean ====
section
/-! SUPPORT. What accepting a bus command, and completing a phase, can do: said once, for the proofs to cite. -/

namespace Sys2Proof.Machine

/-! ## The tables, row by row (R30, R31, R121, R129) -/

section Tables
variable (b : Byte) (k : AckBit) (v c : Byte) (p : PH) (x : Phase)

@[simp] theorem allowedIn_start : Phase.startCond.allowedIn p = true := rfl
@[simp] theorem allowedIn_stop : Phase.stopCond.allowedIn p = (p != .idle) := by cases p <;> rfl
@[simp] theorem allowedIn_byteOut : (Phase.byteOut b).allowedIn p = (p == .addr || p == .mt) := by cases p <;> rfl
@[simp] theorem allowedIn_byteIn : (Phase.byteIn k).allowedIn p = (p == .mr) := by cases p <;> rfl

@[simp] theorem admits_abnormal : x.admits (.abnormal c) = !Config.SIX.contains c := by cases x <;> rfl
@[simp] theorem admits_startOk : Phase.startCond.admits .startOk = true := rfl
@[simp] theorem admits_ack : (Phase.byteOut b).admits .ack = true := rfl
@[simp] theorem admits_nack : (Phase.byteOut b).admits .nack = true := rfl
@[simp] theorem admits_byte : (Phase.byteIn k).admits (.byte v) = true := rfl
@[simp] theorem admits_done : Phase.stopCond.admits .done = true := rfl

@[simp] theorem statusAfter_abnormal : statusAfter x p (.abnormal c) = c := by cases x <;> rfl
@[simp] theorem statusAfter_startOk : statusAfter .startCond p .startOk =
    if p = .idle then Config.ST_START else Config.ST_RSTART := rfl
@[simp] theorem statusAfter_ack : statusAfter (.byteOut b) p .ack =
    if p = .addr then (if hasReadBit b then Config.ST_SLAR_ACK else Config.ST_SLAW_ACK) else Config.ST_DATA_ACK := rfl
@[simp] theorem statusAfter_nack : statusAfter (.byteOut b) p .nack =
    if p = .addr then (if hasReadBit b then Config.ST_SLAR_NACK else Config.ST_SLAW_NACK) else Config.ST_DATA_NACK := rfl
@[simp] theorem statusAfter_byteIn_nack : statusAfter (.byteIn .nack) p (.byte v) = Config.ST_RX_NACK := rfl
@[simp] theorem statusAfter_byteIn_ack : statusAfter (.byteIn .ack) p (.byte v) = Config.ST_RX_ACK := rfl
@[simp] theorem statusAfter_done : statusAfter .stopCond p .done = Config.ST_AFTER_STOP := rfl

@[simp] theorem phAfter_abnormal : phAfter x p (.abnormal c) = p := by cases x <;> rfl
@[simp] theorem phAfter_startOk : phAfter .startCond p .startOk = .addr := rfl
@[simp] theorem phAfter_ack : phAfter (.byteOut b) p .ack =
    if p = .addr then (if hasReadBit b then .mr else .mt) else p := rfl
@[simp] theorem phAfter_nack : phAfter (.byteOut b) p .nack =
    if p = .addr then (if hasReadBit b then .mr else .mt) else p := rfl
@[simp] theorem phAfter_byte : phAfter (.byteIn k) p (.byte v) = p := rfl
@[simp] theorem phAfter_done : phAfter .stopCond p .done = .idle := rfl

@[simp] theorem rxdataAfter_byte (old : Byte) : rxdataAfter (.byteIn k) (.byte v) old = v := rfl
@[simp] theorem rxdataAfter_abnormal (old : Byte) : rxdataAfter x (.abnormal c) old = old := by cases x <;> rfl
@[simp] theorem rxdataAfter_start (o : PhaseOutcome) (old : Byte) : rxdataAfter .startCond o old = old := rfl
@[simp] theorem rxdataAfter_byteOut (o : PhaseOutcome) (old : Byte) : rxdataAfter (.byteOut b) o old = old := rfl
@[simp] theorem rxdataAfter_stop (o : PhaseOutcome) (old : Byte) : rxdataAfter .stopCond o old = old := rfl

@[simp] theorem selw_writeBit (a : Address) : hasReadBit (selw a) = false := by
  simp only [hasReadBit, selw, selectByte, Config.RW_READ, Config.SEL_PREFIX]
  generalize BitVec.extractLsb' 8 3 a = y
  revert y; decide

@[simp] theorem selr_readBit (a : Address) : hasReadBit (selr a) = true := by
  simp only [hasReadBit, selr, selectByte, Config.RW_READ, Config.SEL_PREFIX]
  generalize BitVec.extractLsb' 8 3 a = y
  revert y; decide

/-- Every select byte carries the prefix the device looks for (R77, R104). -/
@[simp] theorem selectByte_prefix (a : Address) (rw : BitVec 1) :
    (selectByte a rw).extractLsb' 4 4 = Config.SEL_PREFIX := by
  simp only [selectByte, Config.SEL_PREFIX]
  generalize BitVec.extractLsb' 8 3 a = y
  revert y rw; decide

/-- Every select byte carries `A[10:8]` (R104). -/
@[simp] theorem selectByte_address (a : Address) (rw : BitVec 1) :
    (selectByte a rw).extractLsb' 1 3 = a.extractLsb' 8 3 := by
  simp only [selectByte, Config.SEL_PREFIX]
  generalize BitVec.extractLsb' 8 3 a = y
  revert y rw; decide

end Tables

/-! ## Acceptance (R120, R203) -/

theorem acceptBus_accepts {allowed : Bool} {f : Twm → Twm} {s : State} (h : s.tks.insvc = false)
    (h' : s.twm.ready = true) (h'' : allowed = true) : acceptBus allowed f s = { s with twm := f s.twm } := by
  simp [acceptBus, h, h', h'']

/-- Everything acceptance can do. -/
theorem acceptBus_cases (allowed : Bool) (f : Twm → Twm) (s : State) :
    (s.tks.insvc = true ∧ acceptBus allowed f s = s.raise .ctx) ∨
    (s.tks.insvc = false ∧ s.twm.ready = false ∧ acceptBus allowed f s = s.raise .overlap) ∨
    (s.tks.insvc = false ∧ s.twm.ready = true ∧ allowed = false ∧ acceptBus allowed f s = s.raise .phase) ∨
    (s.tks.insvc = false ∧ s.twm.ready = true ∧ allowed = true ∧ acceptBus allowed f s = { s with twm := f s.twm }) := by
  cases h : s.tks.insvc <;> cases h' : s.twm.ready <;> cases allowed <;> simp [acceptBus, h, h']

/-- What acceptance leaves alone, whatever it answers. -/
theorem acceptBus_frame (allowed : Bool) (f : Twm → Twm) (s : State) :
    (acceptBus allowed f s).tks = s.tks ∧ (acceptBus allowed f s).dev = s.dev ∧
    (acceptBus allowed f s).draws = s.draws ∧ (acceptBus allowed f s).agenda = s.agenda := by
  rcases acceptBus_cases allowed f s with ⟨-, h⟩ | ⟨-, -, h⟩ | ⟨-, -, -, h⟩ | ⟨-, -, -, h⟩ <;> simp [h]

/-- Everything a command can do, by its sub-block: a bus command leaves the scheduler, a scheduler command the bus engine. -/
theorem exec_next (i : Instr) (s : State) : ∃ t, exec i s = .next t ∧ t.dev = s.dev ∧ t.draws = s.draws ∧
    t.agenda = s.agenda ∧ (i.isBus = true → t.tks = s.tks) ∧ (i.isBus = false → t.twm = s.twm) := by
  cases i
  all_goals first
    | exact ⟨_, rfl, (acceptBus_frame _ _ s).2.1, (acceptBus_frame _ _ s).2.2.1, (acceptBus_frame _ _ s).2.2.2,
        fun _ => (acceptBus_frame _ _ s).1, fun h => nomatch h⟩
    | skip
  case tseth h => refine ⟨_, rfl, ?_⟩; cases s.tks.run <;> simp [Instr.isBus]
  case tstart => exact ⟨_, rfl, rfl, rfl, rfl, (fun h => nomatch h), fun _ => rfl⟩
  case tstop => exact ⟨_, rfl, rfl, rfl, rfl, (fun h => nomatch h), fun _ => rfl⟩
  case tret => refine ⟨_, rfl, ?_⟩; cases s.tks.insvc <;> simp [Instr.isBus]

/-! ## The phase in progress (R24, R28, R30) -/

@[simp] theorem phaseInProgress_ready {b : Twm} (h : b.ready = true) : b.phaseInProgress = none := by
  simp [Twm.phaseInProgress, h]

theorem currentStep_zero {b : Twm} (h : b.seq = 0#3) : b.currentStep = none := by
  simp [Twm.currentStep, h]

theorem currentStep_of {b : Twm} {n : Nat} (h : b.seq.toNat = n + 1) : b.currentStep = (txnSteps b.cmdr)[n]? := by
  simp [Twm.currentStep, h]

/-- A busy engine at `SEQ`=0 is at its primitive's phase. -/
theorem phaseInProgress_primitive {b : Twm} (hr : b.ready = false) (hs : b.seq = 0#3) {x : Phase}
    (hx : primitivePhase b.cmdr = some x) (ha : x.allowedIn b.ph = true) : b.phaseInProgress = some x := by
  simp [Twm.phaseInProgress, Twm.wantedPhase, hr, hs, hx, ha]

/-- A busy engine at `SEQ`=n is at the `n`-th step of its transaction. -/
theorem phaseInProgress_step {b : Twm} (hr : b.ready = false) {n : Nat} (hs : b.seq.toNat = n + 1) {st : TxnStep}
    (hx : (txnSteps b.cmdr)[n]? = some st) (ha : st.phase.allowedIn b.ph = true) :
    b.phaseInProgress = some st.phase := by
  have h0 : b.seq ≠ 0#3 := fun h => by simp [h] at hs
  simp [Twm.phaseInProgress, Twm.wantedPhase, hr, h0, currentStep_of hs, hx, ha]

/-- The phase in progress may begin where it is. -/
theorem phaseInProgress_allowed {b : Twm} {x : Phase} (h : b.phaseInProgress = some x) :
    b.ready = false ∧ x.allowedIn b.ph = true := by
  cases hr : b.ready
  · simp only [Twm.phaseInProgress, hr, Bool.false_eq_true, if_false] at h
    split at h
    · cases h
    · split at h
      · next ha => cases h; exact ⟨rfl, ha⟩
      · cases h
  · simp [hr] at h

/-! ## Completing a phase (R121, R141, R142) -/

theorem completePhase_admitted {x : Phase} {o : PhaseOutcome} (h : x.admits o = true) (s : State) :
    completePhase x o s = .next { s with twm := s.twm.finishPhase x o } := by
  simp [completePhase, h]

/-- Everything completing a phase can do. -/
theorem completePhase_next {x : Phase} {o : PhaseOutcome} {s t : State} (h : completePhase x o s = .next t) :
    x.admits o = true ∧ t = { s with twm := s.twm.finishPhase x o } := by
  unfold completePhase at h
  split at h
  · next ha => exact ⟨ha, by cases h; rfl⟩
  · cases h

theorem envAnswer_idle {s : State} (h : s.twm.phaseInProgress = none) (o : PhaseOutcome) : envAnswer o s = .next s := by
  simp [envAnswer, h]

theorem envAnswer_admitted {s : State} {x : Phase} (h : s.twm.phaseInProgress = some x) {o : PhaseOutcome}
    (ha : x.admits o = true) : envAnswer o s = .next { s with twm := s.twm.finishPhase x o } := by
  simp [envAnswer, h, completePhase_admitted ha]

/-- Everything an oracle answer can do. -/
theorem envAnswer_next {o : PhaseOutcome} {s t : State} (h : envAnswer o s = .next t) :
    (s.twm.phaseInProgress = none ∧ t = s) ∨
    ∃ x, s.twm.phaseInProgress = some x ∧ x.admits o = true ∧ t = { s with twm := s.twm.finishPhase x o } := by
  unfold envAnswer at h
  split at h
  · next hn => exact .inl ⟨hn, by cases h; rfl⟩
  · next x hx => exact .inr ⟨x, hx, completePhase_next h⟩

/-- The device always answers: it never stops the machine. -/
theorem devAnswer_next (s : State) : ∃ t, devAnswer s = .next t ∧ t.tks = s.tks ∧ t.fault = s.fault ∧
    t.agenda = s.agenda := by
  unfold devAnswer
  split
  · exact ⟨s, rfl, rfl, rfl, rfl⟩
  · next x hx => exact ⟨_, completePhase_admitted (Dev.respond_admitted _ _ _ _) _, rfl, rfl, rfl⟩

theorem devAnswer_busy {s : State} {x : Phase} (h : s.twm.phaseInProgress = some x) :
    devAnswer s = .next { s with
      twm := s.twm.finishPhase x (s.dev.respond x s.twm.ph s.draws).outcome
      dev := (s.dev.respond x s.twm.ph s.draws).dev
      draws := (s.dev.respond x s.twm.ph s.draws).draws } := by
  simp [devAnswer, h, completePhase_admitted (Dev.respond_admitted _ _ _ _)]

theorem devAnswer_idle {s : State} (h : s.twm.phaseInProgress = none) : devAnswer s = .next s := by
  simp [devAnswer, h]

/-! ## What follows a completed phase -/

theorem proceed_primitive {b : Twm} (h : b.seq = 0#3) : b.proceed = b.complete := by
  simp [Twm.proceed, currentStep_zero h]

theorem proceed_passed {b : Twm} {st : TxnStep} {c : Byte} (h : b.currentStep = some st) (he : st.expected = some c)
    (hc : b.status = c) : b.proceed = b.nextStep := by
  simp [Twm.proceed, h, he, hc]

theorem proceed_failed {b : Twm} {st : TxnStep} {c : Byte} (h : b.currentStep = some st) (he : st.expected = some c)
    (hc : b.status ≠ c) : b.proceed = b.fail b.seq := by
  simp [Twm.proceed, h, he, hc]

theorem proceed_stop {b : Twm} {st : TxnStep} (h : b.currentStep = some st) (he : st.expected = none) :
    b.proceed = b.succeed := by
  simp [Twm.proceed, h, he]

@[simp] theorem currentStep_record (b : Twm) (x : Phase) (o : PhaseOutcome) :
    (b.record x o).currentStep = b.currentStep := rfl

/-- Everything that can follow a completed phase. -/
theorem proceed_cases (b : Twm) :
    (b.currentStep = none ∧ b.proceed = b.complete) ∨
    (∃ st, b.currentStep = some st ∧ st.expected = none ∧ b.proceed = b.succeed) ∨
    (∃ st, b.currentStep = some st ∧ st.expected = some b.status ∧ b.proceed = b.nextStep) ∨
    (∃ st c, b.currentStep = some st ∧ st.expected = some c ∧ b.status ≠ c ∧ b.proceed = b.fail b.seq) := by
  cases h : b.currentStep with
  | none => exact .inl ⟨rfl, by simp [Twm.proceed, h]⟩
  | some st =>
    cases he : st.expected with
    | none => exact .inr (.inl ⟨st, rfl, he, proceed_stop h he⟩)
    | some c =>
      by_cases hc : b.status = c
      · exact .inr (.inr (.inl ⟨st, rfl, hc ▸ he, proceed_passed h he hc⟩))
      · exact .inr (.inr (.inr ⟨st, c, rfl, he, hc, proceed_failed h he hc⟩))

/-- A primitive's one phase completes the command: its writes, and `READY`=1 (R121, R122 to R126). -/
theorem finishPhase_primitive {b : Twm} (h : b.seq = 0#3) (x : Phase) (o : PhaseOutcome) :
    b.finishPhase x o = { b with
      status := statusAfter x b.ph o, rxdata := rxdataAfter x o b.rxdata, ph := phAfter x b.ph o, ready := true } := by
  have hp : (b.record x o).proceed = (b.record x o).complete := proceed_primitive h
  obtain ⟨ready, ok, fstep, status, rxdata, ph, seq, cmdr⟩ := b
  subst h
  exact hp

/-- A primitive just accepted is at its phase. -/
theorem accept_phaseInProgress {b : Twm} {w : CommandWord} {x : Phase} (h : b.seq = 0#3)
    (hx : primitivePhase w = some x) (ha : x.allowedIn b.ph = true) : (b.accept w).phaseInProgress = some x :=
  phaseInProgress_primitive (b := b.accept w) rfl h hx ha

/-- A primitive just accepted, answered: the whole effect of the command. -/
theorem accept_envAnswer {s : State} {w : CommandWord} {x : Phase} {o : PhaseOutcome} (h : s.twm.seq = 0#3)
    (hx : primitivePhase w = some x) (ha : x.allowedIn s.twm.ph = true) (ho : x.admits o = true) :
    envAnswer o { s with twm := s.twm.accept w } = .next { s with twm := { s.twm with
      cmdr := w, status := statusAfter x s.twm.ph o, rxdata := rxdataAfter x o s.twm.rxdata,
      ph := phAfter x s.twm.ph o, ready := true } } :=
  (envAnswer_admitted (accept_phaseInProgress h hx ha) ho).trans
    (by rw [finishPhase_primitive (b := s.twm.accept w) h]; rfl)

/-- A transaction step whose code is the expected one: its writes, and the next step (R140, R141). -/
theorem finishPhase_passed {b : Twm} {st : TxnStep} {c : Byte} (h : b.currentStep = some st)
    (he : st.expected = some c) {x : Phase} {o : PhaseOutcome} (hc : statusAfter x b.ph o = c) :
    b.finishPhase x o = (b.record x o).nextStep :=
  proceed_passed (b := b.record x o) h he hc

/-- A transaction step whose code is not the expected one: its writes, and `fail(n)` (R142). -/
theorem finishPhase_failed {b : Twm} {st : TxnStep} {c : Byte} (h : b.currentStep = some st)
    (he : st.expected = some c) {x : Phase} {o : PhaseOutcome} (hc : statusAfter x b.ph o ≠ c) :
    b.finishPhase x o = (b.record x o).fail b.seq :=
  proceed_failed (b := b.record x o) h he hc

/-- The stop of a transaction: its writes, and success whatever the code (R152). -/
theorem finishPhase_stop {b : Twm} {st : TxnStep} (h : b.currentStep = some st) (he : st.expected = none)
    (x : Phase) (o : PhaseOutcome) : b.finishPhase x o = (b.record x o).succeed :=
  proceed_stop (b := b.record x o) h he

/-! ## Sequences of answers -/

@[simp] theorem envAnswers_nil (s : State) : envAnswers [] s = .next s := rfl

theorem envAnswers_cons {o : PhaseOutcome} {s t : State} (h : envAnswer o s = .next t) (os : List PhaseOutcome) :
    envAnswers (o :: os) s = envAnswers os t := by
  simp [envAnswers, h, andThen]

theorem envAnswers_idle {s : State} (h : s.twm.phaseInProgress = none) (os : List PhaseOutcome) :
    envAnswers os s = .next s := by
  induction os with
  | nil => rfl
  | cons o os ih => exact (envAnswers_cons (envAnswer_idle h o) os).trans ih

theorem busTrace_cons {o : PhaseOutcome} {s t : State} {x : Phase} (hx : s.twm.phaseInProgress = some x)
    (h : completePhase x o s = .next t) (os : List PhaseOutcome) : busTrace (o :: os) s = x :: busTrace os t := by
  simp [busTrace, hx, h]

theorem devAnswers_idle {s : State} (h : s.twm.phaseInProgress = none) (n : Nat) : devAnswers n s = .next s := by
  induction n with
  | zero => rfl
  | succ n ih => simp [devAnswers, devAnswer_idle h, andThen, ih]

end Sys2Proof.Machine
end

