-- ==== Sys2Proof/Laws/Events.lean ====
section
/-! SUPPORT. What the timer, a dispatch and a whole event can do. -/

namespace Sys2Proof.Machine

/-! ## The timer (R170, R171) -/

theorem countClock_match {w : Nat} (top : BitVec w) : countClock top top = (0#w, true) := by simp [countClock]

theorem countClock_count {w : Nat} {top cnt : BitVec w} (h : cnt ≠ top) : countClock top cnt = (cnt + 1#w, false) := by
  simp [countClock, h]

/-- Below the compare value the count goes up by one: it never wraps by overflow (R107 (d)). -/
theorem countClock_toNat {w : Nat} {top cnt : BitVec w} (h : cnt.toNat < top.toNat) :
    (countClock top cnt).1.toNat = cnt.toNat + 1 ∧ (countClock top cnt).2 = false := by
  have hne : cnt ≠ top := fun e => by simp [e] at h
  rw [countClock_count hne]
  have ht := top.isLt
  have hw : 0 < w := by
    rcases Nat.eq_zero_or_pos w with rfl | h'
    · simp at ht; omega
    · exact h'
  refine ⟨?_, rfl⟩
  have h1 : 1 < 2 ^ w := Nat.one_lt_two_pow (by omega)
  simp only [BitVec.toNat_add, BitVec.toNat_ofNat, Nat.mod_eq_of_lt h1]
  exact Nat.mod_eq_of_lt (by omega)

/-- Everything a tick can do (R171). -/
theorem tick_cases (t : Tks) :
    (t.hvalid = false ∧ t.tick = t) ∨ (t.hvalid = true ∧ t.tick = { t with pend := true }) := by
  cases h : t.hvalid
  · exact .inl ⟨rfl, by simp [Tks.tick, h]⟩
  · obtain ⟨run, hv, ha, pend, insvc, cnt⟩ := t
    subst h
    cases pend <;> exact .inr ⟨rfl, rfl⟩

theorem clock_stopped {t : Tks} (h : t.run = false) : t.clock = t := by simp [Tks.clock, h]

theorem clock_count {t : Tks} (h : t.run = true) (hc : t.cnt.toNat < Config.T_TOP.toNat) :
    ∃ c, c.toNat = t.cnt.toNat + 1 ∧ t.clock = { t with cnt := c } := by
  obtain ⟨h1, h2⟩ := countClock_toNat hc
  exact ⟨_, h1, by simp [Tks.clock, h, h2]⟩

theorem clock_match {t : Tks} (h : t.run = true) (hc : t.cnt = Config.T_TOP) :
    t.clock = { t with cnt := 0#_ }.tick := by
  simp [Tks.clock, h, hc, countClock_match]

/-! ## Dispatch (R172) -/

theorem dispatch_enabled {t : Tks} (h : t.irq = true) : t.dispatch = t.enterHandler := by simp [Tks.dispatch, h]
theorem dispatch_disabled {t : Tks} (h : t.irq = false) : t.dispatch = t := by simp [Tks.dispatch, h]

/-! ## Commands and whole steps -/

theorem presentWord_legal {w : CommandWord} {i : Instr} (h : decode w = .command i) (s : State) :
    presentWord w s = exec i s := by simp [presentWord, h]

theorem presentWord_illegal {w : CommandWord} {r : IllegalWord} (h : decode w = .illegal r) (s : State) :
    presentWord w s = .next (s.raise .illegal) := by simp [presentWord, h]

theorem step_idle {s : State} (h : s.agenda = []) : step s = .next s := by simp [step, h]

theorem step_cons {s : State} {e : Event} {es : List Event} (h : s.agenda = e :: es) :
    step s = perform e { s with agenda := es } := by simp [step, h]

theorem andThen_next {α β : Type} {o : Host.Outcome α Fault Refusal} {f : α → Host.Outcome β Fault Refusal} {u : β}
    (h : andThen o f = .next u) : ∃ t, o = .next t ∧ f t = .next u := by
  cases o with
  | next t => exact ⟨t, rfl, h⟩
  | fault r => cases h
  | refused r => cases h

@[simp] theorem andThen_of_next {α β : Type} (s : α) (f : α → Host.Outcome β Fault Refusal) :
    andThen (.next s) f = f s := rfl

/-- Going on twice is going on once. -/
theorem andThen_assoc {α β γ : Type} (o : Host.Outcome α Fault Refusal) (f : α → Host.Outcome β Fault Refusal)
    (g : β → Host.Outcome γ Fault Refusal) : andThen (andThen o f) g = andThen o fun x => andThen (f x) g := by
  cases o <;> rfl

/-- `HOST.main` can take its next step exactly when a bus command would be accepted. -/
theorem mainMoves_iff (s : State) : s.mainMoves = true ↔ s.acceptsBus := by
  simp [State.mainMoves, State.acceptsBus, and_comm]

/-- Only an oracle answer can stop the machine; every other event answers a next state. -/
theorem perform_next {e : Event} (h : e.isEnv = false) (s : State) : ∃ t, perform e s = .next t := by
  cases e with
  | command w =>
    cases hd : decode w with
    | command i => obtain ⟨t, ht, -⟩ := exec_next i s; exact ⟨t, by rw [← ht]; exact presentWord_legal hd s⟩
    | illegal r => exact ⟨_, presentWord_illegal hd s⟩
  | env o => exact nomatch h
  | dev => obtain ⟨t, ht, -⟩ := devAnswer_next s; exact ⟨t, ht⟩
  | timerClock => exact ⟨_, rfl⟩
  | dispatch => exact ⟨_, rfl⟩
  | settle => exact ⟨_, rfl⟩
  | delay => exact ⟨_, rfl⟩
  | reset => exact ⟨_, rfl⟩
  | powerCycle => exact ⟨_, rfl⟩

end Sys2Proof.Machine
end

