-- ==== Sys2Proof/Laws/PerInstr.lean ====
section
/-! SUPPORT. Facts made per command: a command's word is an instance of that command's own row of the opcode table (spec
30_encoding.md R92, R94). -/

namespace Sys2Proof.Laws.WordInTable

/-- The word of `i` is an instance of the row with `i`'s mnemonic. -/
def Statement (i : Instr) : Prop := ∃ r ∈ opcodeRows, r.mnemonic = i.mnemonic ∧ r.holds (encode i) = true

theorem start : Statement .start := ⟨⟨"START", 0xFFFFFF#24, 0x100000#24⟩, by decide, rfl, by decide⟩
theorem stop : Statement .stop := ⟨⟨"STOP", 0xFFFFFF#24, 0x200000#24⟩, by decide, rfl, by decide⟩
theorem rdack : Statement .rdack := ⟨⟨"RDACK", 0xFFFFFF#24, 0x400000#24⟩, by decide, rfl, by decide⟩
theorem rdnack : Statement .rdnack := ⟨⟨"RDNACK", 0xFFFFFF#24, 0x500000#24⟩, by decide, rfl, by decide⟩
theorem status : Statement .status := ⟨⟨"STATUS", 0xFFFFFF#24, 0x600000#24⟩, by decide, rfl, by decide⟩
theorem tstart : Statement .tstart := ⟨⟨"TSTART", 0xFFFFFF#24, 0xD00000#24⟩, by decide, rfl, by decide⟩
theorem tstop : Statement .tstop := ⟨⟨"TSTOP", 0xFFFFFF#24, 0xE00000#24⟩, by decide, rfl, by decide⟩
theorem tret : Statement .tret := ⟨⟨"TRET", 0xFFFFFF#24, 0xF00000#24⟩, by decide, rfl, by decide⟩

/-- A mask that splits at an append masks each part. -/
theorem and_append {m n : Nat} (x p : BitVec m) (y q : BitVec n) : (x ++ y) &&& (p ++ q) = (x &&& p) ++ (y &&& q) := by
  ext i hi
  simp only [BitVec.getElem_and, BitVec.getElem_append]
  split <;> rfl

theorem writeb (d : Byte) : Statement (.writeb d) := by
  refine ⟨⟨"WRITEB", 0xFFFF00#24, 0x300000#24⟩, by decide, rfl, ?_⟩
  have h := and_append 0x3000#16 0xFFFF#16 d 0#8
  simp only [OpcodeRow.holds, encode, beq_iff_eq]
  exact h.trans (by simp)

theorem wrtxn (a : Address) (d : Byte) : Statement (.wrtxn a d) := by
  refine ⟨⟨"WRTXN", 0xF80000#24, 0x800000#24⟩, by decide, rfl, ?_⟩
  have h := and_append (0b10000#5 ++ a) (0b11111#5 ++ 0#11) d 0#8
  have h' := and_append 0b10000#5 0b11111#5 a 0#11
  simp only [OpcodeRow.holds, encode, beq_iff_eq]
  exact h.trans (by rw [h']; simp)

theorem rdtxn (a : Address) : Statement (.rdtxn a) := by
  refine ⟨⟨"RDTXN", 0xF800FF#24, 0x900000#24⟩, by decide, rfl, ?_⟩
  have h := and_append (0b10010#5 ++ a) (0b11111#5 ++ 0#11) 0#8 0xFF#8
  have h' := and_append 0b10010#5 0b11111#5 a 0#11
  simp only [OpcodeRow.holds, encode, beq_iff_eq]
  exact h.trans (by rw [h']; simp)

theorem tseth (h : Token) : Statement (.tseth h) := by
  refine ⟨⟨"TSETH", 0xFF0000#24, 0xC00000#24⟩, by decide, rfl, ?_⟩
  have h := and_append 0xC0#8 0xFF#8 h 0#16
  simp only [OpcodeRow.holds, encode, beq_iff_eq]
  exact h.trans (by simp)

end Sys2Proof.Laws.WordInTable
end

