-- ==== Sys2Proof/Laws/Progress.lean ====
section
/-! SUPPORT. How a bus command goes on: a completed phase keeps the engine in good order and takes the sequencer one step
further or to its end; performing an event does not look at the agenda; answers of the device one after another. -/

namespace Sys2Proof.Machine

/-- The steps of a word are none, a write's or a read's. -/
theorem txnSteps_cases (w : CommandWord) :
    (txnSteps w).length = 0 ∨ (∃ a d, txnSteps w = writeSteps a d) ∨ (∃ a, txnSteps w = readSteps a) := by
  unfold txnSteps; split_ifs
  · exact .inr (.inl ⟨_, _, rfl⟩)
  · exact .inr (.inr ⟨_, rfl⟩)
  · exact .inl rfl

/-- A completed phase keeps the engine in good order: the next step's phase may begin in the `PH` the last one left. -/
theorem finishPhase_good {b : Twm} (hg : b.Good) {x o} (hx : b.phaseInProgress = some x) (ha : x.admits o = true) :
    (b.finishPhase x o).Good := by
  obtain ⟨hr, hal⟩ := phaseInProgress_allowed hx
  by_cases hs : b.seq = 0#3
  · rw [finishPhase_primitive hs]
    exact ⟨fun _ => hs, (fun h => nomatch h), fun h => absurd hs h, hg.passed, hg.step⟩
  · obtain ⟨hok, hf⟩ := hg.running hs
    obtain ⟨n, hn⟩ : ∃ n, b.seq.toNat = n + 1 := by
      cases h : b.seq.toNat with
      | zero => exact absurd (BitVec.eq_of_toNat_eq (by simpa using h)) hs
      | succ n => exact ⟨n, rfl⟩
    have hst : ∃ st, b.currentStep = some st ∧ st.phase = x := by
      simp [Twm.phaseInProgress, Twm.wantedPhase, hr, hs] at hx
      cases hc : b.currentStep with
      | none => simp [hc] at hx
      | some st => simp [hc] at hx; exact ⟨st, rfl, hx.2⟩
    obtain ⟨st, hc, rfl⟩ := hst
    rcases he : st.expected with _ | c
    · rw [finishPhase_stop hc he]
      exact ⟨fun _ => rfl, (fun h => nomatch h), fun h => absurd rfl h, fun _ => hf, by simp [hf]⟩
    · by_cases hcc : statusAfter st.phase b.ph o = c
      · rw [finishPhase_passed hc he hcc]
        rw [currentStep_of hn] at hc
        have h8 : n + 1 < 8 := by have := b.seq.isLt; omega
        have key : ∃ st', (txnSteps b.cmdr)[n+1]? = some st' ∧ st'.phase.allowedIn (phAfter st.phase b.ph o) = true ∧ n + 2 < 8 := by
          have nwr := Config.stSlawNack_ne (e := Config.ST_SLAW_ACK) (by decide)
          have ndr := Config.stDataNack_ne (e := Config.ST_DATA_ACK) (by decide)
          have nrr := Config.stSlarNack_ne (e := Config.ST_SLAR_ACK) (by decide)
          have mem : c ∈ Config.SIX → o ≠ .abnormal c := by
            rintro hm rfl; simp [hm] at ha
          have d1 : Config.ST_DATA_ACK ≠ Config.ST_SLAW_ACK := by decide
          have d2 : Config.ST_DATA_ACK ≠ Config.ST_SLAR_ACK := by decide
          have d3 : Config.ST_SLAW_ACK ≠ Config.ST_DATA_ACK := by decide
          have d4 : Config.ST_SLAR_ACK ≠ Config.ST_DATA_ACK := by decide
          have d5 := Config.stDataNack_ne (e := Config.ST_SLAW_ACK) (by decide)
          have d6 := Config.stDataNack_ne (e := Config.ST_SLAR_ACK) (by decide)
          have d7 := Config.stSlawNack_ne (e := Config.ST_DATA_ACK) (by decide)
          have d8 := Config.stSlarNack_ne (e := Config.ST_DATA_ACK) (by decide)
          rcases txnSteps_cases b.cmdr with h | ⟨a, d, h⟩ | ⟨a, h⟩
          · rw [List.length_eq_zero_iff] at h; rw [h] at hc; cases hc
          all_goals
            rw [h] at hc ⊢
            have h7 : n < 7 := by omega
            interval_cases n <;> simp [writeSteps, readSteps] at hc <;> subst hc <;> simp at he <;> subst he <;> simp [writeSteps, readSteps] <;>
              cases hp : b.ph <;> cases o <;> simp_all [Phase.admits, phAfter, statusAfter] <;> (try split_ifs at * <;> simp_all) <;> (try (subst hcc; exact absurd ha (by decide)))
        obtain ⟨st', k1, k2, k3⟩ := key
        have hseq : ((b.record st.phase o).nextStep).seq.toNat = n + 1 + 1 := by
          simp [BitVec.toNat_add, hn]; omega
        have hp := phaseInProgress_step (b := (b.record st.phase o).nextStep) hr hseq (st := st') k1 k2
        refine ⟨fun h => by simp [hr] at h, fun _ => by rw [hp]; simp, fun _ => ⟨hok, hf⟩, fun h => hf, by simp [hf]⟩
      · rw [finishPhase_failed hc he hcc]
        refine ⟨fun _ => rfl, (fun h => nomatch h), fun h => absurd rfl h, (fun h => nomatch h), ?_⟩
        intro h7
        have h7' : b.seq = 7#3 := h7
        rw [currentStep_of (n := 6) (by rw [h7']; rfl)] at hc
        rcases txnSteps_cases b.cmdr with h | ⟨a, d, h⟩ | ⟨a, h⟩
        · rw [List.length_eq_zero_iff] at h; rw [h] at hc; cases hc
        · rw [h] at hc; simp [writeSteps] at hc
        · rw [h] at hc; simp [readSteps] at hc; subst hc; cases he

/-- A completed phase ends the command, or takes `SEQ` one up, and that not from the last step (R24). -/
theorem finishPhase_progress {b : Twm} {x o} (hx : b.phaseInProgress = some x) :
   ((b.finishPhase x o).seq = 0#3 ∧ (b.finishPhase x o).ready = true) ∨ ((b.finishPhase x o).seq.toNat = b.seq.toNat + 1 ∧ b.seq.toNat ≠ (txnSteps b.cmdr).length ∧ 0 < b.seq.toNat) := by
  have hr := (phaseInProgress_allowed hx).1
  by_cases hs : b.seq = 0#3
  · rw [finishPhase_primitive hs]; exact .inl ⟨hs, rfl⟩
  · rcases proceed_cases (b.record x o) with ⟨-, e⟩ | ⟨-, -, -, e⟩ | ⟨st, h1, h2, e⟩ | ⟨-, -, -, -, -, e⟩
    · exact .inl (by rw [Twm.finishPhase, e]; exact ⟨rfl, rfl⟩)
    · exact .inl (by rw [Twm.finishPhase, e]; exact ⟨rfl, rfl⟩)
    · right
      rw [Twm.finishPhase, e]
      obtain ⟨n, hn⟩ : ∃ n, b.seq.toNat = n + 1 := by
        cases h : b.seq.toNat with
        | zero => exact absurd (BitVec.eq_of_toNat_eq (by simpa using h)) hs
        | succ n => exact ⟨n, rfl⟩
      rw [currentStep_record, currentStep_of hn] at h1
      have : n + 1 < 7 ∧ n + 1 ≠ (txnSteps b.cmdr).length := by
        obtain ⟨hlt, -⟩ := List.getElem?_eq_some_iff.1 h1
        rcases txnSteps_cases b.cmdr with h | ⟨a, d, h⟩ | ⟨a, h⟩
        · rw [List.length_eq_zero_iff] at h; rw [h] at h1; cases h1
        all_goals
          rw [h] at h1 hlt ⊢
          simp [writeSteps, readSteps] at hlt
          interval_cases n <;> simp [writeSteps, readSteps] at h1 ⊢ <;> subst h1 <;> simp at h2
      refine ⟨by simp [BitVec.toNat_add, hn]; omega, by omega, by omega⟩
    · exact .inl (by rw [Twm.finishPhase, e]; exact ⟨rfl, rfl⟩)

/-- What an event does, and what it leaves, is the same whatever else is scheduled. -/
theorem perform_agenda (e : Event) (s : State) (ag : List Event) :
    perform e {s with agenda := ag} = andThen (perform e s) (fun t => .next {t with agenda := ag}) := by
  cases e with
  | command w =>
    simp only [perform]
    cases hd : decode w with
    | illegal r => simp [presentWord_illegal hd]; rfl
    | command i =>
      rw [presentWord_legal hd, presentWord_legal hd]
      cases i <;> simp [exec, execStart, execStop, execWriteb, execRdack, execRdnack, execStatus, execWrtxn, execRdtxn, execTseth, execTstart, execTstop, execTret, acceptBus] <;> (try split_ifs) <;> (try rfl)
  | env o =>
    simp only [perform, envAnswer]
    cases s.twm.phaseInProgress with
    | none => rfl
    | some x => simp only [completePhase]; split <;> rfl
  | dev =>
    simp only [perform, devAnswer]
    cases s.twm.phaseInProgress with
    | none => rfl
    | some x => simp only [completePhase]; split <;> rfl
  | delay => simp only [perform, delay, andThen_of_next]; split_ifs <;> rfl
  | timerClock => rfl
  | dispatch => rfl
  | settle => rfl
  | reset => rfl
  | powerCycle => rfl

/-- Answers of the device, some and then some more. -/
theorem devAnswers_add (n m : Nat) : ∀ s, devAnswers (n + m) s = andThen (devAnswers n s) (devAnswers m) := by
  induction n with
  | zero => intro s; simp [devAnswers]
  | succ n ih => intro s; rw [Nat.succ_add]; simp only [devAnswers]; cases devAnswer s with
    | next t => exact ih t
    | fault r => rfl
    | refused r => rfl

end Sys2Proof.Machine
end

