-- ==== Sys2Proof/Laws/Pseudo.lean ====
section
/-! SUPPORT. What the host's software can see: steps of the other agents while it waits, and what it does after a transaction. -/

namespace Sys2Proof.Machine

/-! ## While the host waits -/

/-- What a step of another agent can be: the handler's command, an answer, or a step of the scheduler or the device; the rest
changes nothing. -/
theorem othersStep_main {e : Event} {s : State} (h : e = .delay ∨ e = .reset ∨ e = .powerCycle) :
    othersStep e s = .next s := by
  rcases h with rfl | rfl | rfl <;> rfl

theorem othersStep_command_main {w : CommandWord} {s : State} (h : s.tks.insvc = false) :
    othersStep (.command w) s = .next s := by simp [othersStep, h]

theorem othersStep_command_handler {w : CommandWord} {s : State} (h : s.tks.insvc = true) :
    othersStep (.command w) s = presentWord w s := by simp [othersStep, h]

/-- Steps of the other agents, some and then some more. -/
theorem meanwhile_append (as bs : List Event) (s : State) :
    meanwhile (as ++ bs) s = andThen (meanwhile as s) (meanwhile bs) := by
  induction as generalizing s with
  | nil => rfl
  | cons e as ih =>
    simp only [List.cons_append, meanwhile, andThen_assoc]
    exact congrArg _ (funext ih)

/-- The device's answers, as steps of the other agents. -/
theorem meanwhile_dev (n : Nat) (s : State) : meanwhile (List.replicate n .dev) s = devAnswers n s := by
  induction n generalizing s with
  | zero => rfl
  | succ n ih =>
    simp only [List.replicate_succ, meanwhile, othersStep, devAnswers]
    cases devAnswer s with
    | next t => exact ih t
    | fault r => rfl
    | refused r => rfl

theorem issueUnderDev_eq (i : Instr) (s : State) : issueUnderDev i s = andThen (exec i s) (devAnswers 7) := by
  unfold issueUnderDev issue
  cases exec i s with
  | next t => exact meanwhile_dev 7 t
  | fault r => rfl
  | refused r => rfl

/-- A command whose phases the device ends within seven answers is ended by `issueUnderDev`. -/
theorem issueUnderDev_of {i : Instr} {s t u : State} {n : Nat} (hn : n ≤ 7) (h : exec i s = .next t)
    (h2 : devAnswers n t = .next u) (hr : u.twm.ready = true) : issueUnderDev i s = .next u := by
  rw [issueUnderDev_eq, h, andThen_of_next, show (7 : Nat) = n + (7 - n) by omega, devAnswers_add, h2, andThen_of_next,
    devAnswers_idle (phaseInProgress_ready hr)]

/-! ## What the host does next -/

section AfterTxn
variable {α : Type} (f : State → HostOutcome α) {t : State}

theorem afterTxn_waits (h : t.mainMoves = false) : afterTxn f t = .next (t, .unfinished) := by simp [afterTxn, h]

theorem afterTxn_stops (h : t.mainMoves = true) (h' : t.twm.ok = false) : afterTxn f t = .next (t, .failure) := by
  simp [afterTxn, h, h']

theorem afterTxn_goesOn (h : t.mainMoves = true) (h' : t.twm.ok = true) : afterTxn f t = f t := by
  simp [afterTxn, h, h']

end AfterTxn

@[simp] theorem HostResult_map_success {α β : Type} (f : α → β) (v : α) : (HostResult.success v).map f = .success (f v) := rfl
@[simp] theorem HostResult_map_failure {α β : Type} (f : α → β) : HostResult.failure.map f = .failure := rfl
@[simp] theorem HostResult_map_unfinished {α β : Type} (f : α → β) : HostResult.unfinished.map f = .unfinished := rfl

/-- A delay of a host that can move ends the write-busy interval and changes nothing else. -/
theorem delay_mainMoves {s : State} (h : s.mainMoves = true) : delay s = settle s := by
  have := (mainMoves_iff s).1 h
  simp [delay, this.1, this.2]

theorem delay_waits {s : State} (h : s.mainMoves = false) : delay s = s := by
  have : ¬ s.acceptsBus := fun k => by simp [(mainMoves_iff s).2 k] at h
  exact if_neg fun k => this ⟨k.2, k.1⟩

end Sys2Proof.Machine
end

