-- ==== Sys2Proof/Tests/Slice0.lean ====
section
/-! SUPPORT. Tests on fixed values, their results taken from spec/95_test_vectors.md (section named at each group), and for
each obligation with hypotheses a witness: a state and operands that meet them all, clause by clause. -/

namespace Sys2Proof.Tests

open Sys2Proof Sys2Proof.Machine

/-! ## Words the format refuses (95, section 2.1): the smoke test of WellFormed, one for each check -/

theorem test_wf_reserved_op : wordWellFormed 0x000000#24 = false ∧ wordWellFormed 0x700000#24 = false ∧
    wordWellFormed 0xA00000#24 = false ∧ wordWellFormed 0xB00000#24 = false := by decide
theorem test_wf_bit19 : wordWellFormed 0x180000#24 = false ∧ wordWellFormed 0x880000#24 = false ∧
    wordWellFormed 0x980000#24 = false ∧ wordWellFormed 0xC80000#24 = false ∧ wordWellFormed 0xE80000#24 = false := by decide
theorem test_wf_formatN : wordWellFormed 0x100001#24 = false ∧ wordWellFormed 0x2000FF#24 = false ∧
    wordWellFormed 0x500001#24 = false ∧ wordWellFormed 0xF0000F#24 = false := by decide
theorem test_wf_formatB : wordWellFormed 0x300100#24 = false ∧ wordWellFormed 0x30FF00#24 = false := by decide
theorem test_wf_formatA : wordWellFormed 0x931101#24 = false := by decide
theorem test_wf_formatAD : wordWellFormed 0x8FFFFF#24 = false := by decide
theorem test_wf_formatH : wordWellFormed 0xC10000#24 = false := by decide
theorem test_wf_accepts : wordWellFormed 0x87FFFF#24 = true ∧ wordWellFormed 0x97FF00#24 = true ∧
    wordWellFormed 0xC0FFFF#24 = true ∧ wordWellFormed 0x3000FF#24 = true := by decide

/-! ## Decoding, one word written out for each command (95, section 2.1) -/

theorem test_decode_start : decode 0b000100000000000000000000#24 = .command .start := by decide
theorem test_decode_stop : decode 0b001000000000000000000000#24 = .command .stop := by decide
theorem test_decode_writeb : decode 0b001100000000000010100110#24 = .command (.writeb 0xA6#8) := by decide
theorem test_decode_rdack : decode 0b010000000000000000000000#24 = .command .rdack := by decide
theorem test_decode_rdnack : decode 0b010100000000000000000000#24 = .command .rdnack := by decide
theorem test_decode_status : decode 0b011000000000000000000000#24 = .command .status := by decide
theorem test_decode_wrtxn : decode 0b100000110001000100110101#24 = .command (.wrtxn 0x311#11 0x35#8) := by decide
theorem test_decode_rdtxn : decode 0b100100110001000100000000#24 = .command (.rdtxn 0x311#11) := by decide
theorem test_decode_tseth : decode 0b110000000000110100000001#24 = .command (.tseth 0x0D01#16) := by decide
theorem test_decode_tstart : decode 0b110100000000000000000000#24 = .command .tstart := by decide
theorem test_decode_tstop : decode 0b111000000000000000000000#24 = .command .tstop := by decide
theorem test_decode_tret : decode 0b111100000000000000000000#24 = .command .tret := by decide
theorem test_decode_illegal : decode 0x700000#24 = .illegal .reservedOp ∧ decode 0x300100#24 = .illegal .mustBeZero ∧
    decode 0x931101#24 = .illegal .mustBeZero ∧ decode 0xD00001#24 = .illegal .mustBeZero := by decide
theorem test_decode_corners : decode 0x87FFFF#24 = .command (.wrtxn 0x7FF#11 0xFF#8) ∧
    decode 0x97FF00#24 = .command (.rdtxn 0x7FF#11) ∧ decode 0xC0FFFF#24 = .command (.tseth 0xFFFF#16) ∧
    decode 0x3000FF#24 = .command (.writeb 0xFF#8) := by decide
theorem test_decodeTableWord : decodeTableWord 24 0x931100 = some (.rdtxn 0x311#11) ∧
    decodeTableWord 24 0x880000 = none := by decide

/-! ## The bytes of an address (95, section 2.2) -/

theorem test_select_311 : selw 0x311#11 = 0xA6#8 ∧ selr 0x311#11 = 0xA7#8 ∧ alo 0x311#11 = 0x11#8 := by decide
theorem test_select_420 : selw 0x420#11 = 0xA8#8 ∧ selr 0x420#11 = 0xA9#8 ∧ alo 0x420#11 = 0x20#8 := by decide
theorem test_select_7FF : selw 0x7FF#11 = 0xAE#8 ∧ selr 0x7FF#11 = 0xAF#8 ∧ alo 0x7FF#11 = 0xFF#8 := by decide
theorem test_select_0FF : selw 0x0FF#11 = 0xA0#8 ∧ selr 0x0FF#11 = 0xA1#8 ∧ alo 0x0FF#11 = 0xFF#8 := by decide

/-! ## Small states -/

/-- After reset, with the bus in `p`. -/
def atPh (p : PH) : State := { State.reset with twm := { State.reset.twm with ph := p } }
/-- A command of word `w` in progress at step `q`, with the bus in `p`. -/
def busy (w : CommandWord) (q : BitVec 3) (p : PH) : State :=
  { State.reset with twm := { State.reset.twm with ready := false, cmdr := w, seq := q, ph := p } }
/-- After reset, with the scheduler's bits as given and the token 0x0D01. -/
def sched (run hvalid pend insvc : Bool) : State :=
  { State.reset with tks := { State.reset.tks with
    run := run, hvalid := hvalid, handler := 0x0D01#16, pend := pend, insvc := insvc } }
/-- A fault recorded before. -/
def faulted : State := { State.reset with fault := 3#3 }
/-- After reset, with a byte being stored. -/
def storing : State := { State.reset with dev := { State.reset.dev with wbusy := true, wAddr := 5#11 } }
/-- A state with a schedule. -/
def withAgenda (s : State) (es : List Event) : State := { s with agenda := es }
/-- The spec's example layout (95, conventions). -/
def layout : Config.Layout := ⟨0x311#11, 0x420#11, 0xA5#8, 0x5A#8⟩
/-- The source's example credential. -/
def credential : Credential := ⟨1#8, 2#8, 3#8, 4#8, 5#8⟩

/-- `STATUS`, `PH`, `READY`, `FAULT` of a next state. -/
def look (o : Host.Outcome State Fault Refusal) : Option (Byte × PH × Bool × BitVec 3) :=
  (nextOf o).map fun t => (t.twm.status, t.twm.ph, t.twm.ready, t.fault)
/-- `FAULT` of a next state. -/
def faultOf (o : Host.Outcome State Fault Refusal) : Option (BitVec 3) := (nextOf o).map (·.fault)
/-- A command, then answers. -/
def cmd (i : Instr) (os : List PhaseOutcome) (s : State) : Host.Outcome State Fault Refusal :=
  andThen (exec i s) (envAnswers os)
/-- `OK`, `FSTEP`, `STATUS`, `PH` of a next state. -/
def txn (o : Host.Outcome State Fault Refusal) : Option (Bool × BitVec 3 × Byte × PH) :=
  (nextOf o).map fun t => (t.twm.ok, t.twm.fstep, t.twm.status, t.twm.ph)

/-! ## Bus primitives (95, section 2.3; the row at each test) -/

theorem test_start_row1 : look (cmd .start [.startOk] (atPh .idle)) = some (0x08#8, .addr, true, 0#3) := by decide
theorem test_start_row6 : look (cmd .start [.abnormal 0xF8#8] (atPh .mt)) = some (0xF8#8, .mt, true, 0#3) := by decide
theorem test_writeb_row9 : look (cmd (.writeb 0xA7#8) [.ack] (atPh .addr)) = some (0x40#8, .mr, true, 0#3) := by decide
theorem test_writeb_row16 : look (cmd (.writeb 0xA7#8) [.ack] (atPh .mt)) = some (0x28#8, .mt, true, 0#3) := by decide
theorem test_rdnack_row19 : (nextOf (cmd .rdnack [.byte 0x58#8] (atPh .mr))).map (fun t => (t.twm.status, t.twm.rxdata)) =
    some (0x58#8, 0x58#8) := by decide
theorem test_rdnack_row20 : look (cmd .rdnack [.abnormal 0x00#8] (atPh .mr)) = some (0x00#8, .mr, true, 0#3) := by decide
theorem test_rdack_row21 : (nextOf (cmd .rdack [.byte 0x37#8] (atPh .mr))).map (fun t => (t.twm.rxdata, t.twm.ph)) =
    some (0x37#8, .mr) := by decide
theorem test_rdack_row32 : faultOf (cmd .rdack [] (atPh .mt)) = some 2#3 := by decide
theorem test_stop_row26 : look (cmd .stop [.abnormal 0x01#8] (atPh .mt)) = some (0x01#8, .mt, true, 0#3) := by decide
theorem test_stop_row27 : faultOf (cmd .stop [] (atPh .idle)) = some 2#3 := by decide
theorem test_status_row33 : exec .status (atPh .mr) = .next (atPh .mr) ∧
    statusReturn (atPh .mr) = some Config.ST_RESET := ⟨rfl, rfl⟩

/-! ## Transactions (95, sections 2.4, 2.5, 2.6) -/

theorem test_wrtxn_fails_step3 : txn (cmd (.wrtxn 0x311#11 0x35#8) [.startOk, .ack, .abnormal 0xF8#8] (atPh .idle)) =
    some (false, 3#3, 0xF8#8, .mt) := by decide
theorem test_wrtxn_stop_unverified : txn (cmd (.wrtxn 0x311#11 0x35#8) [.startOk, .ack, .ack, .ack, .abnormal 0xF8#8]
    (atPh .idle)) = some (true, 0#3, 0xF8#8, .mt) := by decide
theorem test_rdtxn_fails_step5 : txn (cmd (.rdtxn 0x311#11) [.startOk, .ack, .ack, .startOk, .abnormal 0xF8#8]
    (atPh .idle)) = some (false, 5#3, 0xF8#8, .addr) := by decide
theorem test_rdtxn_held_bus : txn (cmd (.rdtxn 0x311#11) [.startOk] (atPh .mr)) = some (false, 1#3, 0x10#8, .addr) := by
  decide

/-! ## The scheduler (95, sections 2.7, 2.8) -/

theorem test_tseth_row4 : exec (.tseth 0x0A02#16) (sched true true false false) =
    .next { sched true true false false with fault := 5#3 } := rfl
theorem test_tseth_row2 : (nextOf (exec (.tseth 0x0A02#16) (sched false true false false))).map (·.tks.handler) =
    some 0x0A02#16 := rfl
theorem test_tstart_row6 : (nextOf (exec .tstart (sched true true true false))).map (fun t => (t.tks.run, t.tks.pend)) =
    some (true, true) := rfl
theorem test_tstop_row9 : (nextOf (exec .tstop (sched true true false true))).map
    (fun t => (t.tks.run, t.tks.pend, t.tks.insvc)) = some (false, false, true) := rfl
theorem test_tret_row12 : (nextOf (exec .tret (sched true true true true))).map
    (fun t => (t.tks.insvc, t.tks.pend, t.tks.irq)) = some (false, true, true) := rfl
theorem test_tret_row13 : faultOf (exec .tret (sched true true false false)) = some 6#3 := rfl
theorem test_count_top2 : countClock 2#8 0#8 = (1#8, false) ∧ countClock 2#8 1#8 = (2#8, false) ∧
    countClock 2#8 2#8 = (0#8, true) := by decide
theorem test_tick_latched_lost_discarded : (sched true true false false).tks.tick.pend = true ∧
    (sched true true true true).tks.tick.pend = true ∧ (sched true false false false).tks.tick.pend = false := ⟨rfl, rfl, rfl⟩
theorem test_dispatch : (dispatch (sched true true true false)).tks.insvc = true ∧
    (dispatch (sched true true true false)).tks.pend = false ∧
    (sched true true true false).tks.request = some 0x0D01#16 ∧
    (sched true true true true).tks.request = none := ⟨rfl, rfl, rfl, rfl⟩

/-! ## The order of the checks (95, section 2.9) -/

theorem test_fault_row1 : faultOf (presentWord 0x200001#24 (busy 0x100000#24 0#3 .idle)) = some 1#3 := by decide
theorem test_fault_row2 : faultOf (exec .stop { busy 0x100000#24 0#3 .idle with tks := (sched true true false true).tks }) =
    some 3#3 := by decide
theorem test_fault_row3 : faultOf (exec .stop (busy 0x100000#24 0#3 .idle)) = some 4#3 := by decide
theorem test_fault_row9 : faultOf (presentWord 0x000000#24 faulted) = some 3#3 := by decide

/-! ## The device -/

/-- After reset, with a device whose registers are 0 and nothing written. -/
def plainDev : State := { State.reset with dev := ⟨[], 0#11, .didle, 0#8, false, 0#11⟩ }
/-- 95, section 2.4, the first row: the write transaction under the device. -/
theorem test_device_write : (nextOf (issueUnderDev (.wrtxn 0x311#11 0x35#8) plainDev)).map
    (fun t => (t.twm.ok, t.dev.mem, t.dev.wbusy)) = some (true, [(0x311, 0x35#8)], true) := by decide
/-- 95, section 2.5: `RDTXN 0x7FF` leaves `P`=0x000. -/
theorem test_device_read_wraps : (nextOf (issueUnderDev (.rdtxn 0x7FF#11) plainDev)).map
    (fun t => (t.twm.ok, t.dev.ptr)) = some (true, 0#11) := by decide
/-- 20_memory.md R79: rewriting a byte replaces it, and addresses stay in order. -/
theorem test_memory_order : Memory.write (Memory.write (Memory.write [] 9#11 1#8) 3#11 2#8) 9#11 7#8 =
    [(3, 2#8), (9, 7#8)] := by decide
/-- R75: a byte nothing has written reads as the free byte. -/
theorem test_memory_free : Memory.read [] 9#11 = Config.initialByte 9 := rfl

/-! ## Witnesses: encoding and steps -/

theorem wit_EncodeOfDecode : decode 0x931100#24 = .command (.rdtxn 0x311#11) := by decide
theorem wit_IllegalWord : decode 0x880000#24 = .illegal .mustBeZero ∧ (0x880000#24).getLsbD 19 = true ∧
    wordWellFormed 0x880000#24 = false := by decide
theorem wit_StepRunsDecodedCommand :
    (State.reset.withFetchWord 24 0xD00000).agenda = [.command 0xD00000#24] ∧ decode 0xD00000#24 = .command .tstart ∧
    (State.reset.withFetchWord 24 0xD00001).agenda = [.command 0xD00001#24] ∧ decode 0xD00001#24 = .illegal .mustBeZero ∧
    State.reset.agenda = [] := ⟨rfl, by decide, rfl, by decide, rfl⟩
/-- The stop that `StopsOnlyOnInadmissibleAnswer` speaks of occurs. -/
theorem wit_StopsOnlyOnInadmissibleAnswer :
    step (withAgenda (busy 0x100000#24 0#3 .idle) [.env .nack]) = .fault .outcomeNotAdmitted ∧
    (busy 0x100000#24 0#3 .idle).twm.phaseInProgress = some .startCond ∧ Phase.startCond.admits .nack = false :=
  ⟨rfl, by decide, by decide⟩
theorem wit_ResetWorksInEveryState : (withAgenda (busy 0x831135#24 1#3 .idle) [.reset]).agenda = .reset :: [] := rfl
theorem wit_PowerLossKeepsStorage : (withAgenda storing [.powerCycle]).agenda = .powerCycle :: [] ∧
    (6#11 : Address) ≠ (withAgenda storing [.powerCycle]).dev.wAddr ∧
    (withAgenda State.reset [.powerCycle]).agenda = .powerCycle :: [] ∧
    (withAgenda State.reset [.powerCycle]).dev.wbusy = false := ⟨rfl, by decide, rfl, rfl⟩

/-! ## Witnesses: the invariant -/

/-- The device's bytes of a small state are in canonical form. -/
theorem wf_empty : Memory.wf [] := ⟨List.Pairwise.nil, fun _ h => nomatch h⟩
/-- A write transaction at its last step is in good order. -/
theorem inv_lastStep : (busy 0x831135#24 5#3 .mt).Inv where
  twm := ⟨fun h => (nomatch h), fun _ => by decide, fun _ => ⟨rfl, rfl⟩, fun h => (nomatch h), by decide⟩
  tks := ⟨fun _ => rfl, fun h => (nomatch h), Nat.le_trans (Nat.le_of_eq BitVec.toNat_zero) (Nat.zero_le _)⟩
  fault := by decide
  mem := wf_empty
/-- A transaction just accepted is in good order. -/
theorem inv_firstStep : (busy 0x831135#24 1#3 .idle).Inv where
  twm := ⟨fun h => (nomatch h), fun _ => by decide, fun _ => ⟨rfl, rfl⟩, fun h => (nomatch h), by decide⟩
  tks := ⟨fun _ => rfl, fun h => (nomatch h), Nat.le_trans (Nat.le_of_eq BitVec.toNat_zero) (Nat.zero_le _)⟩
  fault := by decide
  mem := wf_empty
theorem inv_agenda {s : State} (es : List Event) (h : s.Inv) : (withAgenda s es).Inv := ⟨h.twm, h.tks, h.fault, h.mem⟩
theorem wit_StepKeepsInvariant : (withAgenda (busy 0x831135#24 1#3 .idle) [.env .startOk]).Inv ∧
    ∃ t, step (withAgenda (busy 0x831135#24 1#3 .idle) [.env .startOk]) = .next t ∧ t.twm.seq = 2#3 :=
  ⟨inv_agenda _ inv_firstStep, _, rfl, by decide⟩
theorem wit_SequencerMovesByOneOrToZero : (busy 0x831135#24 5#3 .mt).Inv ∧
    (∃ t, perform (.env .done) (busy 0x831135#24 5#3 .mt) = .next t) ∧
    (busy 0x831135#24 5#3 .mt).twm.seq.toNat = (txnSteps (busy 0x831135#24 5#3 .mt).twm.cmdr).length ∧
    (busy 0x831135#24 5#3 .mt).twm.seq ≠ 0#3 := ⟨inv_lastStep, ⟨_, rfl⟩, by decide, by decide⟩
theorem wit_BusCommandEndsWithinSevenAnswers : (busy 0x831135#24 1#3 .idle).Inv ∧
    7 ≤ [PhaseOutcome.startOk, .ack, .ack, .ack, .done, .done, .done].length ∧
    ∃ t, envAnswers [.startOk, .ack, .ack, .ack, .done, .done, .done] (busy 0x831135#24 1#3 .idle) = .next t :=
  ⟨inv_firstStep, by decide, _, rfl⟩

/-! ## Witnesses: faults, acceptance, frames -/

theorem wit_FaultChecksInOrder : wordWellFormed 0x000000#24 = false ∧ Instr.start.isBus = true ∧
    (sched true true false true).tks.insvc = true ∧
    (busy 0x100000#24 0#3 .idle).tks.insvc = false ∧ (busy 0x100000#24 0#3 .idle).twm.ready = false ∧
    (atPh .idle).acceptsBus ∧ (atPh .idle).twm.ph = .idle ∧ (atPh .mr).acceptsBus ∧ (atPh .mr).twm.ph = .mr ∧
    (atPh .mt).acceptsBus ∧ (atPh .mt).twm.ph ≠ .mr ∧ (atPh .addr).acceptsBus ∧ (atPh .addr).twm.ph ≠ .mr ∧
    (sched true true false false).tks.run = true ∧ (sched true true false false).tks.insvc = false :=
  ⟨by decide, rfl, rfl, rfl, rfl, ⟨rfl, rfl⟩, rfl, ⟨rfl, rfl⟩, rfl, ⟨rfl, rfl⟩, by decide, ⟨rfl, rfl⟩, by decide, rfl, rfl⟩
theorem wit_FaultIsSticky : (∀ e ∈ [Event.timerClock, .command 0x000000#24], e.keepsPower = true) ∧ faulted.fault ≠ 0#3 ∧
    ∃ t, performAll [.timerClock, .command 0x000000#24] faulted = .next t := ⟨by decide, by decide, _, rfl⟩
theorem wit_DutifulHostRaisesNoFault_stop : keepsDuties .stop (atPh .addr) ∧ (atPh .addr).fault = 0#3 := by
  simp [keepsDuties, Instr.isBus, atPh, State.reset, Twm.atReset, Tks.atReset]
theorem wit_DutifulHostRaisesNoFault_writeb : keepsDuties (.writeb 0x00#8) (atPh .mt) ∧ (atPh .mt).fault = 0#3 := by
  simp [keepsDuties, Instr.isBus, atPh, State.reset, Twm.atReset, Tks.atReset]
theorem wit_DutifulHostRaisesNoFault_rdack : keepsDuties .rdack (atPh .mr) ∧ (atPh .mr).fault = 0#3 := by
  simp [keepsDuties, Instr.isBus, atPh, State.reset, Twm.atReset, Tks.atReset]
theorem wit_DutifulHostRaisesNoFault_tstart : keepsDuties .tstart (sched false true false false) ∧
    (sched false true false false).fault = 0#3 := by
  simp [keepsDuties, Instr.isBus, sched, State.reset, Tks.atReset]
theorem wit_DutifulHostRaisesNoFault_tret : keepsDuties .tret (sched true true false true) ∧
    (sched true true false true).fault = 0#3 := by
  simp [keepsDuties, Instr.isBus, sched, State.reset, Tks.atReset]
theorem wit_DutifulHostRaisesNoFault_tseth : keepsDuties (.tseth 0#16) (sched false true false false) ∧
    (sched false true false false).fault = 0#3 := by
  simp [keepsDuties, Instr.isBus, sched, State.reset, Tks.atReset]
theorem wit_CommandFrame_bus : ∃ t, exec .start (atPh .idle) = .next t ∧ Instr.start.isBus = true := ⟨_, rfl, rfl⟩
theorem wit_CommandFrame_tick : ∃ t, exec .tstart (atPh .idle) = .next t ∧ Instr.tstart.isBus = false ∧
    (∀ a d, Instr.tstart ≠ .wrtxn a d) ∧ ∀ a, Instr.tstart ≠ .rdtxn a :=
  ⟨_, rfl, rfl, (fun _ _ h => nomatch h), (fun _ h => nomatch h)⟩
theorem wit_CommandFrame_status : ∃ t, exec .status (atPh .idle) = .next t := ⟨_, rfl⟩
theorem wit_CommandFrame_fault : ∃ t, exec .stop (atPh .idle) = .next t ∧ t.fault ≠ (atPh .idle).fault :=
  ⟨_, rfl, by decide⟩
theorem wit_PhaseFrame_primitive : (∃ t, envAnswer .startOk (busy 0x100000#24 0#3 .idle) = .next t) ∧
    (busy 0x100000#24 0#3 .idle).twm.seq = 0#3 ∧
    ∀ k v, ¬ ((busy 0x100000#24 0#3 .idle).twm.phaseInProgress = some (.byteIn k) ∧ PhaseOutcome.startOk = .byte v) :=
  ⟨⟨_, rfl⟩, rfl, fun _ _ h => nomatch h.2⟩
theorem wit_PhaseFrame_idle : (∃ t, envAnswer .done (atPh .idle) = .next t) ∧
    (atPh .idle).twm.phaseInProgress = none := ⟨⟨_, rfl⟩, by decide⟩

/-! ## Witnesses: primitives -/

/-- `StartEffect`, `StatusEffect` and the hypotheses shared by the other primitives. -/
theorem wit_StartEffect : (atPh .idle).acceptsBus ∧ (atPh .idle).twm.seq = 0#3 ∧ 0xF8#8 ∉ Config.SIX ∧
    (sched true true false true).tks.insvc = true ∧ (busy 0x100000#24 0#3 .idle).tks.insvc = false ∧
    (busy 0x100000#24 0#3 .idle).twm.ready = false ∧ ¬ (busy 0x100000#24 0#3 .idle).acceptsBus :=
  ⟨⟨rfl, rfl⟩, rfl, by decide, rfl, rfl, rfl, fun h => nomatch h.2⟩
theorem wit_StopEffect : (atPh .addr).acceptsBus ∧ (atPh .addr).twm.seq = 0#3 ∧ (atPh .addr).twm.ph ≠ .idle ∧
    (atPh .mt).twm.ph ≠ .idle ∧ (atPh .mr).twm.ph ≠ .idle ∧ (atPh .idle).acceptsBus ∧
    ((atPh .idle).twm.ph != .idle) = false := ⟨⟨rfl, rfl⟩, rfl, by decide, by decide, by decide, ⟨rfl, rfl⟩, by decide⟩
theorem wit_WritebEffect : (atPh .addr).acceptsBus ∧ (atPh .addr).twm.seq = 0#3 ∧ (atPh .addr).twm.ph = .addr ∧
    (0xA6#8).getLsbD 0 = false ∧ (0xA7#8).getLsbD 0 = true ∧ (0x00#8).getLsbD 0 = false ∧ (0xFF#8).getLsbD 0 = true ∧
    (atPh .mt).acceptsBus ∧ (atPh .mt).twm.ph = .mt ∧ 0x00#8 ∉ Config.SIX :=
  ⟨⟨rfl, rfl⟩, rfl, rfl, by decide, by decide, by decide, by decide, ⟨rfl, rfl⟩, rfl, by decide⟩
/-- `RdackEffect` and `RdnackEffect`. -/
theorem wit_RdackEffect : (atPh .mr).acceptsBus ∧ (atPh .mr).twm.seq = 0#3 ∧ (atPh .mr).twm.ph = .mr ∧
    0xFF#8 ∉ Config.SIX ∧ ((atPh .mt).twm.ph == .mr) = false := ⟨⟨rfl, rfl⟩, rfl, rfl, by decide, by decide⟩

/-! ## Witnesses: transactions -/

/-- `WrtxnSucceeds`, `WrtxnFailureTable`, `RdtxnSucceeds`, `RdtxnFailureTable`, `StopOfTransactionNotVerified`,
`TransactionsEqualHandBuiltSequences`. -/
theorem wit_Transactions : (atPh .idle).acceptsBus ∧ (atPh .idle).twm.ph = .idle ∧ (atPh .idle).twm.seq = 0#3 ∧
    0x00#8 ∉ Config.SIX ∧ 0xFF#8 ∉ Config.SIX := ⟨⟨rfl, rfl⟩, rfl, rfl, by decide, by decide⟩
theorem wit_HeldBusTransactionFailsAtStepOne : (∃ a d, Instr.wrtxn 0x311#11 0x35#8 = .wrtxn a d) ∧
    (∃ a, Instr.rdtxn 0x311#11 = .rdtxn a) ∧ (atPh .mt).acceptsBus ∧ (atPh .mt).twm.ph ≠ .idle ∧ 0xF8#8 ∉ Config.SIX :=
  ⟨⟨_, _, rfl⟩, ⟨_, rfl⟩, ⟨rfl, rfl⟩, by decide, by decide⟩
theorem wit_MismatchAborts_fails : (busy 0x831135#24 2#3 .addr).twm.phaseInProgress = some (.byteOut 0xA6#8) ∧
    (busy 0x831135#24 2#3 .addr).twm.currentStep = some ⟨.byteOut 0xA6#8, some 0x18#8⟩ ∧
    (Phase.byteOut 0xA6#8).admits (.abnormal 0xF8#8) = true ∧
    statusAfter (.byteOut 0xA6#8) (busy 0x831135#24 2#3 .addr).twm.ph (.abnormal 0xF8#8) ≠ 0x18#8 := by decide
theorem wit_MismatchAborts_passes : (Phase.byteOut 0xA6#8).admits .ack = true ∧
    statusAfter (.byteOut 0xA6#8) (busy 0x831135#24 2#3 .addr).twm.ph .ack = 0x18#8 := by decide
theorem wit_SixCodes : (Phase.byteIn .nack).allowedIn .mr = true ∧ (Phase.byteIn .nack).admits (.byte 0#8) = true ∧
    (Phase.stopCond).allowedIn .mt = true ∧ (Phase.stopCond).admits .done = true := by decide
theorem wit_TransactionIndependentOfTicks :
    (∀ e ∈ [Event.timerClock, .env .startOk, .command 0xE00000#24, .dispatch], e.isEnv = true ∨ e.isTick = true) ∧
    ∃ t, performAll [.timerClock, .env .startOk, .command 0xE00000#24, .dispatch] (busy 0x831135#24 1#3 .idle) = .next t :=
  ⟨by decide, _, rfl⟩
theorem wit_HangLasts : (busy 0x831135#24 1#3 .idle).twm.ready = false ∧
    (∀ e ∈ [Event.command 0x100000#24, .timerClock, .delay], e.endsWait = false) ∧
    ∃ t, performAll [.command 0x100000#24, .timerClock, .delay] (busy 0x831135#24 1#3 .idle) = .next t :=
  ⟨rfl, by decide, _, rfl⟩
/-- A failure at step 2, and one at step 1 with the bus held before. -/
theorem wit_RecoveryRecipeNeverFaults : (atPh .idle).acceptsBus ∧ (atPh .mr).acceptsBus ∧
    (∃ t u, exec (.wrtxn 0x311#11 0x35#8) (atPh .idle) = .next t ∧ envAnswers [.startOk, .abnormal 0xF8#8] t = .next u ∧
      u.twm.ready = true ∧ u.twm.ok = false ∧ ¬ (u.twm.fstep = 1#3 ∧ u.twm.status ≠ 0x10#8)) ∧
    (∃ t u, exec (.rdtxn 0x311#11) (atPh .mr) = .next t ∧ envAnswers [.startOk] t = .next u ∧
      u.twm.ready = true ∧ u.twm.ok = false ∧ ¬ (u.twm.fstep = 1#3 ∧ u.twm.status ≠ 0x10#8)) :=
  ⟨⟨rfl, rfl⟩, ⟨rfl, rfl⟩, ⟨_, _, rfl, rfl, rfl, rfl, by decide⟩, ⟨_, _, rfl, rfl, rfl, rfl, by decide⟩⟩

/-! ## Witnesses: the scheduler -/

/-- `TsethEffect`, `TretEffect`: each clause. -/
theorem wit_TsethEffect_TretEffect : (sched true true false false).tks.run = true ∧
    (sched false true false false).tks.run = false ∧ (sched true true false false).tks.insvc = false ∧
    (sched true true false true).tks.insvc = true := ⟨rfl, rfl, rfl, rfl⟩
theorem wit_TimerClockEffect_stopped : (withAgenda State.reset [.timerClock]).agenda = .timerClock :: [] ∧
    State.reset.tks.cnt.toNat ≤ Config.T_TOP.toNat ∧ State.reset.tks.run = false :=
  ⟨rfl, Nat.le_trans (Nat.le_of_eq BitVec.toNat_zero) (Nat.zero_le _), rfl⟩
/-- The scheduler running, at the compare value. -/
def atTop : State := { State.reset with
  tks := { (sched true true false false).tks with cnt := Config.T_TOP }, agenda := [.timerClock] }
theorem wit_TimerClockEffect_match : atTop.agenda = .timerClock :: [] ∧ atTop.tks.cnt.toNat ≤ Config.T_TOP.toNat ∧
    atTop.tks.run = true ∧ atTop.tks.cnt = Config.T_TOP := ⟨rfl, Nat.le_refl _, rfl, rfl⟩
/-- The count below the compare value: such a state exists unless `T_TOP`, which the spec leaves open, is 0. -/
theorem wit_TimerClockEffect_count (h : Config.T_TOP ≠ 0#_) :
    (withAgenda (sched true true false false) [.timerClock]).tks.cnt.toNat ≤ Config.T_TOP.toNat ∧
    (withAgenda (sched true true false false) [.timerClock]).tks.run = true ∧
    (withAgenda (sched true true false false) [.timerClock]).tks.cnt ≠ Config.T_TOP :=
  ⟨Nat.le_trans (Nat.le_of_eq BitVec.toNat_zero) (Nat.zero_le _), rfl, fun e => h e.symm⟩
theorem wit_DispatchEffect : (withAgenda (sched true true true false) [.dispatch]).agenda = .dispatch :: [] ∧
    (sched true true true false).tks.pend = true ∧ (sched true true true false).tks.insvc = false ∧
    (sched true true true true).tks.insvc = true ∧ (sched true true false false).tks.pend = false :=
  ⟨rfl, rfl, rfl, rfl, rfl⟩
theorem wit_NoHandlerRunAfterStop :
    (∀ w, Event.command w ∈ [Event.timerClock, .dispatch, .command 0xC00D01#24] → decode w ≠ .command .tstart) ∧
    ∃ t u, exec .tstop (sched true true true false) = .next t ∧
      performAll [.timerClock, .dispatch, .command 0xC00D01#24] t = .next u := by
  refine ⟨fun w h => ?_, _, _, rfl, rfl⟩
  simp only [List.mem_cons, reduceCtorEq, Event.command.injEq, List.not_mem_nil, or_false, false_or] at h
  subst h
  decide

/-! ## Witnesses: the device and the client -/

theorem wit_DeviceTransactionEffect : (atPh .idle).acceptsBus ∧ (atPh .idle).twm.ph = .idle ∧
    (atPh .idle).dev.wbusy = false ∧ storing.acceptsBus ∧ storing.twm.ph = .idle ∧ storing.dev.wbusy = true :=
  ⟨⟨rfl, rfl⟩, rfl, rfl, ⟨rfl, rfl⟩, rfl, rfl⟩
/-- A stop with a byte latched. -/
def latched : State := { busy 0x831135#24 5#3 .mt with
  dev := { State.reset.dev with mode := .dpend, ptr := 0x311#11, latch := 0x35#8 } }
theorem wit_DeviceStoresOnlyAtStop : (∃ t, devAnswer latched = .next t) ∧
    latched.twm.phaseInProgress = some .stopCond ∧ latched.dev.mode = .dpend ∧ (0x310#11 : Address) ≠ latched.dev.ptr ∧
    (∃ t, devAnswer (busy 0x831135#24 1#3 .idle) = .next t) ∧
    (busy 0x831135#24 1#3 .idle).twm.phaseInProgress ≠ some .stopCond ∧
    ¬ ((busy 0x831135#24 1#3 .idle).twm.phaseInProgress = some .stopCond ∧ (busy 0x831135#24 1#3 .idle).dev.mode = .dpend) ∧
    (∃ t, devAnswer State.reset = .next t) ∧ State.reset.twm.phaseInProgress = none :=
  ⟨⟨_, rfl⟩, by decide, rfl, by decide, ⟨_, rfl⟩, by decide, by decide, ⟨_, rfl⟩, by decide⟩
theorem wit_ReadAfterWriteUnderDevice : State.reset.acceptsBus ∧
    ∃ t u v, issueUnderDev (.wrtxn 0x311#11 0x35#8) State.reset = .next t ∧ t.twm.ok = true ∧
      issueSpaced [.wrtxn 0x312#11 0x00#8, .rdtxn 0x311#11] (delay t) = .next u ∧
      issueUnderDev (.rdtxn 0x311#11) u = .next v ∧ v.twm.ok = true :=
  ⟨⟨rfl, rfl⟩, _, _, _, rfl, rfl, rfl, rfl, rfl⟩
theorem wit_layout : layout.wf := by decide
/-- The largest base the layout allows, with the flag just below it, and the flag just above the credential. -/
theorem wit_layout_corners : Config.Layout.wf ⟨0x7FB#11, 0x7FA#11, 0xA5#8, 0x5A#8⟩ ∧
    Config.Layout.wf ⟨0x000#11, 0x005#11, 0x00#8, 0xFF#8⟩ := by decide
theorem wit_CredentialWriteThenRead : layout.wf ∧ State.reset.acceptsBus ∧ State.reset.twm.ph = .idle ∧
    State.reset.dev.wbusy = false := ⟨wit_layout, ⟨rfl, rfl⟩, rfl, rfl⟩
theorem wit_PresenceFlag_written : layout.wf ∧ State.reset.acceptsBus ∧
    (∀ x ∈ List.replicate 6 Slot.ofDev, ∀ e ∈ x.wait ++ x.pause, e.deniesOnly = true) ∧
    ∃ t, credWrite layout credential (List.replicate 6 Slot.ofDev) State.reset = .next (t, .success ()) ∧ t.twm.ph = .idle :=
  ⟨wit_layout, ⟨rfl, rfl⟩, by decide, _, rfl, rfl⟩
/-- The sixth write's stop ends abnormally. -/
def lastStopAbnormal : List Slot :=
  List.replicate 5 Slot.ofDev ++ [⟨[.dev, .dev, .dev, .dev, .env (.abnormal 0xF8#8)], []⟩]
theorem wit_PresenceFlag_heldBus : (∀ x ∈ lastStopAbnormal, ∀ e ∈ x.wait ++ x.pause, e.deniesOnly = true) ∧
    ∃ t, credWrite layout credential lastStopAbnormal State.reset = .next (t, .success ()) ∧ t.twm.ph = .mt :=
  ⟨by decide, _, rfl, rfl⟩
/-- The third write's data byte ends abnormally, with events of the scheduler on the way. -/
def thirdFails : List Slot := [.ofDev, .ofDev,
  ⟨[.dev, .timerClock, .dispatch, .command 0xF00000#24, .dev, .dev, .env (.abnormal 0xF8#8)], []⟩]
theorem wit_PresenceFlag_failed : (∀ x ∈ thirdFails, ∀ e ∈ x.wait ++ x.pause, e.deniesOnly = true) ∧
    ∃ t, credWrite layout credential thirdFails State.reset = .next (t, .failure) := ⟨by decide, _, rfl⟩
theorem wit_PresenceFlag_unfinished : (∀ x ∈ [Slot.ofDev], ∀ e ∈ x.wait ++ x.pause, e.deniesOnly = true) ∧
    ∃ t, credWrite layout credential [Slot.ofDev] State.reset = .next (t, .unfinished) := ⟨by decide, _, rfl⟩
/-- The boundaries of `k` and `j`, and both kinds of failing answer. -/
theorem wit_CredWriteStopsAtEachFailure : State.reset.acceptsBus ∧ State.reset.twm.ph = .idle ∧
    State.reset.dev.wbusy = false ∧ (5 ≤ 5 ∧ 3 ≤ 3) ∧
    ((PhaseOutcome.nack = .nack ∧ 1 ≤ 1) ∨ ∃ x, PhaseOutcome.nack = .abnormal x ∧ x ∉ Config.SIX) ∧
    ((PhaseOutcome.abnormal 0x00#8 = .nack ∧ 1 ≤ 0) ∨ ∃ x, PhaseOutcome.abnormal 0x00#8 = .abnormal x ∧ x ∉ Config.SIX) :=
  ⟨⟨rfl, rfl⟩, rfl, rfl, by decide, .inl ⟨rfl, by decide⟩, .inr ⟨_, rfl, by decide⟩⟩
theorem wit_CredReadStopsAtEachFailure : State.reset.acceptsBus ∧ State.reset.twm.ph = .idle ∧
    State.reset.dev.wbusy = false ∧ (4 ≤ 4 ∧ 5 ≤ 5) ∧
    ((PhaseOutcome.nack = .nack ∧ (4 = 1 ∨ 4 = 2 ∨ 4 = 4)) ∨ ∃ x, PhaseOutcome.nack = .abnormal x ∧ x ∉ Config.SIX) ∧
    ((PhaseOutcome.abnormal 0xFF#8 = .nack ∧ (5 = 1 ∨ 5 = 2 ∨ 5 = 4)) ∨
      ∃ x, PhaseOutcome.abnormal 0xFF#8 = .abnormal x ∧ x ∉ Config.SIX) :=
  ⟨⟨rfl, rfl⟩, rfl, rfl, by decide, .inl ⟨rfl, by decide⟩, .inr ⟨_, rfl, by decide⟩⟩
theorem wit_HasCredComparesFlag : State.reset.acceptsBus ∧ State.reset.twm.ph = .idle ∧ State.reset.dev.wbusy = false :=
  ⟨⟨rfl, rfl⟩, rfl, rfl⟩
/-- 30_encoding.md R113: the fifth read's device select is refused: `CRED_READ` stops with failure at step 5 of `RDTXN`. -/
theorem test_credRead_fifth_fails : ∃ t, credRead layout
    (List.replicate 4 devAnswersAll ++ [[.dev, .dev, .dev, .dev, .env (.abnormal 0xF8#8)]]) State.reset =
      .next (t, .failure) ∧ t.twm.fstep = 5#3 := ⟨_, rfl, rfl⟩
theorem wit_DelayEndsWriteBusy : (withAgenda storing [.delay]).agenda = .delay :: [] ∧
    (withAgenda storing [.delay]).acceptsBus ∧ ¬ (withAgenda (sched true true false true) [.delay]).acceptsBus ∧
    (withAgenda storing [.settle]).agenda = .settle :: [] := ⟨rfl, ⟨rfl, rfl⟩, (fun h => nomatch h.1), rfl⟩

end Sys2Proof.Tests
end

/-! A run of the machine and its agenda (spec 00_scope.md R5, R6; log 1). A step puts the rest of the agenda into the state it
leaves, where `performAll` holds that rest beside the state; that `perform` does not look at the agenda (`perform_agenda`)
makes the two agree, a stop included. -/

namespace Sys2Proof.Machine

/-- The host's run of this machine, with the types of `step` and `performAll` in place of the fields of `core`. -/
def coreRun : Nat → State → Host.Outcome State Fault Refusal := Host.Core.run core

/-- One more step of a run is a step and then the run from where it leads, if it leads anywhere. -/
theorem coreRun_succ (k : Nat) (s : State) : coreRun (k + 1) s = andThen (step s) (coreRun k) := by
  have hstep : core.step s = step s := rfl
  cases h : step s <;> simp only [coreRun, Host.Core.run, hstep, h, andThen] <;> rfl

/-- A step performs the first event scheduled and leaves the others scheduled. -/
theorem step_scheduled (e : Event) (es : List Event) (s : State) :
    step { s with agenda := e :: es } = andThen (perform e s) fun t => .next { t with agenda := es } := by
  rw [step_cons rfl]; exact perform_agenda e s es

/-- With nothing scheduled, the first event of a list is performed and then the rest, again with nothing scheduled. -/
theorem performAll_cons_unscheduled (e : Event) (es : List Event) (s : State) :
    performAll (e :: es) { s with agenda := [] } =
      andThen (perform e s) fun t => performAll es { t with agenda := [] } := by
  simp only [performAll, perform_agenda, andThen_assoc, andThen_of_next]

/-- As many steps as events are scheduled perform these events, whatever else the state holds. -/
theorem coreRun_scheduled (es : List Event) : ∀ s : State,
    coreRun es.length { s with agenda := es } = performAll es { s with agenda := [] } := by
  induction es with
  | nil => intro s; rfl
  | cons e es ih =>
    intro s
    rw [List.length_cons, coreRun_succ, step_scheduled, andThen_assoc, performAll_cons_unscheduled]
    exact congrArg (andThen (perform e s)) (funext ih)

/-- Settles O6, by induction on the agenda with the rest of the state arbitrary. -/
theorem runPerformsAgenda : Obligations.RunPerformsAgenda :=
  fun s => coreRun_scheduled s.agenda s

end Sys2Proof.Machine

/-! How one event moves the state (spec 10_state.md R20 to R38), said once: every event moves each sub-block's registers by one
of a few named moves. The invariant (R24, R27, R176) and the movement of `SEQ` (R24) follow from the moves alone. -/

namespace Sys2Proof.Machine

/-! ## The moves -/

/-- What one event can do to the bus engine. -/
inductive Twm.Moves (b : Twm) : Twm → Prop where
  | stay : Twm.Moves b b
  /-- a reset of the block (R221) -/
  | reset (d : Nat) : Twm.Moves b (Twm.atReset d)
  /-- the phase in progress completes (R121) -/
  | complete {x : Phase} {o : PhaseOutcome} (hx : b.phaseInProgress = some x) (ho : x.admits o = true) :
      Twm.Moves b (b.finishPhase x o)
  /-- a primitive is accepted and its phase begins (R120, R129) -/
  | primitive {w : CommandWord} {x : Phase} (hr : b.ready = true) (hx : primitivePhase w = some x)
      (ha : x.allowedIn b.ph = true) : Twm.Moves b (b.accept w)
  /-- a transaction is accepted and its start begins (R143, R146) -/
  | transaction {w : CommandWord} (hr : b.ready = true)
      (hw : (txnSteps w)[0]? = some ⟨.startCond, some Config.ST_START⟩) : Twm.Moves b (b.acceptTxn w)

/-- What one event can do to the tick scheduler. -/
inductive Tks.Moves (t : Tks) : Tks → Prop where
  | stay : Tks.Moves t t
  /-- a reset of the block (R221) -/
  | reset (d : Nat) : Tks.Moves t (Tks.atReset d)
  | register (h : Token) : Tks.Moves t (t.register h)
  | start : Tks.Moves t t.start
  | stop : Tks.Moves t t.stop
  | clock : Tks.Moves t t.clock
  | enter : Tks.Moves t t.enterHandler
  | leave : Tks.Moves t t.leaveHandler

/-- What one event can do to `FAULT`. -/
inductive FaultMoves (n : BitVec 3) : BitVec 3 → Prop where
  | stay : FaultMoves n n
  /-- a reset of the block (R221) -/
  | reset : FaultMoves n 0#3
  /-- a cause is recorded (R196) -/
  | record (c : Cause) : FaultMoves n c.code

/-- What one event can do to the device's bytes. -/
inductive Memory.Moves (m : Memory) : Memory → Prop where
  | stay : Memory.Moves m m
  /-- a stop stores a byte (R79), or a loss of power damages one (R83) -/
  | store (a : Address) (v : Byte) : Memory.Moves m (m.write a v)

/-- What one event can do to the registers and to the device's bytes. -/
structure State.Moves (s t : State) : Prop where
  twm : s.twm.Moves t.twm
  tks : s.tks.Moves t.tks
  fault : FaultMoves s.fault t.fault
  mem : s.dev.mem.Moves t.dev.mem

/-! ## Every event is a move -/

theorem raise_moves (c : Cause) (s : State) : s.Moves (s.raise c) := by
  refine ⟨.stay, .stay, ?_, .stay⟩
  rw [State_raise_fault]
  split
  · exact .record c
  · exact .stay

/-- Acceptance moves the bus engine as the accepted command does, or records a cause. -/
theorem acceptBus_moves {allowed : Bool} {f : Twm → Twm} {s : State}
    (hf : s.twm.ready = true → allowed = true → s.twm.Moves (f s.twm)) : s.Moves (acceptBus allowed f s) := by
  rcases acceptBus_cases allowed f s with ⟨-, h⟩ | ⟨-, -, h⟩ | ⟨-, -, -, h⟩ | ⟨-, hr, ha, h⟩ <;> rw [h]
  · exact raise_moves .ctx s
  · exact raise_moves .overlap s
  · exact raise_moves .phase s
  · exact ⟨hf hr ha, .stay, .stay, .stay⟩

theorem acceptPrimitive_moves {w : CommandWord} {x : Phase} (hx : primitivePhase w = some x) (s : State) :
    s.Moves (acceptBus (x.allowedIn s.twm.ph) (Twm.accept w) s) :=
  acceptBus_moves fun hr ha => .primitive hr hx ha

theorem acceptTransaction_moves {w : CommandWord}
    (hw : (txnSteps w)[0]? = some ⟨.startCond, some Config.ST_START⟩) (s : State) :
    s.Moves (acceptBus true (Twm.acceptTxn w) s) :=
  acceptBus_moves fun hr _ => .transaction hr hw

theorem exec_moves (i : Instr) (s : State) : ∃ t, exec i s = .next t ∧ s.Moves t := by
  cases i with
  | start => exact ⟨_, rfl, acceptPrimitive_moves primitivePhase_start s⟩
  | stop => exact ⟨_, rfl, acceptPrimitive_moves primitivePhase_stop s⟩
  | writeb d => exact ⟨_, rfl, acceptPrimitive_moves (primitivePhase_writeb d) s⟩
  | rdack => exact ⟨_, rfl, acceptPrimitive_moves primitivePhase_rdack s⟩
  | rdnack => exact ⟨_, rfl, acceptPrimitive_moves primitivePhase_rdnack s⟩
  | status => exact ⟨_, rfl, acceptBus_moves fun _ _ => .stay⟩
  | wrtxn a d => exact ⟨_, rfl, acceptTransaction_moves (by rw [txnSteps_wrtxn]; rfl) s⟩
  | rdtxn a => exact ⟨_, rfl, acceptTransaction_moves (by rw [txnSteps_rdtxn]; rfl) s⟩
  | tseth h =>
    refine ⟨_, rfl, ?_⟩
    split
    · exact raise_moves .rearm s
    · exact ⟨.stay, .register h, .stay, .stay⟩
  | tstart => exact ⟨_, rfl, .stay, .start, .stay, .stay⟩
  | tstop => exact ⟨_, rfl, .stay, .stop, .stay, .stay⟩
  | tret =>
    refine ⟨_, rfl, ?_⟩
    split
    · exact raise_moves .tret s
    · exact ⟨.stay, .leave, .stay, .stay⟩

theorem presentWord_moves (w : CommandWord) (s : State) : ∃ t, presentWord w s = .next t ∧ s.Moves t := by
  cases hd : decode w with
  | command i => rw [presentWord_legal hd]; exact exec_moves i s
  | illegal r => exact ⟨_, presentWord_illegal hd s, raise_moves .illegal s⟩

theorem envAnswer_moves {o : PhaseOutcome} {s t : State} (h : envAnswer o s = .next t) : s.Moves t := by
  rcases envAnswer_next h with ⟨-, rfl⟩ | ⟨x, hx, ho, rfl⟩
  · exact ⟨.stay, .stay, .stay, .stay⟩
  · exact ⟨.complete hx ho, .stay, .stay, .stay⟩

theorem Dev.respond_mem_moves (x : Phase) (ph : PH) (d : Dev) (n : Nat) :
    d.mem.Moves (d.respond x ph n).dev.mem := by
  rw [Dev.respond_mem]
  split
  · exact .store d.ptr d.latch
  · exact .stay

theorem devAnswer_moves (s : State) : ∃ t, devAnswer s = .next t ∧ s.Moves t := by
  cases hx : s.twm.phaseInProgress with
  | none => exact ⟨s, devAnswer_idle hx, .stay, .stay, .stay, .stay⟩
  | some x =>
    exact ⟨_, devAnswer_busy hx, .complete hx (Dev.respond_admitted _ _ _ _), .stay, .stay,
      Dev.respond_mem_moves _ _ _ _⟩

theorem Tks.dispatch_moves (t : Tks) : t.Moves t.dispatch := by
  cases h : t.irq
  · rw [dispatch_disabled h]; exact .stay
  · rw [dispatch_enabled h]; exact .enter

theorem delay_moves (s : State) : s.Moves (delay s) := by
  cases h : s.mainMoves
  · rw [delay_waits h]; exact ⟨.stay, .stay, .stay, .stay⟩
  · rw [delay_mainMoves h]; exact ⟨.stay, .stay, .stay, .stay⟩

theorem Dev.powerCycle_mem_moves (d : Dev) (n : Nat) : d.mem.Moves (d.powerCycle n).mem := by
  simp only [Dev.powerCycle]
  split
  · exact .store d.wAddr (Config.freeStored n)
  · exact .stay

/-- Every event that answers a next state is one of the moves. -/
theorem perform_moves {e : Event} {s t : State} (h : perform e s = .next t) : s.Moves t := by
  cases e with
  | command w =>
    obtain ⟨u, hu, hm⟩ := presentWord_moves w s
    cases hu.symm.trans h
    exact hm
  | env o => exact envAnswer_moves h
  | dev =>
    obtain ⟨u, hu, hm⟩ := devAnswer_moves s
    cases hu.symm.trans h
    exact hm
  | timerClock => cases h; exact ⟨.stay, .clock, .stay, .stay⟩
  | dispatch => cases h; exact ⟨.stay, s.tks.dispatch_moves, .stay, .stay⟩
  | settle => cases h; exact ⟨.stay, .stay, .stay, .stay⟩
  | delay => cases h; exact delay_moves s
  | reset => cases h; exact ⟨.reset s.draws, .reset s.draws, .reset, .stay⟩
  | powerCycle => cases h; exact ⟨.reset s.draws, .reset s.draws, .reset, s.dev.powerCycle_mem_moves s.draws⟩

/-! ## Every move of the bus engine keeps its good order -/

theorem Twm.atReset_good (d : Nat) : (Twm.atReset d).Good where
  idle _ := rfl
  busy h := nomatch h
  running h := absurd rfl h
  passed _ := rfl
  step := (by decide : 0#3 ≠ 7#3)

theorem Twm.accept_good {b : Twm} (hg : b.Good) (hr : b.ready = true) {w : CommandWord} {x : Phase}
    (hx : primitivePhase w = some x) (ha : x.allowedIn b.ph = true) : (b.accept w).Good where
  idle h := nomatch h
  busy _ h := by rw [accept_phaseInProgress (hg.idle hr) hx ha] at h; cases h
  running h := absurd (hg.idle hr) h
  passed := hg.passed
  step := hg.step

theorem Twm.acceptTxn_good (b : Twm) {w : CommandWord}
    (hw : (txnSteps w)[0]? = some ⟨.startCond, some Config.ST_START⟩) : (b.acceptTxn w).Good where
  idle h := nomatch h
  busy _ h := by rw [phaseInProgress_step (b := b.acceptTxn w) rfl rfl hw rfl] at h; cases h
  running _ := ⟨rfl, rfl⟩
  passed _ := rfl
  step := (by decide : 0#3 ≠ 7#3)

theorem Twm.Moves.good {b b' : Twm} (h : b.Moves b') (hg : b.Good) : b'.Good := by
  cases h with
  | stay => exact hg
  | reset d => exact Twm.atReset_good d
  | complete hx ho => exact finishPhase_good hg hx ho
  | primitive hr hx ha => exact Twm.accept_good hg hr hx ha
  | transaction _ hw => exact b.acceptTxn_good hw

/-! ## Every move of the scheduler keeps R176 (a), (b), (d) -/

theorem count_zero_le : (0#Config.T_W).toNat ≤ Config.T_TOP.toNat :=
  Nat.le_trans (Nat.le_of_eq BitVec.toNat_zero) (Nat.zero_le _)

theorem Tks.atReset_good (d : Nat) : (Tks.atReset d).Good where
  stopped _ := rfl
  pending h := nomatch h
  count := count_zero_le

/-- A count within its bound, on the running timer, is below the compare value or matches it. -/
theorem Tks.Good.count_cases {t : Tks} (h : t.Good) :
    t.cnt.toNat < Config.T_TOP.toNat ∨ t.cnt = Config.T_TOP :=
  (Nat.lt_or_eq_of_le h.count).imp_right BitVec.eq_of_toNat_eq

theorem Tks.tick_good {t : Tks} (h : t.Good) (hr : t.run = true) : t.tick.Good := by
  rcases tick_cases t with ⟨-, e⟩ | ⟨hv, e⟩ <;> rw [e]
  · exact h
  · exact ⟨fun k => absurd (hr.symm.trans k) (by decide), fun _ => hv, h.count⟩

theorem Tks.clock_good {t : Tks} (h : t.Good) : t.clock.Good := by
  cases hr : t.run
  · rw [clock_stopped hr]; exact h
  · rcases h.count_cases with hlt | htop
    · obtain ⟨c, hc, e⟩ := clock_count hr hlt
      rw [e]
      exact ⟨h.stopped, h.pending, hc ▸ hlt⟩
    · rw [clock_match hr htop]
      exact Tks.tick_good ⟨h.stopped, h.pending, count_zero_le⟩ hr

theorem Tks.Moves.good {t t' : Tks} (h : t.Moves t') (hg : t.Good) : t'.Good := by
  cases h with
  | stay => exact hg
  | reset d => exact Tks.atReset_good d
  | register h => exact ⟨hg.stopped, fun _ => rfl, hg.count⟩
  | start => exact ⟨(fun h => nomatch h), hg.pending, count_zero_le⟩
  | stop => exact ⟨fun _ => rfl, (fun h => nomatch h), hg.count⟩
  | clock => exact Tks.clock_good hg
  | enter => exact ⟨fun _ => rfl, (fun h => nomatch h), hg.count⟩
  | leave => exact ⟨hg.stopped, hg.pending, hg.count⟩

/-! ## The invariant -/

/-- No cause has the code 7 (R27). -/
theorem Cause.code_ne_seven (c : Cause) : c.code ≠ 7#3 := by cases c <;> decide

theorem FaultMoves.ne_seven {n m : BitVec 3} (h : FaultMoves n m) (hn : n ≠ 7#3) : m ≠ 7#3 := by
  cases h with
  | stay => exact hn
  | reset => decide
  | record c => exact c.code_ne_seven

theorem Memory.Moves.wf {m m' : Memory} (h : m.Moves m') (hm : m.wf) : m'.wf := by
  cases h with
  | stay => exact hm
  | store a v => exact Memory.wf_write a v hm

theorem State.Moves.inv {s t : State} (h : s.Moves t) (hi : s.Inv) : t.Inv where
  twm := h.twm.good hi.twm
  tks := h.tks.good hi.tks
  fault := h.fault.ne_seven hi.fault
  mem := h.mem.wf hi.mem

/-- The invariant says nothing of what is scheduled. -/
theorem State.Inv.withAgenda {s : State} (h : s.Inv) (es : List Event) : State.Inv { s with agenda := es } where
  twm := h.twm
  tks := h.tks
  fault := h.fault
  mem := h.mem

/-- Settles O12: the step is idle or performs the head of the agenda, which is one of the moves. -/
theorem stepKeepsInvariant : Obligations.StepKeepsInvariant := by
  intro s t hi h
  cases ha : s.agenda with
  | nil =>
    cases (step_idle ha).symm.trans h
    exact hi
  | cons e es =>
    rw [step_cons ha] at h
    exact (perform_moves h).inv (hi.withAgenda es)

/-- Settles O11. -/
theorem invariantAtReset : Obligations.InvariantAtReset where
  twm := Twm.atReset_good 0
  tks := Tks.atReset_good 0
  fault := by decide
  mem := reset_memory_wf

/-! ## The sequencer (R24) -/

/-- A move of the bus engine keeps `SEQ`, clears it, or takes it one up, and that not from the last step of a transaction. -/
theorem Twm.Moves.seq_cases {b b' : Twm} (h : b.Moves b') (hg : b.Good) :
    b'.seq = b.seq ∨ b'.seq = 0#3 ∨
      (b'.seq.toNat = b.seq.toNat + 1 ∧ (b.seq.toNat = (txnSteps b.cmdr).length → b.seq = 0#3)) := by
  cases h with
  | stay => exact .inl rfl
  | reset d => exact .inr (.inl rfl)
  | complete hx _ =>
    rcases finishPhase_progress hx with ⟨h0, -⟩ | ⟨hup, hlast, -⟩
    · exact .inr (.inl h0)
    · exact .inr (.inr ⟨hup, fun hl => absurd hl hlast⟩)
  | primitive _ _ _ => exact .inl rfl
  | transaction hr _ => exact .inr (.inr ⟨by rw [hg.idle hr]; rfl, fun _ => hg.idle hr⟩)

/-- Settles O13, by the moves of the bus engine. -/
theorem sequencerMovesByOneOrToZero : Obligations.SequencerMovesByOneOrToZero := by
  intro s t e hi h
  rcases (perform_moves h).twm.seq_cases hi.twm with hk | h0 | ⟨hup, hlast⟩
  · exact ⟨.inl hk, fun _ _ => .inl hk⟩
  · exact ⟨.inr (.inl h0), fun _ _ => .inr h0⟩
  · exact ⟨.inr (.inr hup), fun hl hne => absurd (hlast hl) hne⟩

/-! ## The status codes (R31) -/

/-- The outcomes R121 admits, phase by phase. -/
theorem admits_cases {x : Phase} {o : PhaseOutcome} (h : x.admits o = true) :
    (∃ c, o = .abnormal c ∧ c ∉ Config.SIX) ∨ (x = .startCond ∧ o = .startOk) ∨
    (∃ b, x = .byteOut b ∧ (o = .ack ∨ o = .nack)) ∨ (∃ k v, x = .byteIn k ∧ o = .byte v) ∨
    (x = .stopCond ∧ o = .done) := by
  cases o with
  | abnormal c => exact .inl ⟨c, rfl, by simpa using h⟩
  | _ => cases x <;> simp [Phase.admits] at h ⊢

theorem statusAfter_startOk_mem_six (p : PH) : statusAfter .startCond p .startOk ∈ Config.SIX := by
  rw [statusAfter_startOk]; split <;> decide

theorem statusAfter_ack_mem_six (b : Byte) (p : PH) : statusAfter (.byteOut b) p .ack ∈ Config.SIX := by
  rw [statusAfter_ack]; split_ifs <;> decide

theorem statusAfter_nack_not_mem_six (b : Byte) (p : PH) : statusAfter (.byteOut b) p .nack ∉ Config.SIX := by
  rw [statusAfter_nack]
  split_ifs
  · exact Config.stSlarNack_not_mem
  · exact Config.stSlawNack_not_mem
  · exact Config.stDataNack_not_mem

/-- Settles O32, by the outcomes each phase admits. -/
theorem sixCodesOnlyForTheirOutcomes : Obligations.SixCodesOnlyForTheirOutcomes := by
  intro x p o _ ho
  rcases admits_cases ho with ⟨c, rfl, hc⟩ | ⟨rfl, rfl⟩ | ⟨b, rfl, rfl | rfl⟩ | ⟨k, v, rfl, rfl⟩ | ⟨rfl, rfl⟩
  · exact iff_of_false (by rwa [statusAfter_abnormal]) (by simp)
  · exact iff_of_true (statusAfter_startOk_mem_six p) (.inl rfl)
  · exact iff_of_true (statusAfter_ack_mem_six b p) (.inr (.inl rfl))
  · exact iff_of_false (statusAfter_nack_not_mem_six b p) (by simp)
  · cases k with
    | ack => exact iff_of_false Config.stRxAck_not_mem (by simp)
    | nack => exact iff_of_true (by decide : Config.ST_RX_NACK ∈ Config.SIX) (.inr (.inr ⟨rfl, v, rfl⟩))
  · exact iff_of_false Config.stAfterStop_not_mem (by simp)

/-! ## Steps and reset (R39, R44, R95) -/

/-- Settles O5. -/
theorem stepRunsDecodedCommand : Obligations.StepRunsDecodedCommand :=
  ⟨fun _ _ _ _ ha hd => (step_cons ha).trans (presentWord_legal hd _),
    fun _ _ _ _ ha hd => (step_cons ha).trans (presentWord_illegal hd _), fun _ ha => step_idle ha⟩

/-- Settles O8. -/
theorem resetRegisterValues : Obligations.ResetRegisterValues :=
  ⟨rfl, rfl, rfl, rfl, Config.stReset_not_mem, rfl, rfl, rfl, rfl, rfl, rfl, rfl, BitVec.toNat_zero⟩

end Sys2Proof.Machine

/-! The reference device answer by answer, what ends a write-busy interval, and the bytes of an address (spec
20_memory.md R63, R68, R79, R80, R83). -/

namespace Sys2Proof.Machine

/-! ## What an answer leaves of the device -/

/-- A device that stores nothing at this answer keeps `WBUSY` and the address of its last store. -/
theorem Dev.respond_keeps_store (x : Phase) (ph : PH) (d : Dev) (n : Nat) (h : ¬ (x = .stopCond ∧ d.mode = .dpend)) :
    (d.respond x ph n).dev.wAddr = d.wAddr ∧ (d.respond x ph n).dev.wbusy = d.wbusy := by
  cases x with
  | startCond => exact ⟨rfl, rfl⟩
  | stopCond =>
    have hm : d.mode ≠ .dpend := fun hm => h ⟨rfl, hm⟩
    simp [Dev.respond, Dev.onStop, hm]
  | byteOut b =>
    simp only [Dev.respond, Dev.onByteOut]
    split
    · split <;> exact ⟨rfl, rfl⟩
    · cases d.mode <;> exact ⟨rfl, rfl⟩
  | byteIn k => cases hm : d.mode <;> simp [Dev.respond, Dev.onByteIn, hm, Dev.unruledByteIn]

/-- A stop with a byte latched stores it at `P` (R79). -/
theorem Dev.onStop_latched {d : Dev} (h : d.mode = .dpend) :
    d.onStop = { d with mem := d.mem.write d.ptr d.latch, wbusy := true, wAddr := d.ptr, mode := .didle } := by
  simp [Dev.onStop, h]

/-- Settles O50, by the phase in progress: none, a stop with a byte latched, or any other. -/
theorem deviceStoresOnlyAtStop : Obligations.DeviceStoresOnlyAtStop := by
  intro s t h
  cases hx : s.twm.phaseInProgress with
  | none =>
    cases (devAnswer_idle hx).symm.trans h
    exact ⟨fun _ _ => rfl, (fun h => nomatch h), fun _ => ⟨rfl, rfl⟩, fun _ => rfl⟩
  | some x =>
    cases (devAnswer_busy hx).symm.trans h
    by_cases hs : x = .stopCond ∧ s.dev.mode = .dpend
    · obtain ⟨rfl, hm⟩ := hs
      have hd : (s.dev.respond .stopCond s.twm.ph s.draws).dev = s.dev.onStop := rfl
      rw [hd, Dev.onStop_latched hm]
      exact ⟨fun a ha => Memory.read_write_other _ _ _ _ fun e => ha ⟨rfl, hm, e⟩,
        fun _ _ => ⟨Memory.read_write_same _ _ _, rfl, rfl, rfl⟩, fun hn => absurd ⟨rfl, hm⟩ hn,
        (fun h => nomatch h)⟩
    · have hmem : (s.dev.respond x s.twm.ph s.draws).dev.mem = s.dev.mem := by rw [Dev.respond_mem, if_neg hs]
      exact ⟨fun a _ => by rw [hmem], fun hx' hm => absurd ⟨Option.some.inj hx', hm⟩ hs,
        fun _ => Dev.respond_keeps_store x s.twm.ph s.dev s.draws hs, (fun h => nomatch h)⟩

/-! ## Loss of power, and the end of a write-busy interval -/

/-- The return of power leaves every byte but the one being stored (R83). -/
theorem Dev.powerCycle_read (d : Dev) (n : Nat) {a : Address} (h : d.wbusy = false ∨ a ≠ d.wAddr) :
    (d.powerCycle n).mem.read a = d.mem.read a := by
  simp only [Dev.powerCycle]
  split
  · next hb =>
    have ha : a ≠ d.wAddr := h.resolve_left (by simp [hb])
    exact Memory.read_write_other _ _ _ _ ha
  · rfl

/-- Settles O10. -/
theorem powerLossKeepsStorage : Obligations.PowerLossKeepsStorage := by
  intro s rest ha
  exact ⟨_, step_cons ha, rfl, rfl, rfl, rfl, rfl, fun _ h => s.dev.powerCycle_read s.draws h⟩

/-- A delay of a host that can issue a bus command ends the write-busy interval (R110). -/
theorem delay_acceptsBus {s : State} (h : s.acceptsBus) : delay s = settle s := delay_mainMoves ((mainMoves_iff s).2 h)

/-- Settles O54: a delay waits for the main context, and then is the end of storing. -/
theorem delayEndsWriteBusy : Obligations.DelayEndsWriteBusy := by
  intro s rest
  refine ⟨fun ha => ⟨fun hs => ?_, fun hs => ?_⟩, fun ha => step_cons ha⟩
  · exact (step_cons ha).trans (congrArg Host.Outcome.next (delay_acceptsBus (s := { s with agenda := rest }) hs))
  · have hw : State.mainMoves { s with agenda := rest } = false :=
      Bool.eq_false_iff.2 fun h => hs ((mainMoves_iff _).1 h)
    exact (step_cons ha).trans (congrArg Host.Outcome.next (delay_waits hw))

/-! ## The bytes of an address -/

/-- The bits of a select byte: the read/write bit at 0, the fixed part and `A[10:8]` above it (R104). -/
theorem selectByte_getLsbD (a : Address) (rw : BitVec 1) (k : Nat) : (selectByte a rw).getLsbD k =
    if k < 1 then rw.getLsbD k else (Config.SEL_PREFIX ++ a.extractLsb' 8 3).getLsbD (k - 1) :=
  BitVec.getLsbD_append

/-- Above bit 0 a select byte does not hold its read/write bit. -/
theorem selectByte_high (a : Address) (rw rw' : BitVec 1) {k : Nat} (h : 0 < k) :
    (selectByte a rw).getLsbD k = (selectByte a rw').getLsbD k := by
  simp only [selectByte_getLsbD, if_neg (Nat.not_lt.2 h)]

/-- Bit 0 of a select byte is its read/write bit. -/
theorem selectByte_low (a : Address) (rw : BitVec 1) : (selectByte a rw).getLsbD 0 = rw.getLsbD 0 := by
  simp only [selectByte_getLsbD, Nat.zero_lt_one, if_true]

/-- Settles O48: the two selects are one select byte with the two read/write bits. -/
theorem selectBytesOfAddress : Obligations.SelectBytesOfAddress :=
  fun a => ⟨rfl, rfl, rfl, fun _ hk => selectByte_high a _ _ hk, selectByte_low a _, selectByte_low a _⟩

end Sys2Proof.Machine

/-! The two transactions step by step (spec 41_bus_transactions.md R140 to R147), and their net effect under the
reference device (20_memory.md R77 to R85). -/

namespace Sys2Proof.Machine

/-! ## A transaction at a step -/

/-- The bus engine `b` while the transaction of word `w` is at step `q`, with `STATUS`=`code` and the bus in `p`. -/
def Twm.atStep (b : Twm) (w : CommandWord) (q : BitVec 3) (code : Byte) (p : PH) : Twm :=
  { b with cmdr := w, ready := false, ok := false, fstep := 0#3, seq := q, status := code, ph := p }

/-- The bus engine `b` after the transaction of word `w` ended with `fail(n)` (R142). -/
def Twm.failedAt (b : Twm) (w : CommandWord) (n : BitVec 3) (code : Byte) (p : PH) : Twm :=
  { b with cmdr := w, ready := true, ok := false, fstep := n, seq := 0#3, status := code, ph := p }

/-- The bus engine `b` after the transaction of word `w` ended with `OK`=1 (R143, R146). -/
def Twm.succeeded (b : Twm) (w : CommandWord) (code : Byte) (p : PH) : Twm :=
  { b with cmdr := w, ready := true, ok := true, fstep := 0#3, seq := 0#3, status := code, ph := p }

/-- The bus engine `b` with `RXDATA` as phase `x` with outcome `o` leaves it. -/
def Twm.received (b : Twm) (x : Phase) (o : PhaseOutcome) : Twm := { b with rxdata := rxdataAfter x o b.rxdata }

@[simp] theorem Twm.received_byteOut (b : Twm) (c : Byte) (o : PhaseOutcome) : b.received (.byteOut c) o = b := by
  simp [Twm.received]

section Step
variable {b : Twm} {w : CommandWord} {q : BitVec 3} {code : Byte} {p : PH} {n : Nat} {st : TxnStep}

theorem Twm.atStep_currentStep (hq : q.toNat = n + 1) (hs : (txnSteps w)[n]? = some st) :
    (b.atStep w q code p).currentStep = some st :=
  (currentStep_of (b := b.atStep w q code p) hq).trans hs

theorem Twm.atStep_phaseInProgress (hq : q.toNat = n + 1) (hs : (txnSteps w)[n]? = some st)
    (ha : st.phase.allowedIn p = true) : (b.atStep w q code p).phaseInProgress = some st.phase :=
  phaseInProgress_step (b := b.atStep w q code p) rfl hq hs ha

end Step

/-! ## The device at a step -/

section DeviceStep
variable {s : State} {b : Twm} {w : CommandWord} {q : BitVec 3} {code : Byte} {p : PH} {n : Nat} {x : Phase} {c : Byte}
  {o : PhaseOutcome} {v : Dev}

/-- The device takes a verified step to the next one when its answer has the expected code (R141). -/
theorem devAnswer_passes (hb : s.twm = b.atStep w q code p) (hq : q.toNat = n + 1)
    (hs : (txnSteps w)[n]? = some ⟨x, some c⟩) (ha : x.allowedIn p = true)
    (hv : s.dev.respond x p s.draws = ⟨o, v, s.draws⟩) (hc : statusAfter x p o = c) :
    devAnswer s = .next { s with twm := (b.received x o).atStep w (q + 1#3) c (phAfter x p o), dev := v } := by
  have hp : s.twm.phaseInProgress = some x := hb ▸ Twm.atStep_phaseInProgress hq hs ha
  have hv' : s.dev.respond x s.twm.ph s.draws = ⟨o, v, s.draws⟩ := hb ▸ hv
  rw [devAnswer_busy hp, hv', hb, finishPhase_passed (Twm.atStep_currentStep hq hs) rfl hc]
  subst hc
  rfl

/-- The device ends a transaction with `fail(n)` when its answer has not the expected code (R142). -/
theorem devAnswer_fails (hb : s.twm = b.atStep w q code p) (hq : q.toNat = n + 1)
    (hs : (txnSteps w)[n]? = some ⟨x, some c⟩) (ha : x.allowedIn p = true)
    (hv : s.dev.respond x p s.draws = ⟨o, v, s.draws⟩) (hc : statusAfter x p o ≠ c) :
    devAnswer s = .next { s with
      twm := (b.received x o).failedAt w q (statusAfter x p o) (phAfter x p o), dev := v } := by
  have hp : s.twm.phaseInProgress = some x := hb ▸ Twm.atStep_phaseInProgress hq hs ha
  have hv' : s.dev.respond x s.twm.ph s.draws = ⟨o, v, s.draws⟩ := hb ▸ hv
  rw [devAnswer_busy hp, hv', hb, finishPhase_failed (Twm.atStep_currentStep hq hs) rfl hc]
  rfl

/-- The device completes the stop of a transaction, which so ends with `OK`=1 (R79, R152). -/
theorem devAnswer_stop (hb : s.twm = b.atStep w q code p) (hq : q.toNat = n + 1)
    (hs : (txnSteps w)[n]? = some ⟨.stopCond, none⟩) (ha : Phase.stopCond.allowedIn p = true) :
    devAnswer s = .next { s with twm := b.succeeded w Config.ST_AFTER_STOP .idle, dev := s.dev.onStop } := by
  have hp : s.twm.phaseInProgress = some .stopCond := hb ▸ Twm.atStep_phaseInProgress hq hs ha
  rw [devAnswer_busy hp, hb, finishPhase_stop (Twm.atStep_currentStep hq hs) rfl]
  rfl

end DeviceStep

/-! ## The steps that both transactions begin with -/

/-- A select byte of this device's kind is accepted while the device is not write-busy (R77). -/
theorem Dev.selects_selectByte (v : Dev) (a : Address) (rw : BitVec 1) : v.selects (selectByte a rw) = !v.wbusy := by
  simp [Dev.selects]

@[simp] theorem Dev.selects_selw (v : Dev) (a : Address) : v.selects (selw a) = !v.wbusy := v.selects_selectByte a _
@[simp] theorem Dev.selects_selr (v : Dev) (a : Address) : v.selects (selr a) = !v.wbusy := v.selects_selectByte a _

theorem Dev.respond_select {v : Dev} {c : Byte} (h : v.selects c = true) (n : Nat) :
    v.respond (.byteOut c) .addr n = ⟨.ack, v.onSelect c, n⟩ := by
  simp [Dev.respond, Dev.onByteOut, h]

theorem Dev.respond_notSelected {v : Dev} {c : Byte} (h : v.selects c = false) (n : Nat) :
    v.respond (.byteOut c) .addr n = ⟨.nack, { v with mode := .didle }, n⟩ := by
  simp [Dev.respond, Dev.onByteOut, h]

theorem Dev.respond_lowAddress {v : Dev} (h : v.mode = .daddr) (c : Byte) (n : Nat) :
    v.respond (.byteOut c) .mt n = ⟨.ack, v.onLowAddress c, n⟩ := by
  simp [Dev.respond, Dev.onByteOut, h]

theorem Dev.respond_data {v : Dev} (h : v.mode = .ddata) (c : Byte) (n : Nat) :
    v.respond (.byteOut c) .mt n = ⟨.ack, v.onData c, n⟩ := by
  simp [Dev.respond, Dev.onByteOut, h]

theorem Dev.respond_read {v : Dev} (h : v.mode = .dread) (n : Nat) :
    v.respond (.byteIn .nack) .mr n = ⟨.byte (v.mem.read v.ptr), v.onRead .nack, n⟩ := by
  simp [Dev.respond, Dev.onByteIn, h]

/-- An address is its upper three bits before its low byte (R63). -/
@[simp] theorem address_high_low (a : Address) : a.extractLsb' 8 3 ++ a.extractLsb' 0 8 = a :=
  extract_split (m := 3) (n := 8) a

@[simp] theorem address_low_append (x : BitVec 3) (y : Byte) : (x ++ y : Address).extractLsb' 0 8 = y := by
  rw [extract_append_low _ _ 0 8 (by omega), extract_all]

@[simp] theorem address_high_append (x : BitVec 3) (y : Byte) : (x ++ y : Address).extractLsb' 8 3 = x := by
  rw [extract_append_high _ _ 8 3 (by omega), Nat.sub_self, extract_all]

/-- The command `i` is a transaction on address `a`. -/
def IsAccess (i : Instr) (a : Address) : Prop := (∃ d, i = .wrtxn a d) ∨ i = .rdtxn a

theorem isAccess_wrtxn (a : Address) (d : Byte) : IsAccess (.wrtxn a d) a := .inl ⟨d, rfl⟩
theorem isAccess_rdtxn (a : Address) : IsAccess (.rdtxn a) a := .inr rfl

section Access
variable {i : Instr} {a : Address} (h : IsAccess i a)
include h

/-! A write and a read begin alike: start, select with the write bit, low address byte (R143, R146). -/

theorem IsAccess.startStep : (txnSteps (encode i))[0]? = some ⟨.startCond, some Config.ST_START⟩ := by
  rcases h with ⟨d, rfl⟩ | rfl <;> simp [writeSteps, readSteps]

theorem IsAccess.selectStep : (txnSteps (encode i))[1]? = some ⟨.byteOut (selw a), some Config.ST_SLAW_ACK⟩ := by
  rcases h with ⟨d, rfl⟩ | rfl <;> simp [writeSteps, readSteps]

theorem IsAccess.lowAddressStep : (txnSteps (encode i))[2]? = some ⟨.byteOut (alo a), some Config.ST_DATA_ACK⟩ := by
  rcases h with ⟨d, rfl⟩ | rfl <;> simp [writeSteps, readSteps]

/-- A transaction is accepted in every `PH` (R120, R143, R146). -/
theorem exec_access {s : State} (hs : s.acceptsBus) :
    exec i s = .next { s with twm := s.twm.atStep (encode i) 1#3 s.twm.status s.twm.ph } := by
  obtain ⟨hin, hr⟩ := hs
  rcases h with ⟨d, rfl⟩ | rfl <;> exact congrArg Host.Outcome.next (acceptBus_accepts hin hr rfl)

variable {s : State} {b : Twm} {code : Byte}

theorem devAnswer_start (hb : s.twm = b.atStep (encode i) 1#3 code .idle) :
    devAnswer s = .next { s with twm := b.atStep (encode i) 2#3 Config.ST_START .addr, dev := s.dev.onStart } :=
  devAnswer_passes hb (n := 0) rfl h.startStep rfl rfl rfl

/-- A start on a held bus is a repeated start, and no transaction expects it first (R149). -/
theorem devAnswer_heldStart {p : PH} (hb : s.twm = b.atStep (encode i) 1#3 code p) (hp : p ≠ .idle) :
    devAnswer s = .next { s with twm := b.failedAt (encode i) 1#3 Config.ST_RSTART .addr, dev := s.dev.onStart } := by
  have hc : statusAfter .startCond p .startOk = Config.ST_RSTART := if_neg hp
  rw [← hc]
  exact devAnswer_fails hb (n := 0) rfl h.startStep rfl rfl (by rw [hc]; decide)

theorem devAnswer_select (hb : s.twm = b.atStep (encode i) 2#3 code .addr) (hw : s.dev.wbusy = false) :
    devAnswer s = .next { s with
      twm := b.atStep (encode i) 3#3 Config.ST_SLAW_ACK .mt, dev := s.dev.onSelect (selw a) } := by
  simpa using devAnswer_passes hb (n := 1) rfl h.selectStep rfl (Dev.respond_select (by simp [hw]) _) (by simp)

theorem devAnswer_refusedSelect (hb : s.twm = b.atStep (encode i) 2#3 code .addr) (hw : s.dev.wbusy = true) :
    devAnswer s = .next { s with
      twm := b.failedAt (encode i) 2#3 Config.ST_SLAW_NACK .mt, dev := { s.dev with mode := .didle } } := by
  simpa using devAnswer_fails hb (n := 1) rfl h.selectStep rfl (Dev.respond_notSelected (by simp [hw]) _)
    (by simpa using Config.stSlawNack_ne (by decide))

theorem devAnswer_lowAddress (hb : s.twm = b.atStep (encode i) 3#3 code .mt) (hm : s.dev.mode = .daddr) :
    devAnswer s = .next { s with
      twm := b.atStep (encode i) 4#3 Config.ST_DATA_ACK .mt, dev := s.dev.onLowAddress (alo a) } := by
  simpa using devAnswer_passes hb (n := 2) rfl h.lowAddressStep rfl (Dev.respond_lowAddress hm _ _) (by simp)

end Access

/-! ## The steps of a write and of a read after these -/

section StoreAndFetch
variable {s : State} {b : Twm} {code : Byte} {a : Address} {d : Byte}

theorem devAnswer_data (hb : s.twm = b.atStep (encode (.wrtxn a d)) 4#3 code .mt) (hm : s.dev.mode = .ddata) :
    devAnswer s = .next { s with
      twm := b.atStep (encode (.wrtxn a d)) 5#3 Config.ST_DATA_ACK .mt, dev := s.dev.onData d } := by
  have hs : (txnSteps (encode (.wrtxn a d)))[3]? = some ⟨.byteOut d, some Config.ST_DATA_ACK⟩ := by
    simp [writeSteps]
  simpa using devAnswer_passes hb (n := 3) rfl hs rfl (Dev.respond_data hm _ _) (by simp)

theorem devAnswer_writeStop (hb : s.twm = b.atStep (encode (.wrtxn a d)) 5#3 code .mt) :
    devAnswer s = .next { s with
      twm := b.succeeded (encode (.wrtxn a d)) Config.ST_AFTER_STOP .idle, dev := s.dev.onStop } :=
  devAnswer_stop hb (n := 4) rfl (by simp [writeSteps]) rfl

theorem devAnswer_repeatedStart (hb : s.twm = b.atStep (encode (.rdtxn a)) 4#3 code .mt) :
    devAnswer s = .next { s with
      twm := b.atStep (encode (.rdtxn a)) 5#3 Config.ST_RSTART .addr, dev := s.dev.onStart } := by
  have hs : (txnSteps (encode (.rdtxn a)))[3]? = some ⟨.startCond, some Config.ST_RSTART⟩ := by simp [readSteps]
  exact devAnswer_passes hb (n := 3) rfl hs rfl rfl rfl

theorem devAnswer_selectRead (hb : s.twm = b.atStep (encode (.rdtxn a)) 5#3 code .addr) (hw : s.dev.wbusy = false) :
    devAnswer s = .next { s with
      twm := b.atStep (encode (.rdtxn a)) 6#3 Config.ST_SLAR_ACK .mr, dev := s.dev.onSelect (selr a) } := by
  have hs : (txnSteps (encode (.rdtxn a)))[4]? = some ⟨.byteOut (selr a), some Config.ST_SLAR_ACK⟩ := by
    simp [readSteps]
  simpa using devAnswer_passes hb (n := 4) rfl hs rfl (Dev.respond_select (by simp [hw]) _) (by simp)

theorem devAnswer_read (hb : s.twm = b.atStep (encode (.rdtxn a)) 6#3 code .mr) (hm : s.dev.mode = .dread) :
    devAnswer s = .next { s with
      twm := { b with rxdata := s.dev.mem.read s.dev.ptr }.atStep (encode (.rdtxn a)) 7#3 Config.ST_RX_NACK .mr
      dev := s.dev.onRead .nack } := by
  have hs : (txnSteps (encode (.rdtxn a)))[5]? = some ⟨.byteIn .nack, some Config.ST_RX_NACK⟩ := by simp [readSteps]
  exact devAnswer_passes hb (n := 5) rfl hs rfl (Dev.respond_read hm _) rfl

theorem devAnswer_readStop (hb : s.twm = b.atStep (encode (.rdtxn a)) 7#3 code .mr) :
    devAnswer s = .next { s with
      twm := b.succeeded (encode (.rdtxn a)) Config.ST_AFTER_STOP .idle, dev := s.dev.onStop } :=
  devAnswer_stop hb (n := 6) rfl (by simp [readSteps]) rfl

end StoreAndFetch

/-! ## The device's answers one after another -/

/-- The device completes phases from `s` to `t`, with the values `codes` of `STATUS` in turn. -/
inductive DevRun : List Byte → State → State → Prop where
  | nil (s : State) : DevRun [] s s
  | cons {codes : List Byte} {s t u : State} (h : devAnswer s = .next t) (r : DevRun codes t u) :
      DevRun (t.twm.status :: codes) s u

theorem DevRun.one {s t : State} (h : devAnswer s = .next t) : DevRun [t.twm.status] s t := .cons h (.nil t)

theorem DevRun.append {cs ds : List Byte} {s t u : State} (h : DevRun cs s t) (h' : DevRun ds t u) :
    DevRun (cs ++ ds) s u := by
  induction h with
  | nil s => exact h'
  | cons hd _ ih => exact .cons hd (ih h')

theorem DevRun.statuses {cs : List Byte} {s t : State} (h : DevRun cs s t) : devStatuses cs.length s = cs := by
  induction h with
  | nil s => rfl
  | cons hd _ ih => simp only [List.length_cons, devStatuses, hd, ih]

theorem DevRun.answers {cs : List Byte} {s t : State} (h : DevRun cs s t) : devAnswers cs.length s = .next t := by
  induction h with
  | nil s => rfl
  | cons hd _ ih => simpa only [List.length_cons, devAnswers, hd, andThen_of_next] using ih

/-- A transaction accepted on a free bus is at its first step, the bus free. -/
theorem exec_access_idle {s : State} {i : Instr} {a : Address} (h : IsAccess i a) (hs : s.acceptsBus)
    (hp : s.twm.ph = .idle) : exec i s = .next { s with twm := s.twm.atStep (encode i) 1#3 s.twm.status .idle } :=
  hp ▸ exec_access h hs

section Accepted
variable {s : State} {i : Instr} {a : Address} (hs : s.acceptsBus)
include hs

/-- The steps both transactions begin with, under a device that is not write-busy: `P` takes the address (R77, R78). -/
theorem exec_access_addressed (h : IsAccess i a) (hp : s.twm.ph = .idle) (hw : s.dev.wbusy = false) :
    ∃ t, exec i s = .next t ∧ DevRun [Config.ST_START, Config.ST_SLAW_ACK, Config.ST_DATA_ACK] t { s with
      twm := s.twm.atStep (encode i) 4#3 Config.ST_DATA_ACK .mt, dev := { s.dev with ptr := a, mode := .ddata } } := by
  have h2 := DevRun.one (devAnswer_select h (s := { s with
    twm := s.twm.atStep (encode i) 2#3 Config.ST_START .addr, dev := s.dev.onStart }) rfl hw)
  have h3 := DevRun.one (devAnswer_lowAddress h (s := { s with
    twm := s.twm.atStep (encode i) 3#3 Config.ST_SLAW_ACK .mt, dev := s.dev.onStart.onSelect (selw a) })
    rfl (by simp))
  have hptr : (s.dev.onStart.onSelect (selw a)).onLowAddress (alo a) = { s.dev with ptr := a, mode := .ddata } := by
    have hi : (selw a).extractLsb' 1 3 = a.extractLsb' 8 3 := selectByte_address a _
    simp [Dev.onLowAddress, Dev.onSelect, Dev.onStart, hi, alo]
  rw [hptr] at h3
  exact ⟨_, exec_access_idle h hs hp, .cons (devAnswer_start h rfl) (h2.append h3)⟩

/-- The net effect of a write on a free bus and a device that is not write-busy (R85 (a)). -/
theorem exec_wrtxn_dev (a : Address) (d : Byte) (hp : s.twm.ph = .idle) (hw : s.dev.wbusy = false) :
    ∃ t, exec (.wrtxn a d) s = .next t ∧
      DevRun [Config.ST_START, Config.ST_SLAW_ACK, Config.ST_DATA_ACK, Config.ST_DATA_ACK, Config.ST_AFTER_STOP] t
        { s with
          twm := s.twm.succeeded (encode (.wrtxn a d)) Config.ST_AFTER_STOP .idle
          dev := { s.dev with
            mem := s.dev.mem.write a d, ptr := a, mode := .didle, latch := d, wbusy := true, wAddr := a } } := by
  obtain ⟨t, ht, r⟩ := exec_access_addressed hs (isAccess_wrtxn a d) hp hw
  exact ⟨t, ht, r.append (.cons (devAnswer_data rfl rfl) (.one (devAnswer_writeStop rfl)))⟩

/-- The net effect of a read on a free bus and a device that is not write-busy (R85 (b)). -/
theorem exec_rdtxn_dev (a : Address) (hp : s.twm.ph = .idle) (hw : s.dev.wbusy = false) :
    ∃ t, exec (.rdtxn a) s = .next t ∧
      DevRun [Config.ST_START, Config.ST_SLAW_ACK, Config.ST_DATA_ACK, Config.ST_RSTART, Config.ST_SLAR_ACK,
          Config.ST_RX_NACK, Config.ST_AFTER_STOP] t
        { s with
          twm := { s.twm with rxdata := s.dev.mem.read a }.succeeded (encode (.rdtxn a)) Config.ST_AFTER_STOP .idle
          dev := { s.dev with ptr := a + 1#11, mode := .didle } } := by
  have hsel : ({ s.dev with ptr := a, mode := .ddata } : Dev).onStart.onSelect (selr a) =
      { s.dev with ptr := a, mode := .dread } := by
    have hi : (selr a).extractLsb' 1 3 = a.extractLsb' 8 3 := selectByte_address a _
    simp [Dev.onSelect, Dev.onStart, hi]
  obtain ⟨t, ht, r⟩ := exec_access_addressed hs (isAccess_rdtxn a) hp hw
  have h5 := r.append (.cons (devAnswer_repeatedStart rfl) (.one (devAnswer_selectRead rfl hw)))
  rw [hsel] at h5
  exact ⟨t, ht, h5.append (.cons (devAnswer_read rfl rfl) (.one (devAnswer_readStop rfl)))⟩

/-- A write-busy device refuses the select byte of either transaction (R85 (c)). -/
theorem exec_access_refused (h : IsAccess i a) (hp : s.twm.ph = .idle) (hw : s.dev.wbusy = true) :
    ∃ t, exec i s = .next t ∧ DevRun [Config.ST_START, Config.ST_SLAW_NACK] t { s with
      twm := s.twm.failedAt (encode i) 2#3 Config.ST_SLAW_NACK .mt, dev := { s.dev with mode := .didle } } := by
  have h2 := devAnswer_refusedSelect h (s := { s with
    twm := s.twm.atStep (encode i) 2#3 Config.ST_START .addr, dev := s.dev.onStart }) rfl hw
  exact ⟨_, exec_access_idle h hs hp, .cons (devAnswer_start h rfl) (.one h2)⟩

/-- On a held bus the start is a repeated one, and either transaction fails at its first step (R149). -/
theorem exec_access_held (h : IsAccess i a) (hp : s.twm.ph ≠ .idle) :
    ∃ t, exec i s = .next t ∧ DevRun [Config.ST_RSTART] t { s with
      twm := s.twm.failedAt (encode i) 1#3 Config.ST_RSTART .addr, dev := s.dev.onStart } :=
  ⟨_, exec_access h hs, .one (devAnswer_heldStart h rfl hp)⟩

end Accepted

/-- Settles O49, by the three runs of the device. -/
theorem deviceTransactionEffect : Obligations.DeviceTransactionEffect := by
  intro s a d hs hp
  refine ⟨fun hw => ?_, fun hw => ?_, fun hw i hi => ?_⟩
  · obtain ⟨t, ht, r⟩ := exec_wrtxn_dev hs a d hp hw
    exact ⟨t, ht, r.statuses, r.answers⟩
  · obtain ⟨t, ht, r⟩ := exec_rdtxn_dev hs a hp hw
    exact ⟨t, ht, r.statuses, r.answers⟩
  · obtain ⟨t, ht, r⟩ := exec_access_refused hs (hi.imp_left fun e => ⟨d, e⟩ : IsAccess i a) hp hw
    exact ⟨t, ht, r.statuses, r.answers⟩

/-- A command whose phases the device ends within seven answers, as the host's software issues it. -/
theorem DevRun.issued {cs : List Byte} {i : Instr} {s t u : State} (r : DevRun cs t u) (h : exec i s = .next t)
    (hn : cs.length ≤ 7) (hr : u.twm.ready = true) : issueUnderDev i s = .next u :=
  issueUnderDev_of hn h r.answers hr

end Sys2Proof.Machine

/-! The host's software under the reference device (spec 20_memory.md R86; 30_encoding.md R110, R112 to R114): from a
free bus and a device that is not write-busy every transaction succeeds, and a settle delay leads back there. -/

namespace Sys2Proof.Machine

/-! ## One transaction -/

/-- A bus command can be accepted, the bus is free, and the device is not write-busy (R85). -/
structure State.Calm (s : State) : Prop where
  accepts : s.acceptsBus
  free : s.twm.ph = .idle
  stored : s.dev.wbusy = false

theorem State.Calm.mainMoves {s : State} (h : s.Calm) : s.mainMoves = true := (mainMoves_iff s).2 h.accepts

/-- A settle delay leaves the bytes, and a free bus calm. -/
theorem calm_delay {s : State} (hs : s.acceptsBus) (hp : s.twm.ph = .idle) :
    (delay s).Calm ∧ (delay s).dev.mem = s.dev.mem := by
  rw [delay_acceptsBus hs]
  exact ⟨⟨hs, hp, rfl⟩, rfl⟩

/-- A write under the device, from calm (R85 (a)). -/
theorem issue_wrtxn_calm {s : State} (hs : s.Calm) (a : Address) (d : Byte) :
    ∃ t, issueUnderDev (.wrtxn a d) s = .next t ∧ t.acceptsBus ∧ t.twm.ok = true ∧ t.twm.ph = .idle ∧
      t.dev.mem = s.dev.mem.write a d := by
  obtain ⟨t, ht, r⟩ := exec_wrtxn_dev hs.accepts a d hs.free hs.stored
  exact ⟨_, r.issued ht (by simp) rfl, ⟨hs.accepts.1, rfl⟩, rfl, rfl, rfl⟩

/-- A read under the device, from calm (R85 (b)). -/
theorem issue_rdtxn_calm {s : State} (hs : s.Calm) (a : Address) :
    ∃ t, issueUnderDev (.rdtxn a) s = .next t ∧ t.Calm ∧ t.twm.ok = true ∧ t.twm.rxdata = s.dev.mem.read a ∧
      t.dev.mem = s.dev.mem := by
  obtain ⟨t, ht, r⟩ := exec_rdtxn_dev hs.accepts a hs.free hs.stored
  exact ⟨_, r.issued ht (by simp) rfl, ⟨⟨hs.accepts.1, rfl⟩, rfl, hs.stored⟩, rfl, rfl, rfl⟩

/-- A transaction that ends with `OK`=1 under the device began from calm: a held bus fails it at step 1 (R149), a
write-busy device at step 2 (R85 (c)). -/
theorem calm_of_issue_ok {s t : State} {i : Instr} {a : Address} (h : IsAccess i a) (hs : s.acceptsBus)
    (hi : issueUnderDev i s = .next t) (hok : t.twm.ok = true) : s.Calm := by
  by_cases hp : s.twm.ph = .idle
  · cases hw : s.dev.wbusy
    · exact ⟨hs, hp, hw⟩
    · obtain ⟨u, hu, r⟩ := exec_access_refused hs h hp hw
      cases (r.issued hu (by simp) rfl).symm.trans hi
      cases hok
  · obtain ⟨u, hu, r⟩ := exec_access_held hs h hp
    cases (r.issued hu (by simp) rfl).symm.trans hi
    cases hok

/-! ## Read after write (R86) -/

/-- A transaction that writes no byte at `a`, and a settle delay after it, lead from calm to calm and leave the byte. -/
theorem issue_delay_calm {s : State} (hs : s.Calm) {a : Address} {i : Instr}
    (hi : (∃ b e, i = .wrtxn b e ∧ b ≠ a) ∨ ∃ b, i = .rdtxn b) :
    ∃ t, issueUnderDev i s = .next t ∧ (delay t).Calm ∧ (delay t).dev.mem.read a = s.dev.mem.read a := by
  rcases hi with ⟨b, e, rfl, hb⟩ | ⟨b, rfl⟩
  · obtain ⟨t, ht, hacc, -, hp, hm⟩ := issue_wrtxn_calm hs b e
    obtain ⟨hc, hm'⟩ := calm_delay hacc hp
    exact ⟨t, ht, hc, by rw [hm', hm, Memory.read_write_other _ _ _ _ hb.symm]⟩
  · obtain ⟨t, ht, hc, -, -, hm⟩ := issue_rdtxn_calm hs b
    obtain ⟨hc', hm'⟩ := calm_delay hc.accepts hc.free
    exact ⟨t, ht, hc', by rw [hm', hm]⟩

theorem issueSpaced_calm {a : Address} {is : List Instr}
    (his : ∀ i ∈ is, (∃ b e, i = .wrtxn b e ∧ b ≠ a) ∨ ∃ b, i = .rdtxn b) {s u : State} (hs : s.Calm)
    (h : issueSpaced is s = .next u) : u.Calm ∧ u.dev.mem.read a = s.dev.mem.read a := by
  induction is generalizing s with
  | nil => cases h; exact ⟨hs, rfl⟩
  | cons i is ih =>
    obtain ⟨hi, his⟩ := List.forall_mem_cons.1 his
    obtain ⟨t, ht, hc, hm⟩ := issue_delay_calm hs hi
    rw [issueSpaced, ht, andThen_of_next] at h
    obtain ⟨hu, hmu⟩ := ih his hc h
    exact ⟨hu, hmu.trans hm⟩

/-- Settles O51: the write succeeded, so it began from calm; the byte stays through the calm states after it. -/
theorem readAfterWriteUnderDevice : Obligations.ReadAfterWriteUnderDevice := by
  intro s t u v a d is hs ht hok his hu hv _
  have hcalm := calm_of_issue_ok (isAccess_wrtxn a d) hs ht hok
  obtain ⟨t', ht', hacc, -, hp, hm⟩ := issue_wrtxn_calm hcalm a d
  cases ht'.symm.trans ht
  obtain ⟨hc, hmd⟩ := calm_delay hacc hp
  obtain ⟨hcu, hmu⟩ := issueSpaced_calm his hc hu
  obtain ⟨v', hv', -, -, hrx, -⟩ := issue_rdtxn_calm hcu a
  cases hv'.symm.trans hv
  rw [hrx, hmu, hmd, hm, Memory.read_write_same]

/-! ## The pseudo-operations (R112 to R114) -/

/-- The bytes of a device after the writes `xs`, in order. -/
def Memory.writeAll (m : Memory) (xs : List (Address × Byte)) : Memory := xs.foldl (fun m x => m.write x.1 x.2) m

theorem Memory.writeAll_cons (m : Memory) (x : Address × Byte) (xs : List (Address × Byte)) :
    m.writeAll (x :: xs) = (m.write x.1 x.2).writeAll xs := rfl

/-- An address that is not written keeps its byte. -/
theorem Memory.read_writeAll_other (m : Memory) {xs : List (Address × Byte)} {a : Address} (h : ∀ x ∈ xs, a ≠ x.1) :
    (m.writeAll xs).read a = m.read a := by
  induction xs generalizing m with
  | nil => rfl
  | cons x xs ih =>
    obtain ⟨hx, hxs⟩ := List.forall_mem_cons.1 h
    rw [Memory.writeAll_cons, ih _ hxs, Memory.read_write_other _ _ _ _ hx]

/-- After writes at different addresses each address holds its byte. -/
theorem Memory.read_writeAll_mem (m : Memory) {xs : List (Address × Byte)}
    (h : xs.Pairwise fun x y => x.1 ≠ y.1) {x : Address × Byte} (hx : x ∈ xs) : (m.writeAll xs).read x.1 = x.2 := by
  induction xs generalizing m with
  | nil => cases hx
  | cons y xs ih =>
    obtain ⟨hy, hxs⟩ := List.pairwise_cons.1 h
    rw [Memory.writeAll_cons]
    rcases List.mem_cons.1 hx with rfl | hx
    · rw [Memory.read_writeAll_other _ hy, Memory.read_write_same]
    · exact ih _ hxs hx

/-- Bytes written one by one under the device, from calm. -/
theorem writeBytes_ofDev (xs : List (Address × Byte)) {s : State} (hs : s.Calm) :
    ∃ t, writeBytes xs (List.replicate xs.length Slot.ofDev) s = .next (t, .success ()) ∧ t.Calm ∧
      t.dev.mem = s.dev.mem.writeAll xs := by
  induction xs generalizing s with
  | nil => exact ⟨s, rfl, hs, rfl⟩
  | cons x xs ih =>
    obtain ⟨a, d⟩ := x
    obtain ⟨t, ht, hacc, hok, hp, hm⟩ := issue_wrtxn_calm hs a d
    obtain ⟨hc, hmd⟩ := calm_delay hacc hp
    obtain ⟨u, hu, hcu, hmu⟩ := ih hc
    refine ⟨u, ?_, hcu, by rw [hmu, hmd, hm, Memory.writeAll_cons]⟩
    have ht' : issue Slot.ofDev.wait (.wrtxn a d) s = .next t := ht
    have hpause : pauseFor Slot.ofDev.pause t = .next (delay t) := rfl
    simp only [List.length_cons, List.replicate_succ, writeBytes, List.headD_cons, List.tail_cons, ht', andThen_of_next,
      afterTxn_goesOn _ ((mainMoves_iff t).2 hacc) hok, hpause, hc.mainMoves, Bool.true_eq_false, if_false, hu]

/-- Bytes read one by one under the device, from calm. -/
theorem readBytes_dev (as : List Address) {s : State} (hs : s.Calm) :
    ∃ t, readBytes as (List.replicate as.length devAnswersAll) s = .next (t, .success (as.map s.dev.mem.read)) ∧
      t.Calm ∧ t.dev.mem = s.dev.mem := by
  induction as generalizing s with
  | nil => exact ⟨s, rfl, hs, rfl⟩
  | cons a as ih =>
    obtain ⟨t, ht, hc, hok, hrx, hm⟩ := issue_rdtxn_calm hs a
    obtain ⟨u, hu, hcu, hmu⟩ := ih hc
    refine ⟨u, ?_, hcu, hmu.trans hm⟩
    have ht' : issue devAnswersAll (.rdtxn a) s = .next t := ht
    simp only [List.length_cons, List.replicate_succ, readBytes, List.headD_cons, List.tail_cons, ht', andThen_of_next,
      afterTxn_goesOn _ hc.mainMoves hok, hu, HostResult_map_success, hrx, hm, List.map_cons]

/-- `HAS_CRED` under the device, from calm (R114). -/
theorem hasCred_dev (L : Config.Layout) {s : State} (hs : s.Calm) :
    ∃ t, hasCred L devAnswersAll s = .next (t, .success (s.dev.mem.read L.flagAddr == L.present)) ∧
      t.dev.mem = s.dev.mem := by
  obtain ⟨t, ht, hc, hok, hrx, hm⟩ := issue_rdtxn_calm hs L.flagAddr
  have ht' : issue devAnswersAll (.rdtxn L.flagAddr) s = .next t := ht
  exact ⟨t, by simp [hasCred, ht', hc.mainMoves, hok, hrx], hm⟩

/-! ## The layout (R8, R69) -/

/-- The address `CRED_BASE`+k of a layout does not wrap. -/
theorem credAddress_toNat {L : Config.Layout} (h : L.wf) (k : Nat) (hk : k ≤ 4) :
    (L.credBase + BitVec.ofNat 11 k).toNat = L.credBase.toNat + k := by
  obtain ⟨hb, -, -⟩ := h
  rw [BitVec.toNat_add, BitVec.toNat_ofNat]
  omega

/-- The credential's addresses and the flag's are six different ones. -/
theorem credWrites_pairwise {L : Config.Layout} (h : L.wf) (c : Credential) :
    (credWrites L c).Pairwise fun x y => x.1 ≠ y.1 := by
  have haddr : (credWrites L c).map (fun x => x.1.toNat) = [L.credBase.toNat, L.credBase.toNat + 1,
      L.credBase.toNat + 2, L.credBase.toNat + 3, L.credBase.toNat + 4, L.flagAddr.toNat] := by
    simp only [credWrites, credAddresses, Credential.bytes, List.zip_cons_cons, List.zip_nil_right, List.cons_append,
      List.nil_append, List.map_cons, List.map_nil, credAddress_toNat h 1 (by decide),
      credAddress_toNat h 2 (by decide), credAddress_toNat h 3 (by decide), credAddress_toNat h 4 (by decide)]
  have hne : ((credWrites L c).map fun x => x.1.toNat).Pairwise (· ≠ ·) := by
    obtain ⟨-, hflag, -⟩ := h
    simp only [haddr, List.pairwise_cons, List.forall_mem_cons, List.not_mem_nil, false_implies, implies_true,
      List.Pairwise.nil, and_true]
    omega
  exact hne.of_map _ fun _ _ hn e => hn (congrArg BitVec.toNat e)

/-- Settles O52. -/
theorem credentialWriteThenRead : Obligations.CredentialWriteThenRead := by
  intro L c s hL hs hp hw
  obtain ⟨t, ht, hct, hmt⟩ := writeBytes_ofDev (credWrites L c) (s := s) ⟨hs, hp, hw⟩
  obtain ⟨u, hu, hcu, hmu⟩ := readBytes_dev (credAddresses L) hct
  obtain ⟨v, hv, -⟩ := hasCred_dev L hcu
  have hread : ∀ x ∈ credWrites L c, t.dev.mem.read x.1 = x.2 := fun x hx =>
    hmt ▸ Memory.read_writeAll_mem _ (credWrites_pairwise hL c) hx
  have hbytes : (credAddresses L).map t.dev.mem.read = c.bytes := by
    simp only [credWrites, credAddresses, Credential.bytes, List.zip_cons_cons, List.zip_nil_right, List.cons_append,
      List.nil_append, List.forall_mem_cons] at hread
    obtain ⟨h0, h1, h2, h3, h4, -⟩ := hread
    simp only [credAddresses, Credential.bytes, List.map_cons, List.map_nil, h0, h1, h2, h3, h4]
  have hflag : u.dev.mem.read L.flagAddr = L.present := by
    rw [hmu]
    exact hread (L.flagAddr, L.present) (by simp [credWrites])
  refine ⟨t, u, v, ht, hbytes ▸ hu, ?_⟩
  rw [hv, hflag, beq_self_eq_true]

end Sys2Proof.Machine

/-! One run of `CRED_WRITE` under the device, with any steps of the other agents meanwhile (spec 20_memory.md R87;
30_encoding.md R112). While a write is in progress the device is at the step the sequencer is at, so the one byte it can
store is the write's own, at the write's own stop. -/

namespace Sys2Proof.Machine

/-! ## What the other agents can do meanwhile -/

/-- A handler's command leaves the bus engine and the device: a bus command is turned away (R199). -/
theorem exec_handler {i : Instr} {s t : State} (hin : s.tks.insvc = true) (h : exec i s = .next t) :
    t.twm = s.twm ∧ t.dev = s.dev := by
  obtain ⟨u, hu, hdev, -, -, -, htick⟩ := exec_next i s
  cases hu.symm.trans h
  refine ⟨?_, hdev⟩
  have hraise (allowed : Bool) (f : Twm → Twm) : (acceptBus allowed f s).twm = s.twm := by simp [acceptBus, hin]
  cases i with
  | tseth _ | tstart | tstop | tret => exact htick rfl
  | _ => cases h; exact hraise _ _

theorem presentWord_handler {w : CommandWord} {s t : State} (hin : s.tks.insvc = true)
    (h : presentWord w s = .next t) : t.twm = s.twm ∧ t.dev = s.dev := by
  cases hd : decode w with
  | command i => exact exec_handler hin (presentWord_legal hd s ▸ h)
  | illegal r => cases (presentWord_illegal hd s).symm.trans h; exact ⟨rfl, rfl⟩

/-- The bus engine as it was, and the device too but for the end of storing. -/
structure State.Quiet (s t : State) : Prop where
  twm : t.twm = s.twm
  mem : t.dev.mem = s.dev.mem
  ptr : t.dev.ptr = s.dev.ptr
  mode : t.dev.mode = s.dev.mode
  latch : t.dev.latch = s.dev.latch

theorem State.Quiet.of_eq {s t : State} (ht : t.twm = s.twm) (hd : t.dev = s.dev) : s.Quiet t :=
  ⟨ht, by rw [hd], by rw [hd], by rw [hd], by rw [hd]⟩

theorem delay_quiet (s : State) : s.Quiet (delay s) := by
  cases h : s.mainMoves
  · rw [delay_waits h]; exact .of_eq rfl rfl
  · rw [delay_mainMoves h]; exact ⟨rfl, rfl, rfl, rfl, rfl⟩

/-- Everything a step of another agent can be: an answer, of the oracle or of the device, or nothing for the bus. -/
theorem othersStep_cases {e : Event} {s t : State} (h : othersStep e s = .next t) :
    s.Quiet t ∨ devAnswer s = .next t ∨ ∃ o, e = .env o ∧ envAnswer o s = .next t := by
  cases e with
  | command w =>
    left
    cases hin : s.tks.insvc
    · cases (othersStep_command_main hin).symm.trans h; exact .of_eq rfl rfl
    · obtain ⟨ht, hd⟩ := presentWord_handler hin (othersStep_command_handler hin ▸ h)
      exact .of_eq ht hd
  | env o => exact .inr (.inr ⟨o, rfl, h⟩)
  | dev => exact .inr (.inl h)
  | settle => cases h; exact .inl ⟨rfl, rfl, rfl, rfl, rfl⟩
  | _ => cases h; exact .inl (.of_eq rfl rfl)

/-- While `READY`=1 no step of another agent touches the bus engine or the device's bytes. -/
theorem othersStep_ready {e : Event} {s t : State} (hr : s.twm.ready = true) (h : othersStep e s = .next t) :
    t.twm = s.twm ∧ t.dev.mem = s.dev.mem := by
  have hx := phaseInProgress_ready hr
  rcases othersStep_cases h with hq | hd | ⟨o, -, ho⟩
  · exact ⟨hq.twm, hq.mem⟩
  · cases (devAnswer_idle hx).symm.trans hd; exact ⟨rfl, rfl⟩
  · cases (envAnswer_idle hx o).symm.trans ho; exact ⟨rfl, rfl⟩

theorem meanwhile_ready {es : List Event} {s t : State} (hr : s.twm.ready = true) (h : meanwhile es s = .next t) :
    t.twm = s.twm ∧ t.dev.mem = s.dev.mem := by
  induction es generalizing s with
  | nil => cases h; exact ⟨rfl, rfl⟩
  | cons e es ih =>
    obtain ⟨u, hu, hes⟩ := andThen_next h
    obtain ⟨htwm, hmem⟩ := othersStep_ready hr hu
    obtain ⟨htwm', hmem'⟩ := ih (htwm ▸ hr) hes
    exact ⟨htwm'.trans htwm, hmem'.trans hmem⟩

/-! ## A denial of a step -/

section Denial
variable {s t : State} {b : Twm} {w : CommandWord} {q : BitVec 3} {code : Byte} {p : PH} {n : Nat} {o : PhaseOutcome}

/-- A refusal or an abnormal outcome never has the code of a verified step, and so ends the transaction (R31, R142). -/
theorem envAnswer_deniesStep {x : Phase} {c : Byte} (hb : s.twm = b.atStep w q code p) (hq : q.toNat = n + 1)
    (hs : (txnSteps w)[n]? = some ⟨x, some c⟩) (hc : c ∈ Config.SIX) (ha : x.allowedIn p = true)
    (ho : (Event.env o).deniesOnly = true) (h : envAnswer o s = .next t) :
    t.twm.ready = true ∧ t.twm.ok = false ∧ t.dev = s.dev := by
  have hp : s.twm.phaseInProgress = some x := hb ▸ Twm.atStep_phaseInProgress hq hs ha
  rcases envAnswer_next h with ⟨hn, -⟩ | ⟨y, hy, hadm, rfl⟩
  · cases hn.symm.trans hp
  cases hy.symm.trans hp
  have hne : statusAfter x p o ≠ c := fun e => by
    rcases (sixCodesOnlyForTheirOutcomes x p o ha hadm).1 (e ▸ hc) with rfl | rfl | ⟨-, v, rfl⟩ <;> cases ho
  rw [hb, finishPhase_failed (Twm.atStep_currentStep hq hs) rfl hne]
  exact ⟨rfl, rfl, rfl⟩

/-- The only denial of a stop is an abnormal outcome, which leaves the bus held (R121, R152). -/
theorem envAnswer_deniesStop (hb : s.twm = b.atStep w q code p) (hq : q.toNat = n + 1)
    (hs : (txnSteps w)[n]? = some ⟨.stopCond, none⟩) (ha : Phase.stopCond.allowedIn p = true)
    (ho : (Event.env o).deniesOnly = true) (h : envAnswer o s = .next t) :
    t.twm.ready = true ∧ t.twm.ok = true ∧ t.twm.ph = p ∧ t.dev = s.dev := by
  have hp : s.twm.phaseInProgress = some .stopCond := hb ▸ Twm.atStep_phaseInProgress hq hs ha
  rcases envAnswer_next h with ⟨hn, -⟩ | ⟨y, hy, hadm, rfl⟩
  · cases hn.symm.trans hp
  cases hy.symm.trans hp
  rw [hb, finishPhase_stop (Twm.atStep_currentStep hq hs) rfl]
  cases o with
  | abnormal c => exact ⟨rfl, rfl, rfl, rfl⟩
  | nack => cases hadm
  | _ => cases ho

end Denial

/-! ## Where a write stands -/

/-- Where a run of `WRTXN A, D` stands, when the device held the bytes `m` at its acceptance: at one of its five steps,
with the device at the same one, or ended. -/
inductive WriteStage (a : Address) (d : Byte) (m : Memory) (s : State) : Prop where
  | start {b : Twm} {code : Byte} {p : PH} (hb : s.twm = b.atStep (encode (.wrtxn a d)) 1#3 code p)
      (hm : s.dev.mem = m)
  | select {b : Twm} {code : Byte} (hb : s.twm = b.atStep (encode (.wrtxn a d)) 2#3 code .addr) (hm : s.dev.mem = m)
  | lowAddress {b : Twm} {code : Byte} (hb : s.twm = b.atStep (encode (.wrtxn a d)) 3#3 code .mt)
      (hm : s.dev.mem = m) (hmode : s.dev.mode = .daddr) (hp : s.dev.ptr.extractLsb' 8 3 = a.extractLsb' 8 3)
  | data {b : Twm} {code : Byte} (hb : s.twm = b.atStep (encode (.wrtxn a d)) 4#3 code .mt) (hm : s.dev.mem = m)
      (hmode : s.dev.mode = .ddata) (hp : s.dev.ptr = a)
  | stop {b : Twm} {code : Byte} (hb : s.twm = b.atStep (encode (.wrtxn a d)) 5#3 code .mt) (hm : s.dev.mem = m)
      (hmode : s.dev.mode = .dpend) (hp : s.dev.ptr = a) (hl : s.dev.latch = d)
  /-- ended with `OK`=0 -/
  | failed (hr : s.twm.ready = true) (hok : s.twm.ok = false) (hm : s.dev.mem = m)
  /-- the stop ended abnormally and the bus is still held (R152) -/
  | held (hr : s.twm.ready = true) (hok : s.twm.ok = true) (hp : s.twm.ph ≠ .idle) (hm : s.dev.mem = m)
  | stored (hr : s.twm.ready = true) (hok : s.twm.ok = true) (hp : s.twm.ph = .idle) (hm : s.dev.mem = m.write a d)

section Stage
variable {a : Address} {d : Byte} {m : Memory} {s t : State}

theorem WriteStage.of_quiet (h : WriteStage a d m s) (hq : s.Quiet t) : WriteStage a d m t := by
  obtain ⟨ht, hm', hp', hmode', hl'⟩ := hq
  cases h with
  | start hb hm => exact .start (ht.trans hb) (hm'.trans hm)
  | select hb hm => exact .select (ht.trans hb) (hm'.trans hm)
  | lowAddress hb hm hmode hp => exact .lowAddress (ht.trans hb) (hm'.trans hm) (hmode'.trans hmode) (hp' ▸ hp)
  | data hb hm hmode hp => exact .data (ht.trans hb) (hm'.trans hm) (hmode'.trans hmode) (hp'.trans hp)
  | stop hb hm hmode hp hl =>
    exact .stop (ht.trans hb) (hm'.trans hm) (hmode'.trans hmode) (hp'.trans hp) (hl'.trans hl)
  | failed hr hok hm => exact .failed (ht ▸ hr) (ht ▸ hok) (hm'.trans hm)
  | held hr hok hp hm => exact .held (ht ▸ hr) (ht ▸ hok) (ht ▸ hp) (hm'.trans hm)
  | stored hr hok hp hm => exact .stored (ht ▸ hr) (ht ▸ hok) (ht ▸ hp) (hm'.trans hm)

theorem WriteStage.of_devAnswer (h : WriteStage a d m s) (hd : devAnswer s = .next t) : WriteStage a d m t := by
  by_cases hr : s.twm.ready = true
  · cases (devAnswer_idle (phaseInProgress_ready hr)).symm.trans hd
    exact h
  have hacc := isAccess_wrtxn a d
  cases h with
  | @start b code p hb hm =>
    by_cases hp : p = .idle
    · subst hp
      cases (devAnswer_start hacc hb).symm.trans hd
      exact .select rfl hm
    · cases (devAnswer_heldStart hacc hb hp).symm.trans hd
      exact .failed rfl rfl hm
  | select hb hm =>
    cases hw : s.dev.wbusy
    · cases (devAnswer_select hacc hb hw).symm.trans hd
      refine .lowAddress rfl hm (by simp) ?_
      rw [Dev_onSelect_ptr, address_high_append]
      exact selectByte_address a _
    · cases (devAnswer_refusedSelect hacc hb hw).symm.trans hd
      exact .failed rfl rfl hm
  | lowAddress hb hm hmode hp =>
    cases (devAnswer_lowAddress hacc hb hmode).symm.trans hd
    refine .data rfl hm rfl ?_
    rw [Dev_onLowAddress_ptr, hp]
    exact address_high_low a
  | data hb hm hmode hp =>
    cases (devAnswer_data hb hmode).symm.trans hd
    exact .stop rfl hm rfl hp rfl
  | stop hb hm hmode hp hl =>
    cases (devAnswer_writeStop hb).symm.trans hd
    refine .stored rfl rfl rfl ?_
    rw [Dev.onStop_latched hmode, hm, hp, hl]
  | failed hr' | held hr' | stored hr' => exact absurd hr' hr

theorem WriteStage.of_denial (h : WriteStage a d m s) {o : PhaseOutcome} (ho : (Event.env o).deniesOnly = true)
    (he : envAnswer o s = .next t) : WriteStage a d m t := by
  by_cases hr : s.twm.ready = true
  · cases (envAnswer_idle (phaseInProgress_ready hr) o).symm.trans he
    exact h
  have hw := txnSteps_wrtxn a d
  have fails (hm : s.dev.mem = m) : t.twm.ready = true ∧ t.twm.ok = false ∧ t.dev = s.dev → WriteStage a d m t :=
    fun ⟨hr', hok, hdev⟩ => .failed hr' hok (hdev ▸ hm)
  cases h with
  | start hb hm => exact fails hm (envAnswer_deniesStep hb (n := 0) rfl (by rw [hw]; rfl) (by decide) rfl ho he)
  | select hb hm => exact fails hm (envAnswer_deniesStep hb (n := 1) rfl (by rw [hw]; rfl) (by decide) rfl ho he)
  | lowAddress hb hm => exact fails hm (envAnswer_deniesStep hb (n := 2) rfl (by rw [hw]; rfl) (by decide) rfl ho he)
  | data hb hm => exact fails hm (envAnswer_deniesStep hb (n := 3) rfl (by rw [hw]; rfl) (by decide) rfl ho he)
  | stop hb hm =>
    obtain ⟨hr', hok, hp, hdev⟩ := envAnswer_deniesStop hb (n := 4) rfl (by rw [hw]; rfl) rfl ho he
    exact .held hr' hok (by rw [hp]; decide) (hdev ▸ hm)
  | failed hr' | held hr' | stored hr' => exact absurd hr' hr

theorem WriteStage.of_meanwhile {es : List Event} (hes : ∀ e ∈ es, e.deniesOnly = true) (h : WriteStage a d m s)
    (hm : meanwhile es s = .next t) : WriteStage a d m t := by
  induction es generalizing s with
  | nil => cases hm; exact h
  | cons e es ih =>
    obtain ⟨he, hes⟩ := List.forall_mem_cons.1 hes
    obtain ⟨u, hu, hm⟩ := andThen_next hm
    refine ih hes ?_ hm
    rcases othersStep_cases hu with hq | hd | ⟨o, rfl, ho⟩
    · exact h.of_quiet hq
    · exact h.of_devAnswer hd
    · exact h.of_denial he ho

/-- At every moment of a write the device's bytes are the old ones, or the old ones with the byte of the write. -/
theorem WriteStage.mem (h : WriteStage a d m s) : s.dev.mem = m ∨ s.dev.mem = m.write a d := by
  cases h with
  | stored _ _ _ hm => exact .inr hm
  | _ => exact .inl ‹_›

theorem WriteStage.mem_of_failed (h : WriteStage a d m s) (hok : s.twm.ok = false) : s.dev.mem = m := by
  cases h with
  | stored _ hok' => exact nomatch hok.symm.trans hok'
  | _ => assumption

/-- A write that ended with `OK`=1 stored its byte exactly when its stop left the bus free. -/
theorem WriteStage.mem_of_passed (h : WriteStage a d m s) (hok : s.twm.ok = true) :
    (s.twm.ph ≠ .idle ∧ s.dev.mem = m) ∨ (s.twm.ph = .idle ∧ s.dev.mem = m.write a d) := by
  cases h with
  | failed _ hok' => exact nomatch hok'.symm.trans hok
  | held _ _ hp hm => exact .inl ⟨hp, hm⟩
  | stored _ _ hp hm => exact .inr ⟨hp, hm⟩
  | _ hb => rw [hb] at hok; cases hok

end Stage

/-- A write issued by the host, whatever the device and the scheduler do while it waits. -/
theorem issue_wrtxn_stage {s t : State} {es : List Event} {a : Address} {d : Byte} (hs : s.acceptsBus)
    (hes : ∀ e ∈ es, e.deniesOnly = true) (h : issue es (.wrtxn a d) s = .next t) : WriteStage a d s.dev.mem t := by
  rw [issue, exec_access (isAccess_wrtxn a d) hs, andThen_of_next] at h
  refine WriteStage.of_meanwhile hes ?_ h
  exact .start rfl rfl

/-! ## `CRED_WRITE` -/

/-- A delay of the host, whatever happens meanwhile, leaves the bus engine at rest and the device's bytes. -/
theorem pauseFor_ready {es : List Event} {s t : State} (hr : s.twm.ready = true) (h : pauseFor es s = .next t) :
    t.twm = s.twm ∧ t.dev.mem = s.dev.mem := by
  obtain ⟨u, hu, h⟩ := andThen_next h
  cases h
  obtain ⟨htwm, hmem⟩ := meanwhile_ready hr hu
  exact ⟨(delay_quiet u).twm.trans htwm, (delay_quiet u).mem.trans hmem⟩

/-- How one write of `CRED_WRITE` goes: the host still waits, or it failed, or the host goes on from `u`. -/
theorem writeBytes_cons_cases {a : Address} {d : Byte} {rest : List (Address × Byte)} {slots : List Slot} {s t : State}
    {r : HostResult Unit} (hs : s.acceptsBus) (hslots : ∀ x ∈ slots, ∀ e ∈ x.wait ++ x.pause, e.deniesOnly = true)
    (h : writeBytes ((a, d) :: rest) slots s = .next (t, r)) :
    (r = .unfinished ∧ (t.dev.mem = s.dev.mem ∨ t.dev.mem = s.dev.mem.write a d)) ∨
    (r = .failure ∧ t.dev.mem = s.dev.mem) ∨
    ∃ u, u.acceptsBus ∧ writeBytes rest slots.tail u = .next (t, r) ∧
      ((u.twm.ph ≠ .idle ∧ u.dev.mem = s.dev.mem) ∨ (u.twm.ph = .idle ∧ u.dev.mem = s.dev.mem.write a d)) := by
  have hwait : ∀ e ∈ (slots.headD .silent).wait, e.deniesOnly = true := by
    cases slots with
    | nil => exact fun e he => nomatch he
    | cons x _ => exact fun e he => hslots x List.mem_cons_self e (List.mem_append_left _ he)
  obtain ⟨u, hu, h⟩ := andThen_next h
  have hstage := issue_wrtxn_stage hs hwait hu
  cases hmoves : u.mainMoves
  · cases (afterTxn_waits _ hmoves).symm.trans h
    exact .inl ⟨rfl, hstage.mem⟩
  cases hok : u.twm.ok
  · cases (afterTxn_stops _ hmoves hok).symm.trans h
    exact .inr (.inl ⟨rfl, hstage.mem_of_failed hok⟩)
  rw [afterTxn_goesOn _ hmoves hok] at h
  obtain ⟨v, hv, h⟩ := andThen_next h
  obtain ⟨htwm, hmem⟩ := pauseFor_ready ((mainMoves_iff u).1 hmoves).2 hv
  have hpassed := hstage.mem_of_passed hok
  rw [← htwm, ← hmem] at hpassed
  cases hmoves' : v.mainMoves
  · rw [hmoves'] at h
    cases h
    exact .inl ⟨rfl, hpassed.imp And.right And.right⟩
  · rw [hmoves'] at h
    exact .inr (.inr ⟨v, (mainMoves_iff v).1 hmoves', h, hpassed⟩)

/-- What a run of `CRED_WRITE` leaves at the flag's address `f`, where it found `old` and writes `e` last (R87). -/
def flagResult (f : Address) (old e : Byte) (t : State) : HostResult Unit → Prop
  | .failure => t.dev.mem.read f = old
  | .success () => (t.twm.ph = .idle → t.dev.mem.read f = e) ∧ (t.twm.ph ≠ .idle → t.dev.mem.read f = old)
  | .unfinished => t.dev.mem.read f = old ∨ t.dev.mem.read f = e

/-- Writes at other addresses and then one at `f`: only the last can touch the byte at `f`. -/
theorem writeBytes_flagResult {f : Address} {e : Byte} {xs : List (Address × Byte)} (hxs : ∀ x ∈ xs, f ≠ x.1)
    {slots : List Slot} {s t : State} {r : HostResult Unit} (hs : s.acceptsBus)
    (hslots : ∀ x ∈ slots, ∀ e ∈ x.wait ++ x.pause, e.deniesOnly = true)
    (h : writeBytes (xs ++ [(f, e)]) slots s = .next (t, r)) : flagResult f (s.dev.mem.read f) e t r := by
  induction xs generalizing slots s with
  | nil =>
    rcases writeBytes_cons_cases hs hslots h with ⟨rfl, hm | hm⟩ | ⟨rfl, hm⟩ | ⟨u, -, hu, hp⟩
    · exact .inl (by rw [hm])
    · exact .inr (by rw [hm, Memory.read_write_same])
    · exact congrArg (·.read f) hm
    · cases hu
      rcases hp with ⟨hp, hm⟩ | ⟨hp, hm⟩
      · exact ⟨fun hp' => absurd hp' hp, fun _ => by rw [hm]⟩
      · exact ⟨fun _ => by rw [hm, Memory.read_write_same], fun hp' => absurd hp hp'⟩
  | cons x xs ih =>
    obtain ⟨a, d⟩ := x
    obtain ⟨hne, hxs⟩ := List.forall_mem_cons.1 hxs
    have hkeep : ∀ {m : Memory}, m = s.dev.mem ∨ m = s.dev.mem.write a d → m.read f = s.dev.mem.read f := by
      rintro m (rfl | rfl)
      · rfl
      · exact Memory.read_write_other _ _ _ _ hne
    rcases writeBytes_cons_cases hs hslots h with ⟨rfl, hm⟩ | ⟨rfl, hm⟩ | ⟨u, hacc, hu, hp⟩
    · exact .inl (hkeep hm)
    · exact hkeep (.inl hm)
    · rw [← hkeep (hp.imp And.right And.right)]
      exact ih hxs hacc (fun x hx => hslots x (List.mem_of_mem_tail hx)) hu

/-- Settles O53: the flag is the last of six different addresses, so only the sixth write can touch its byte. -/
theorem presenceFlagOnlyAfterFullWrite : Obligations.PresenceFlagOnlyAfterFullWrite := by
  intro L c slots s t r hL hs hslots h
  have hne : ∀ x ∈ (credAddresses L).zip c.bytes, L.flagAddr ≠ x.1 := fun x hx =>
    ((List.pairwise_append.1 (credWrites_pairwise hL c)).2.2 x hx _ List.mem_cons_self).symm
  have hflag := writeBytes_flagResult hne hs hslots h
  refine ⟨?_, ?_, ?_, ?_⟩ <;> rintro rfl
  · exact hflag
  · exact hflag.1
  · exact hflag.2
  · exact hflag

end Sys2Proof.Machine

/-! The decoder and the encoder (spec 30_encoding.md R91 to R97): a word decodes to a command exactly when it matches a row
of the opcode table, whose mask fixes every bit that no operand field takes. -/

namespace Sys2Proof

section Rows
variable {w : CommandWord} {r : BitVec 4 × CommandWord × CommandWord × Instr}

/-! ## The rows of the table -/

/-- Bits that a mask leaves standing are the bits of the match. -/
theorem extract_of_masked {n : Nat} {x mask v : BitVec n} (h : x &&& mask = v) {lo len : Nat}
    (hm : mask.extractLsb' lo len = BitVec.allOnes len) : x.extractLsb' lo len = v.extractLsb' lo len := by
  rw [← h, BitVec.extractLsb'_and, hm, BitVec.and_allOnes]

/-- Every mask takes in `OP`, and a row's match has the row's `OP` (R92, R94). -/
theorem opField_of_row (hr : r ∈ decodeRows w) (h : w &&& r.2.1 = r.2.2.1) : opField w = r.1 := by
  have hop : ∀ r ∈ decodeRows w,
      r.2.1.extractLsb' 20 4 = BitVec.allOnes 4 ∧ r.2.2.1.extractLsb' 20 4 = r.1 := by
    simp [decodeRows]
  obtain ⟨hmask, hmatch⟩ := hop r hr
  exact (extract_of_masked h hmask).trans hmatch

/-- No two rows have the same `OP` (R94). -/
theorem row_eq_of_op_eq {r' : BitVec 4 × CommandWord × CommandWord × Instr} (hr : r ∈ decodeRows w)
    (hr' : r' ∈ decodeRows w) (h : r.1 = r'.1) : r = r' := by
  have hnodup : ((decodeRows w).map Prod.fst).Nodup := by
    show [0x1#4, 0x2#4, 0x3#4, 0x4#4, 0x5#4, 0x6#4, 0x8#4, 0x9#4, 0xC#4, 0xD#4, 0xE#4, 0xF#4].Nodup
    decide
  exact List.inj_on_of_nodup_map hnodup hr hr' h

/-- A word that matches a row decodes to the row's command (R92, R95). -/
theorem decode_of_row (hr : r ∈ decodeRows w) (h : w &&& r.2.1 = r.2.2.1) : decode w = .command r.2.2.2 := by
  have hop := opField_of_row hr h
  rcases decode_cases w with ⟨-, hno⟩ | ⟨r', hr', hop', ⟨-, hd⟩ | ⟨hne, -⟩⟩
  · exact absurd hop (hno r hr)
  · rwa [row_eq_of_op_eq hr hr' (hop ▸ hop')]
  · exact absurd h (row_eq_of_op_eq hr hr' (hop ▸ hop') ▸ hne)

/-- Only a word that matches a row decodes to a command. -/
theorem row_of_decode {i : Instr} (h : decode w = .command i) :
    ∃ r ∈ decodeRows w, w &&& r.2.1 = r.2.2.1 ∧ r.2.2.2 = i := by
  rcases decode_cases w with ⟨hd, -⟩ | ⟨r, hr, -, ⟨hm, hd⟩ | ⟨-, hd⟩⟩ <;> cases hd.symm.trans h
  exact ⟨r, hr, hm, rfl⟩

/-- The decoder's rows are the rows of the opcode table. -/
theorem wordWellFormed_iff : wordWellFormed w = true ↔ ∃ r ∈ decodeRows w, w &&& r.2.1 = r.2.2.1 := by
  simp [wordWellFormed, opcodeRows, OpcodeRow.holds, decodeRows]

/-- A word is legal exactly when it decodes to a command (R95, R97). -/
theorem wordWellFormed_iff_decode : wordWellFormed w = true ↔ ∃ i, decode w = .command i :=
  wordWellFormed_iff.trans
    ⟨fun ⟨_, hr, h⟩ => ⟨_, decode_of_row hr h⟩, fun ⟨_, h⟩ => (row_of_decode h).imp fun _ ⟨hr, hm, _⟩ => ⟨hr, hm⟩⟩

end Rows

/-! ## Encode, then decode -/

theorem wordWellFormed_of_wordInTable {i : Instr} (h : Laws.WordInTable.Statement i) :
    wordWellFormed (encode i) = true := by
  obtain ⟨r, hr, -, hold⟩ := h
  exact List.any_eq_true.2 ⟨r, hr, hold⟩

/-- The word of every command is legal. -/
theorem wordWellFormed_encode (i : Instr) : wordWellFormed (encode i) = true :=
  wordWellFormed_of_wordInTable <| match i with
  | .start => Laws.WordInTable.start
  | .stop => Laws.WordInTable.stop
  | .writeb d => Laws.WordInTable.writeb d
  | .rdack => Laws.WordInTable.rdack
  | .rdnack => Laws.WordInTable.rdnack
  | .status => Laws.WordInTable.status
  | .wrtxn a d => Laws.WordInTable.wrtxn a d
  | .rdtxn a => Laws.WordInTable.rdtxn a
  | .tseth h => Laws.WordInTable.tseth h
  | .tstart => Laws.WordInTable.tstart
  | .tstop => Laws.WordInTable.tstop
  | .tret => Laws.WordInTable.tret

/-- The row whose `OP` the word of `i` has gives `i`, its operands read back from their fields (R91). -/
theorem row_of_encode (i : Instr) : ∀ r ∈ decodeRows (encode i), opField (encode i) = r.1 → r.2.2.2 = i := by
  cases i with
  | writeb | wrtxn | rdtxn | tseth => simp [decodeRows]
  | _ => decide

/-- Settles O2: the word of `i` is legal, and the one row with its `OP` gives `i` back. -/
theorem decodeOfEncode : Obligations.DecodeOfEncode := by
  intro i
  obtain ⟨r, hr, h⟩ := wordWellFormed_iff.1 (wordWellFormed_encode i)
  rw [decode_of_row hr h, row_of_encode i r hr (opField_of_row hr h)]

/-! ## Decode, then encode -/

/-- A word is its five top bits, its address field and its data field (R91). -/
theorem word_split (w : CommandWord) : w.extractLsb' 19 5 ++ addrField w ++ dataField w = w := by
  have htop : w.extractLsb' 19 5 ++ addrField w = w.extractLsb' 8 16 :=
    BitVec.extractLsb'_append_extractLsb'_eq_extractLsb' rfl
  exact (congrArg (· ++ dataField w) htop).trans (extract_split (m := 16) (n := 8) w)

/-- A mask with every bit leaves one word. -/
theorem eq_of_fullMask {w v : CommandWord} (h : w &&& 0xFFFFFF#24 = v) : v = w :=
  h.symm.trans BitVec.and_allOnes

/-- A word that matches a row is the word of the row's command: no bit of it is ignored. -/
theorem encode_of_row {w : CommandWord} : ∀ r ∈ decodeRows w, w &&& r.2.1 = r.2.2.1 → encode r.2.2.2 = w := by
  have hwriteb (h : w &&& 0xFFFF00#24 = 0x300000#24) : 0x3000#16 ++ dataField w = w := by
    have htop := extract_of_masked h (lo := 8) (len := 16) (by decide)
    exact (congrArg (· ++ dataField w) htop).symm.trans (extract_split (m := 16) (n := 8) w)
  have htseth (h : w &&& 0xFF0000#24 = 0xC00000#24) : 0xC0#8 ++ handlerField w = w := by
    have htop := extract_of_masked h (lo := 16) (len := 8) (by decide)
    exact (congrArg (· ++ handlerField w) htop).symm.trans (extract_split (m := 8) (n := 16) w)
  have hwrtxn (h : w &&& 0xF80000#24 = 0x800000#24) : 0b10000#5 ++ addrField w ++ dataField w = w := by
    have htop := extract_of_masked h (lo := 19) (len := 5) (by decide)
    exact (congrArg (· ++ addrField w ++ dataField w) htop).symm.trans (word_split w)
  have hrdtxn (h : w &&& 0xF800FF#24 = 0x900000#24) : 0b10010#5 ++ addrField w ++ 0#8 = w := by
    have htop := extract_of_masked h (lo := 19) (len := 5) (by decide)
    have hlow := extract_of_masked h (lo := 0) (len := 8) (by decide)
    exact (congrArg₂ (· ++ addrField w ++ ·) htop hlow).symm.trans (word_split w)
  simp only [decodeRows, List.forall_mem_cons]
  exact ⟨eq_of_fullMask, eq_of_fullMask, hwriteb, eq_of_fullMask, eq_of_fullMask, eq_of_fullMask, hwrtxn, hrdtxn, htseth,
    eq_of_fullMask, eq_of_fullMask, eq_of_fullMask, fun _ h => nomatch h⟩

/-- Settles O3. -/
theorem encodeOfDecode : Obligations.EncodeOfDecode := by
  intro w i h
  obtain ⟨r, hr, hm, rfl⟩ := row_of_decode h
  exact encode_of_row r hr hm

/-! ## Illegal words -/

/-- A word is illegal, for one reason or the other, exactly when it matches no row (R97). -/
theorem decode_illegal_iff (w : CommandWord) : (∃ r, decode w = .illegal r) ↔ wordWellFormed w = false := by
  rw [← Bool.not_eq_true, wordWellFormed_iff_decode]
  cases decode w <;> simp

/-- The reserved values of `OP` are those of no row (R94, R97). -/
theorem decode_reservedOp_iff (w : CommandWord) :
    decode w = .illegal .reservedOp ↔ opField w ∈ [0x0#4, 0x7#4, 0xA#4, 0xB#4] := by
  have hrows : (∀ r ∈ decodeRows w, opField w ≠ r.1) ↔ opField w ∈ [0x0#4, 0x7#4, 0xA#4, 0xB#4] := by
    simp only [decodeRows, List.forall_mem_cons]
    generalize opField w = op
    revert op
    decide
  rw [← hrows]
  rcases decode_cases w with ⟨hd, hno⟩ | ⟨r, hr, hop, ⟨-, hd⟩ | ⟨-, hd⟩⟩
  · exact ⟨fun _ => hno, fun _ => hd⟩
  all_goals exact ⟨(fun h => nomatch hd.symm.trans h), fun h => absurd hop (h r hr)⟩

/-- Bit 19 is marked must-be-zero in every format (R92, R97). -/
theorem wordWellFormed_of_bit19 {w : CommandWord} (h : w.getLsbD 19 = true) : wordWellFormed w = false := by
  have hrows : ∀ r ∈ opcodeRows, r.wordMask.getLsbD 19 = true ∧ r.wordMatch.getLsbD 19 = false := by decide
  refine List.any_eq_false.2 fun r hr hold => ?_
  obtain ⟨hmask, hmatch⟩ := hrows r hr
  rw [← beq_iff_eq.1 hold, BitVec.getLsbD_and, h, hmask] at hmatch
  cases hmatch

/-- Settles O4. -/
theorem illegalWordRecordsFaultOnly : Obligations.IllegalWordRecordsFaultOnly := by
  refine ⟨decode_illegal_iff, decode_reservedOp_iff, fun _ => wordWellFormed_of_bit19, by decide, by decide,
    fun w s h => ?_⟩
  obtain ⟨r, hd⟩ := (decode_illegal_iff w).2 h
  exact Machine.presentWord_illegal hd s

/-! ## Words written out (95, section 2.1) -/

/-- Settles O1: the legal words are the words of their commands, and so decode to them. -/
theorem tableWordsDecode : Obligations.TableWordsDecode :=
  ⟨decodeOfEncode .start, decodeOfEncode (.writeb 0xA6#8), decodeOfEncode (.wrtxn 0x311#11 0x35#8),
    decodeOfEncode (.wrtxn 0x7FF#11 0xFF#8), decodeOfEncode (.rdtxn 0x311#11), decodeOfEncode (.tseth 0x0D01#16),
    decodeOfEncode .tret, by decide, by decide, by decide⟩

end Sys2Proof

/-! Where the pseudo-operations stop (spec 30_encoding.md R111 to R114): a transaction that the device carries to one of its
verified steps and that is refused or answered abnormally there ends with `fail(n)` (41_bus_transactions.md R142), and the
host goes no further. -/

namespace Sys2Proof.Machine

/-! ## A transaction at a verified step -/

/-- The verified steps of a transaction (R140, R143, R146): how many steps come before it, its phase, the code it must reach,
and the `PH` it begins in. -/
inductive VerifiedStep : Instr → Nat → Phase → Byte → PH → Prop where
  | start {i : Instr} {a : Address} (h : IsAccess i a) : VerifiedStep i 0 .startCond Config.ST_START .idle
  | select {i : Instr} {a : Address} (h : IsAccess i a) :
      VerifiedStep i 1 (.byteOut (selw a)) Config.ST_SLAW_ACK .addr
  | lowAddress {i : Instr} {a : Address} (h : IsAccess i a) :
      VerifiedStep i 2 (.byteOut (alo a)) Config.ST_DATA_ACK .mt
  | data (a : Address) (d : Byte) : VerifiedStep (.wrtxn a d) 3 (.byteOut d) Config.ST_DATA_ACK .mt
  | repeatedStart (a : Address) : VerifiedStep (.rdtxn a) 3 .startCond Config.ST_RSTART .mt
  | selectRead (a : Address) : VerifiedStep (.rdtxn a) 4 (.byteOut (selr a)) Config.ST_SLAR_ACK .addr
  | read (a : Address) : VerifiedStep (.rdtxn a) 5 (.byteIn .nack) Config.ST_RX_NACK .mr

/-- A transaction accepted in `s` ended in `t` with `fail(n)` at a phase with code `code` (R142), the host free to move, no
fault recorded and the device's bytes as they were. -/
structure State.StoppedAt (s : State) (n : Nat) (code : Byte) (t : State) : Prop where
  accepts : t.acceptsBus
  ok : t.twm.ok = false
  fstep : t.twm.fstep.toNat = n
  seq : t.twm.seq = 0#3
  status : t.twm.status = code
  fault : t.fault = s.fault
  mem : t.dev.mem = s.dev.mem

section Verified
variable {i : Instr} {j : Nat} {x : Phase} {c : Byte} {p : PH} {s : State} {o : PhaseOutcome}

theorem VerifiedStep.step (h : VerifiedStep i j x c p) : (txnSteps (encode i))[j]? = some ⟨x, some c⟩ := by
  cases h with
  | start h => exact h.startStep
  | select h => exact h.selectStep
  | lowAddress h => exact h.lowAddressStep
  | _ => simp [writeSteps, readSteps]

theorem VerifiedStep.allowed (h : VerifiedStep i j x c p) : x.allowedIn p = true := by cases h <;> rfl

theorem VerifiedStep.code_mem_six (h : VerifiedStep i j x c p) : c ∈ Config.SIX := by cases h <;> decide

theorem VerifiedStep.seq_toNat (h : VerifiedStep i j x c p) : (BitVec.ofNat 3 (j + 1)).toNat = j + 1 := by
  cases h <;> rfl

/-- A refusal or an abnormal outcome never has the code a verified step must reach (R31). -/
theorem VerifiedStep.statusAfter_denial (h : VerifiedStep i j x c p) (hadm : x.admits o = true)
    (ho : (Event.env o).deniesOnly = true) : statusAfter x p o ≠ c := fun e => by
  rcases (sixCodesOnlyForTheirOutcomes x p o h.allowed hadm).1 (e ▸ h.code_mem_six) with rfl | rfl | ⟨-, v, rfl⟩ <;>
    cases ho

/-- From calm the device carries a transaction to each of its verified steps, and stores nothing on the way. -/
theorem VerifiedStep.reached (h : VerifiedStep i j x c p) (hs : s.Calm) :
    ∃ (t u : State) (codes : List Byte) (b : Twm) (code : Byte), exec i s = .next t ∧ DevRun codes t u ∧
      codes.length = j ∧
      u.twm = b.atStep (encode i) (BitVec.ofNat 3 (j + 1)) code p ∧
      u.tks = s.tks ∧ u.fault = s.fault ∧ u.dev.mem = s.dev.mem := by
  obtain ⟨hacc, hp, hw⟩ := hs
  cases h with
  | start h => exact ⟨_, _, _, _, _, exec_access_idle h hacc hp, .nil _, rfl, rfl, rfl, rfl, rfl⟩
  | select h => exact ⟨_, _, _, _, _, exec_access_idle h hacc hp, .one (devAnswer_start h rfl), rfl, rfl, rfl, rfl, rfl⟩
  | lowAddress h =>
    exact ⟨_, _, _, _, _, exec_access_idle h hacc hp,
      .cons (devAnswer_start h rfl) (.one (devAnswer_select h rfl hw)), rfl, rfl, rfl, rfl, rfl⟩
  | data a d =>
    obtain ⟨t, ht, r⟩ := exec_access_addressed hacc (isAccess_wrtxn a d) hp hw
    exact ⟨t, _, _, _, _, ht, r, rfl, rfl, rfl, rfl, rfl⟩
  | repeatedStart a =>
    obtain ⟨t, ht, r⟩ := exec_access_addressed hacc (isAccess_rdtxn a) hp hw
    exact ⟨t, _, _, _, _, ht, r, rfl, rfl, rfl, rfl, rfl⟩
  | selectRead a =>
    obtain ⟨t, ht, r⟩ := exec_access_addressed hacc (isAccess_rdtxn a) hp hw
    exact ⟨t, _, _, _, _, ht, r.append (.one (devAnswer_repeatedStart rfl)), rfl, rfl, rfl, rfl, rfl⟩
  | read a =>
    obtain ⟨t, ht, r⟩ := exec_access_addressed hacc (isAccess_rdtxn a) hp hw
    exact ⟨t, _, _, _, _, ht, r.append (.cons (devAnswer_repeatedStart rfl) (.one (devAnswer_selectRead rfl hw))),
      rfl, rfl, rfl, rfl, rfl⟩

/-- An answer of the oracle that has not the expected code ends a transaction with `fail(n)` (R142). -/
theorem envAnswer_fails {b : Twm} {w : CommandWord} {q : BitVec 3} {code : Byte} {n : Nat}
    (hb : s.twm = b.atStep w q code p) (hq : q.toNat = n + 1) (hs : (txnSteps w)[n]? = some ⟨x, some c⟩)
    (ha : x.allowedIn p = true) (hadm : x.admits o = true) (hc : statusAfter x p o ≠ c) :
    envAnswer o s = .next { s with
      twm := (b.received x o).failedAt w q (statusAfter x p o) (phAfter x p o) } := by
  have hp : s.twm.phaseInProgress = some x := hb ▸ Twm.atStep_phaseInProgress hq hs ha
  rw [envAnswer_admitted hp hadm, hb, finishPhase_failed (Twm.atStep_currentStep hq hs) rfl hc]
  rfl

/-- A transaction carried by the device to a verified step, and denied that step. -/
theorem VerifiedStep.issue_denied (h : VerifiedStep i j x c p) (hs : s.Calm) (hadm : x.admits o = true)
    (ho : (Event.env o).deniesOnly = true) :
    ∃ t, issue (List.replicate j .dev ++ [.env o]) i s = .next t ∧ s.StoppedAt (j + 1) (statusAfter x p o) t := by
  obtain ⟨t, u, codes, b, code, ht, r, rfl, htwm, htks, hfault, hmem⟩ := h.reached hs
  have hfail := envAnswer_fails htwm h.seq_toNat h.step h.allowed hadm (h.statusAfter_denial hadm ho)
  have hissue : issue (List.replicate codes.length .dev ++ [.env o]) i s = andThen (envAnswer o u) .next := by
    rw [issue, ht, andThen_of_next, meanwhile_append, meanwhile_dev, r.answers, andThen_of_next]
    rfl
  rw [hfail] at hissue
  exact ⟨_, hissue, ⟨(congrArg Tks.insvc htks).trans hs.accepts.1, rfl⟩, rfl, h.seq_toNat, rfl, rfl, hfault, hmem⟩

end Verified

/-- The verified steps of a write, and the codes of their refusals (R31, R143). -/
theorem wrtxn_verifiedStep (a : Address) (d : Byte) {j : Nat} (hj : j ≤ 3) :
    ∃ x c p, VerifiedStep (.wrtxn a d) j x c p ∧ (1 ≤ j → x.admits .nack = true ∧
      statusAfter x p .nack = if j = 1 then Config.ST_SLAW_NACK else Config.ST_DATA_NACK) := by
  have h := isAccess_wrtxn a d
  match j, hj with
  | 0, _ => exact ⟨_, _, _, .start h, by simp⟩
  | 1, _ => exact ⟨_, _, _, .select h, by simp⟩
  | 2, _ => exact ⟨_, _, _, .lowAddress h, by simp⟩
  | 3, _ => exact ⟨_, _, _, .data a d, by simp⟩

/-- The verified steps of a read, and the codes of their refusals (R31, R146). -/
theorem rdtxn_verifiedStep (a : Address) {j : Nat} (hj : j ≤ 5) :
    ∃ x c p, VerifiedStep (.rdtxn a) j x c p ∧ (j = 1 ∨ j = 2 ∨ j = 4 → x.admits .nack = true ∧
      statusAfter x p .nack = if j = 1 then Config.ST_SLAW_NACK else if j = 2 then Config.ST_DATA_NACK
        else Config.ST_SLAR_NACK) := by
  have h := isAccess_rdtxn a
  match j, hj with
  | 0, _ => exact ⟨_, _, _, .start h, by simp⟩
  | 1, _ => exact ⟨_, _, _, .select h, by simp⟩
  | 2, _ => exact ⟨_, _, _, .lowAddress h, by simp⟩
  | 3, _ => exact ⟨_, _, _, .repeatedStart a, by simp⟩
  | 4, _ => exact ⟨_, _, _, .selectRead a, by simp⟩
  | 5, _ => exact ⟨_, _, _, .read a, by simp⟩

/-! ## The transactions that go well before it -/

theorem devAnswers_fault {n : Nat} {s t : State} (h : devAnswers n s = .next t) : t.fault = s.fault := by
  induction n generalizing s with
  | zero => cases h; rfl
  | succ n ih =>
    obtain ⟨u, hu, -, hf, -⟩ := devAnswer_next s
    rw [devAnswers, hu, andThen_of_next] at h
    exact (ih h).trans hf

/-- A transaction that is accepted, and runs under the device, records no fault. -/
theorem issueUnderDev_fault {i : Instr} {a : Address} {s t : State} (h : IsAccess i a) (hs : s.acceptsBus)
    (hi : issueUnderDev i s = .next t) : t.fault = s.fault := by
  rw [issueUnderDev_eq, exec_access h hs, andThen_of_next] at hi
  exact (devAnswers_fault hi :)

/-- Writes that go well, under the device and from calm: the host goes on from calm with the writes after them. -/
theorem writeBytes_append_ofDev (xs rest : List (Address × Byte)) (slots : List Slot) {s : State} (hs : s.Calm) :
    ∃ t : State, t.Calm ∧ t.dev.mem = s.dev.mem.writeAll xs ∧ t.fault = s.fault ∧
      writeBytes (xs ++ rest) (List.replicate xs.length Slot.ofDev ++ slots) s = writeBytes rest slots t := by
  induction xs generalizing s with
  | nil => exact ⟨s, hs, rfl, rfl, rfl⟩
  | cons x xs ih =>
    obtain ⟨a, d⟩ := x
    obtain ⟨t, ht, hacc, hok, hp, hm⟩ := issue_wrtxn_calm hs a d
    obtain ⟨hc, hmd⟩ := calm_delay hacc hp
    obtain ⟨u, hcu, hmu, hfu, hu⟩ := ih hc
    have hfault : (delay t).fault = s.fault := by
      rw [delay_acceptsBus hacc, settle_fault, issueUnderDev_fault (isAccess_wrtxn a d) hs.accepts ht]
    have hissue : issue Slot.ofDev.wait (.wrtxn a d) s = .next t := ht
    have hpause : pauseFor Slot.ofDev.pause t = .next (delay t) := rfl
    refine ⟨u, hcu, by rw [hmu, hmd, hm, Memory.writeAll_cons], hfu.trans hfault, ?_⟩
    simp only [List.length_cons, List.replicate_succ, List.cons_append, writeBytes, List.headD_cons, List.tail_cons,
      hissue, andThen_of_next, afterTxn_goesOn _ ((mainMoves_iff t).2 hacc) hok, hpause, hc.mainMoves,
      Bool.true_eq_false, if_false, hu]

/-- Reads that go well, under the device and from calm: the host goes on from calm, and fails where the reads after them
fail. -/
theorem readBytes_append_dev (as rest : List Address) (waits : List (List Event)) {s : State} (hs : s.Calm) :
    ∃ t : State, t.Calm ∧ t.dev.mem = s.dev.mem ∧ t.fault = s.fault ∧
      ∀ v, readBytes rest waits t = .next (v, .failure) →
        readBytes (as ++ rest) (List.replicate as.length devAnswersAll ++ waits) s = .next (v, .failure) := by
  induction as generalizing s with
  | nil => exact ⟨s, hs, rfl, rfl, fun _ h => h⟩
  | cons a as ih =>
    obtain ⟨t, ht, hc, hok, -, hm⟩ := issue_rdtxn_calm hs a
    obtain ⟨u, hcu, hmu, hfu, hu⟩ := ih hc
    refine ⟨u, hcu, hmu.trans hm, hfu.trans (issueUnderDev_fault (isAccess_rdtxn a) hs.accepts ht), fun v hv => ?_⟩
    have hissue : issue devAnswersAll (.rdtxn a) s = .next t := ht
    simp only [List.length_cons, List.replicate_succ, List.cons_append, readBytes, List.headD_cons, List.tail_cons, hissue,
      andThen_of_next, afterTxn_goesOn _ hc.mainMoves hok, hu v hv, HostResult_map_failure]

/-! ## The pseudo-operations -/

/-- An answer that denies phase `x`, a refusal where `P` admits one or an abnormal outcome, and the code it leaves (R31). -/
theorem denial_status {x : Phase} {p : PH} {o : PhaseOutcome} {P : Prop} {code : Byte}
    (hnack : P → x.admits .nack = true ∧ statusAfter x p .nack = code)
    (ho : (o = .nack ∧ P) ∨ ∃ c, o = .abnormal c ∧ c ∉ Config.SIX) :
    x.admits o = true ∧ (Event.env o).deniesOnly = true ∧ (∀ c, o = .abnormal c → statusAfter x p o = c) ∧
      (o = .nack → statusAfter x p o = code) := by
  rcases ho with ⟨rfl, hp⟩ | ⟨c, rfl, hc⟩
  · exact ⟨(hnack hp).1, rfl, (fun _ h => nomatch h), fun _ => (hnack hp).2⟩
  · exact ⟨by simpa using hc, rfl, fun _ h => by cases h; simp, fun h => nomatch h⟩

/-- Settles O55: `k` writes go well and lead back to calm, and the next one is denied. -/
theorem credWriteStopsAtEachFailure : Obligations.CredWriteStopsAtEachFailure := by
  intro L c s k j o hs hp hw hk hj ho
  have hlen : (credWrites L c).length = 6 := rfl
  have hxs : ((credWrites L c).take k).length = k := List.length_take_of_le (by omega)
  obtain ⟨u, hu, hmu, hfu, hrun⟩ := writeBytes_append_ofDev ((credWrites L c).take k) ((credWrites L c).drop k)
    [⟨List.replicate j .dev ++ [.env o], []⟩] (s := s) ⟨hs, hp, hw⟩
  rw [List.take_append_drop, hxs] at hrun
  obtain ⟨⟨a, d⟩, rest, hrest⟩ :=
    List.exists_cons_of_length_pos (l := (credWrites L c).drop k) (by rw [List.length_drop]; omega)
  obtain ⟨x, e, p, hv, hnack⟩ := wrtxn_verifiedStep a d hj
  obtain ⟨hadm, hdeny, habnormal, hrefused⟩ := denial_status hnack ho
  obtain ⟨t, ht, hstop⟩ := hv.issue_denied hu hadm hdeny
  refine ⟨t, ?_, hstop.accepts.2, hstop.ok, hstop.fstep, hstop.seq, fun y hy => hstop.status.trans (habnormal y hy),
    fun hn => hstop.status.trans (hrefused hn), phaseInProgress_ready hstop.accepts.2, hstop.fault.trans hfu,
    hstop.mem.trans hmu⟩
  rw [credWrite, hrun, hrest, writeBytes, List.headD_cons, ht, andThen_of_next,
    afterTxn_stops _ ((mainMoves_iff t).2 hstop.accepts) hstop.ok]

/-- Settles O56: `k` reads go well and lead back to calm, and the next one is denied. -/
theorem credReadStopsAtEachFailure : Obligations.CredReadStopsAtEachFailure := by
  intro L s k j o hs hp hw hk hj ho
  have hlen : (credAddresses L).length = 5 := rfl
  have has : ((credAddresses L).take k).length = k := List.length_take_of_le (by omega)
  obtain ⟨u, hu, hmu, hfu, hrun⟩ := readBytes_append_dev ((credAddresses L).take k) ((credAddresses L).drop k)
    [List.replicate j .dev ++ [.env o]] (s := s) ⟨hs, hp, hw⟩
  rw [List.take_append_drop, has] at hrun
  obtain ⟨a, rest, hrest⟩ :=
    List.exists_cons_of_length_pos (l := (credAddresses L).drop k) (by rw [List.length_drop]; omega)
  obtain ⟨x, e, p, hv, hnack⟩ := rdtxn_verifiedStep a hj
  obtain ⟨hadm, hdeny, habnormal, hrefused⟩ := denial_status hnack ho
  obtain ⟨t, ht, hstop⟩ := hv.issue_denied hu hadm hdeny
  refine ⟨t, ?_, hstop.accepts.2, hstop.ok, hstop.fstep, hstop.seq, fun y hy => hstop.status.trans (habnormal y hy),
    fun hn => hstop.status.trans (hrefused hn), phaseInProgress_ready hstop.accepts.2, hstop.fault.trans hfu,
    hstop.mem.trans hmu⟩
  refine hrun t ?_
  rw [hrest, readBytes, List.headD_cons, ht, andThen_of_next,
    afterTxn_stops _ ((mainMoves_iff t).2 hstop.accepts) hstop.ok]

/-- Settles O57: the flag's read succeeds from calm and brings the flag byte. -/
theorem hasCredComparesFlag : Obligations.HasCredComparesFlag :=
  fun L _ hs hp hw => hasCred_dev L ⟨hs, hp, hw⟩

/-- `TSETH` is not turned away while the scheduler is stopped (R163). -/
theorem exec_tseth_stopped {s : State} (hr : s.tks.run = false) (h : Token) :
    exec (.tseth h) s = .next { s with tks := s.tks.register h } := by
  simp [exec, execTseth, hr]

/-- Settles O47: `TSTOP` leaves `T_RUN`=0, so `TSETH` after it registers its handler, and `TSTART` starts a period. -/
theorem rearmEffect : Obligations.RearmEffect := by
  intro s h
  calc issueAll (rearm h) s
    _ = andThen (exec (.tseth h) { s with tks := s.tks.stop }) (issueAll [.tstart]) := rfl
    _ = issueAll [.tstart] { s with tks := s.tks.stop.register h } := by rw [exec_tseth_stopped rfl]; rfl
    _ = _ := rfl

end Sys2Proof.Machine

/-! Which events stop the machine (spec 40_bus_primitives.md R121; log 3), and what one command and one answer of the
environment leave unchanged (10_state.md R22 to R28; 40_bus_primitives.md R120; 42_tick_scheduler.md R161). -/

namespace Sys2Proof.Machine

/-! ## Stops (log 3) -/

/-- The event names an answer that is not one R121 admits for the phase in progress. -/
def Event.Inadmissible (e : Event) (b : Twm) : Prop :=
  ∃ o x, e = .env o ∧ b.phaseInProgress = some x ∧ x.admits o = false

theorem envAnswer_stops {s : State} {x : Phase} (hx : s.twm.phaseInProgress = some x) {o : PhaseOutcome}
    (ho : x.admits o = false) : envAnswer o s = .fault .outcomeNotAdmitted := by
  simp [envAnswer, hx, completePhase, ho]

/-- An event stops the machine or has a next state, and the first exactly when it names an inadmissible answer. -/
theorem perform_stops_or_next (e : Event) (s : State) :
    (e.Inadmissible s.twm ∧ perform e s = .fault .outcomeNotAdmitted) ∨
      (¬ e.Inadmissible s.twm ∧ ∃ t, perform e s = .next t) := by
  cases hev : e.isEnv with
  | false =>
    refine .inr ⟨?_, perform_next hev s⟩
    rintro ⟨o, x, rfl, -, -⟩
    cases hev
  | true =>
    obtain ⟨o, rfl⟩ : ∃ o, e = .env o := by cases e <;> simp [Event.isEnv] at hev ⊢
    cases hx : s.twm.phaseInProgress with
    | none => exact .inr ⟨(fun ⟨_, _, _, hx', _⟩ => nomatch hx.symm.trans hx'), s, envAnswer_idle hx o⟩
    | some x =>
      cases ho : x.admits o with
      | false => exact .inl ⟨⟨o, x, rfl, hx, ho⟩, envAnswer_stops hx ho⟩
      | true =>
        refine .inr ⟨?_, _, envAnswer_admitted hx ho⟩
        rintro ⟨o', x', he, hx', ho'⟩
        cases he
        cases hx.symm.trans hx'
        cases ho.symm.trans ho'

/-- Settles O7: a step is idle or performs the head of the agenda. -/
theorem stopsOnlyOnInadmissibleAnswer : Obligations.StopsOnlyOnInadmissibleAnswer := by
  intro s
  cases hag : s.agenda with
  | nil => simp [step_idle hag]
  | cons e es =>
    have hiff : (∃ o rest x, e :: es = .env o :: rest ∧ s.twm.phaseInProgress = some x ∧ x.admits o = false) ↔
        e.Inadmissible s.twm := by
      simp [Event.Inadmissible]
    rw [step_cons hag, hiff]
    rcases perform_stops_or_next e { s with agenda := es } with ⟨hin, hp⟩ | ⟨hin, t, hp⟩ <;> rw [hp]
    · exact ⟨iff_of_true ⟨_, rfl⟩ hin, fun _ h => nomatch h⟩
    · exact ⟨iff_of_false (fun ⟨_, h⟩ => nomatch h) hin, fun _ h => nomatch h⟩

/-! ## A command (R120, R161, R196) -/

/-- What the acceptance of a bus command does to the bus engine: nothing for `STATUS` (R127), more for a transaction. -/
def acceptance : Instr → Twm → Twm
  | .status => id
  | .wrtxn a d => Twm.acceptTxn (encode (.wrtxn a d))
  | .rdtxn a => Twm.acceptTxn (encode (.rdtxn a))
  | i => Twm.accept (encode i)

/-- Every bus command is an acceptance after a check of `PH`. -/
theorem exec_bus {i : Instr} (h : i.isBus = true) (s : State) :
    ∃ allowed, exec i s = .next (acceptBus allowed (acceptance i) s) := by
  cases i with
  | tseth | tstart | tstop | tret => cases h
  | _ => exact ⟨_, rfl⟩

/-- Everything a command can do: record a fault, be accepted by the bus engine, or move the scheduler. -/
theorem exec_cases (i : Instr) (s : State) : ∃ t, exec i s = .next t ∧
    ((∃ c, t = s.raise c) ∨ (i.isBus = true ∧ t = { s with twm := acceptance i s.twm }) ∨
      (i.isBus = false ∧ ∃ k, t = { s with tks := k })) := by
  cases hb : i.isBus with
  | true =>
    obtain ⟨allowed, he⟩ := exec_bus hb s
    refine ⟨_, he, ?_⟩
    rcases acceptBus_cases allowed (acceptance i) s with ⟨-, h⟩ | ⟨-, -, h⟩ | ⟨-, -, -, h⟩ | ⟨-, -, -, h⟩
    · exact .inl ⟨_, h⟩
    · exact .inl ⟨_, h⟩
    · exact .inl ⟨_, h⟩
    · exact .inr (.inl ⟨rfl, h⟩)
  | false =>
    cases i with
    | tseth h =>
      refine ⟨_, rfl, ?_⟩
      split
      · exact .inl ⟨_, rfl⟩
      · exact .inr (.inr ⟨rfl, _, rfl⟩)
    | tstart => exact ⟨_, rfl, .inr (.inr ⟨rfl, _, rfl⟩)⟩
    | tstop => exact ⟨_, rfl, .inr (.inr ⟨rfl, _, rfl⟩)⟩
    | tret =>
      refine ⟨_, rfl, ?_⟩
      split
      · exact .inl ⟨_, rfl⟩
      · exact .inr (.inr ⟨rfl, _, rfl⟩)
    | _ => cases hb

/-- Acceptance leaves what only the completion of a phase writes (R25, R26, R29). -/
theorem acceptance_frame (i : Instr) (b : Twm) : (acceptance i b).status = b.status ∧
    (acceptance i b).rxdata = b.rxdata ∧ (acceptance i b).ph = b.ph := by
  cases i <;> exact ⟨rfl, rfl, rfl⟩

/-- Only the two transactions write `OK`, `FSTEP`, `SEQ` when they are accepted (R22, R23, R24). -/
theorem acceptance_frame_primitive {i : Instr} (hw : ∀ a d, i ≠ .wrtxn a d) (hr : ∀ a, i ≠ .rdtxn a) (b : Twm) :
    (acceptance i b).ok = b.ok ∧ (acceptance i b).fstep = b.fstep ∧ (acceptance i b).seq = b.seq := by
  cases i with
  | wrtxn a d => exact absurd rfl (hw a d)
  | rdtxn a => exact absurd rfl (hr a)
  | _ => exact ⟨rfl, rfl, rfl⟩

/-- Settles O17, by what a command can do. -/
theorem commandFrame : Obligations.CommandFrame := by
  intro i s t h
  obtain ⟨u, hu, hcases⟩ := exec_cases i s
  cases hu.symm.trans h
  rcases hcases with ⟨c, rfl⟩ | ⟨hb, rfl⟩ | ⟨hb, k, rfl⟩
  · exact ⟨fun _ => rfl, fun _ => rfl, rfl, rfl, rfl, fun _ _ => ⟨rfl, rfl, rfl⟩, fun _ => ⟨rfl, rfl⟩,
      fun _ => ⟨rfl, rfl⟩, rfl, fun _ => rfl, rfl, rfl⟩
  · obtain ⟨hstatus, hrxdata, hph⟩ := acceptance_frame i s.twm
    refine ⟨fun _ => rfl, (fun hn => nomatch hb.symm.trans hn), hstatus, hrxdata, hph,
      fun hw hr => acceptance_frame_primitive hw hr s.twm, ?_, fun hf => absurd rfl hf, rfl, fun _ => rfl, rfl, rfl⟩
    rintro rfl
    exact ⟨rfl, rfl⟩
  · exact ⟨(fun hy => nomatch hb.symm.trans hy), fun _ => rfl, rfl, rfl, rfl, fun _ _ => ⟨rfl, rfl, rfl⟩,
      fun _ => ⟨rfl, rfl⟩, fun hf => absurd rfl hf, rfl, fun _ => rfl, rfl, rfl⟩

/-! ## The completion of a phase (R121) -/

/-- What follows a completed phase writes neither `CMDR` nor `RXDATA`. -/
theorem proceed_frame (b : Twm) : b.proceed.cmdr = b.cmdr ∧ b.proceed.rxdata = b.rxdata := by
  rcases proceed_cases b with ⟨-, h⟩ | ⟨-, -, -, h⟩ | ⟨-, -, -, h⟩ | ⟨-, -, -, -, -, h⟩ <;> rw [h] <;> exact ⟨rfl, rfl⟩

@[simp] theorem finishPhase_cmdr (b : Twm) (x : Phase) (o : PhaseOutcome) : (b.finishPhase x o).cmdr = b.cmdr :=
  (proceed_frame (b.record x o)).1

@[simp] theorem finishPhase_rxdata (b : Twm) (x : Phase) (o : PhaseOutcome) :
    (b.finishPhase x o).rxdata = rxdataAfter x o b.rxdata :=
  (proceed_frame (b.record x o)).2

/-- `RXDATA` keeps its value unless a byte came in (R26). -/
theorem rxdataAfter_no_byte {x : Phase} {o : PhaseOutcome} (h : ∀ k v, ¬ (x = .byteIn k ∧ o = .byte v)) (old : Byte) :
    rxdataAfter x o old = old := by
  unfold rxdataAfter
  split
  · next k v => exact absurd ⟨rfl, rfl⟩ (h k v)
  · rfl

/-- Settles O18, by what an answer can do: with no phase in progress nothing, else complete the phase. -/
theorem phaseFrame : Obligations.PhaseFrame := by
  intro o s t h
  rcases envAnswer_next h with ⟨-, rfl⟩ | ⟨x, hx, -, rfl⟩
  · exact ⟨rfl, rfl, rfl, rfl, fun _ => rfl, rfl, rfl, fun _ => rfl, fun _ => ⟨rfl, rfl⟩, fun _ => rfl⟩
  · refine ⟨rfl, rfl, finishPhase_cmdr s.twm x o, rfl, fun _ => rfl, rfl, rfl, fun hno => ?_, fun h0 => ?_,
      fun hn => nomatch hx.symm.trans hn⟩
    · exact (finishPhase_rxdata s.twm x o).trans
        (rxdataAfter_no_byte (fun k v ⟨hk, hv⟩ => hno k v ⟨hx.trans (congrArg some hk), hv⟩) s.twm.rxdata)
    · exact finishPhase_primitive h0 x o ▸ ⟨rfl, rfl⟩

end Sys2Proof.Machine

/-! The bus primitives one by one (spec 40_bus_primitives.md R120 to R127, R129): a command that is one phase is turned
away, accepted, and completed in the same way whatever its phase; `STATUS` is no phase at all. -/

namespace Sys2Proof.Machine

/-! ## A primitive and its phase -/

/-- What a check of acceptance that fails does is what R203 says, when `exec i` is that acceptance. -/
theorem busFaults_of_acceptBus {i : Instr} {allowed : PH → Bool} {f : Twm → Twm} {s : State}
    (h : exec i s = .next (acceptBus (allowed s.twm.ph) f s)) : busFaults i allowed s := by
  refine ⟨fun hc => ?_, fun hc hr => ?_, fun ⟨hc, hr⟩ ha => ?_⟩ <;> rw [h]
  · simp only [acceptBus, hc, if_true]; rfl
  · simp only [acceptBus, hc, hr, if_true]; rfl
  · simp only [acceptBus, hc, hr, ha, if_true]; rfl

/-- The command `i` is the one phase `x`: it is accepted in the `PH` in which `x` may begin (R122 to R126, R129). -/
structure IsPrimitive (i : Instr) (x : Phase) : Prop where
  phase : primitivePhase (encode i) = some x
  exec_eq : ∀ s, exec i s = .next (acceptBus (x.allowedIn s.twm.ph) (Twm.accept (encode i)) s)

theorem isPrimitive_start : IsPrimitive .start .startCond := ⟨primitivePhase_start, fun _ => rfl⟩
theorem isPrimitive_stop : IsPrimitive .stop .stopCond := ⟨primitivePhase_stop, fun _ => rfl⟩
theorem isPrimitive_writeb (d : Byte) : IsPrimitive (.writeb d) (.byteOut d) := ⟨primitivePhase_writeb d, fun _ => rfl⟩
theorem isPrimitive_rdack : IsPrimitive .rdack (.byteIn .ack) := ⟨primitivePhase_rdack, fun _ => rfl⟩
theorem isPrimitive_rdnack : IsPrimitive .rdnack (.byteIn .nack) := ⟨primitivePhase_rdnack, fun _ => rfl⟩

section Primitive
variable {i : Instr} {x : Phase} (h : IsPrimitive i x) {s : State}
include h

theorem IsPrimitive.busFaults {allowed : PH → Bool} (ha : ∀ p, x.allowedIn p = allowed p) (s : State) :
    busFaults i allowed s :=
  busFaults_of_acceptBus (ha s.twm.ph ▸ h.exec_eq s)

theorem IsPrimitive.accepted (hs : s.acceptsBus) (ha : x.allowedIn s.twm.ph = true) :
    exec i s = .next { s with twm := s.twm.accept (encode i) } := by
  obtain ⟨hc, hr⟩ := hs
  rw [h.exec_eq, acceptBus_accepts hc hr ha]

theorem IsPrimitive.phaseInProgress (h0 : s.twm.seq = 0#3) (ha : x.allowedIn s.twm.ph = true) :
    (s.twm.accept (encode i)).phaseInProgress = some x :=
  accept_phaseInProgress h0 h.phase ha

/-- The whole effect of the command, on an answer R121 admits. -/
theorem IsPrimitive.answered (h0 : s.twm.seq = 0#3) (ha : x.allowedIn s.twm.ph = true) {o : PhaseOutcome}
    (ho : x.admits o = true) :
    envAnswer o { s with twm := s.twm.accept (encode i) } = .next { s with twm := { s.twm with
      cmdr := encode i, ready := true, status := statusAfter x s.twm.ph o, rxdata := rxdataAfter x o s.twm.rxdata,
      ph := phAfter x s.twm.ph o } } :=
  accept_envAnswer h0 h.phase ha ho

/-- An abnormal outcome writes its code to `STATUS`, and neither `RXDATA` nor `PH`. -/
theorem IsPrimitive.answered_abnormal (h0 : s.twm.seq = 0#3) (ha : x.allowedIn s.twm.ph = true) {c : Byte}
    (hc : c ∉ Config.SIX) :
    envAnswer (.abnormal c) { s with twm := s.twm.accept (encode i) } = .next { s with twm := { s.twm with
      cmdr := encode i, ready := true, status := c } } := by
  simpa only [statusAfter_abnormal, rxdataAfter_abnormal, phAfter_abnormal] using
    h.answered h0 ha (o := .abnormal c) (by simpa using hc)

end Primitive

/-! ## `START` and `STOP` -/

/-- Settles O19. -/
theorem startEffect : Obligations.StartEffect := fun _ =>
  ⟨rfl, isPrimitive_start.busFaults allowedIn_start _, fun hs h0 =>
    ⟨_, isPrimitive_start.accepted hs rfl, rfl, isPrimitive_start.phaseInProgress h0 rfl,
      isPrimitive_start.answered h0 rfl rfl, fun _ => isPrimitive_start.answered_abnormal h0 rfl⟩⟩

/-- Settles O20. -/
theorem stopEffect : Obligations.StopEffect := by
  refine fun s => ⟨rfl, isPrimitive_stop.busFaults allowedIn_stop s, fun hs h0 hp => ?_⟩
  have ha : Phase.stopCond.allowedIn s.twm.ph = true := by simpa using hp
  exact ⟨_, isPrimitive_stop.accepted hs ha, rfl, isPrimitive_stop.phaseInProgress h0 ha,
    isPrimitive_stop.answered h0 ha rfl, fun _ => isPrimitive_stop.answered_abnormal h0 ha⟩

/-! ## `WRITEB` -/

/-- The read bit is bit 0, at its default polarity (R30; log 7). -/
theorem hasReadBit_eq (b : Byte) : hasReadBit b = b.getLsbD 0 := by
  rw [Bool.eq_iff_iff, hasReadBit, beq_iff_eq, Config.RW_READ, BitVec.eq_of_getLsbD_eq_iff]
  simp

/-- Settles O21, by the rows of the rule's table: a select byte with either bit, and a data byte. -/
theorem writebEffect : Obligations.WritebEffect := by
  intro s d
  have hd := isPrimitive_writeb d
  refine ⟨rfl, hd.busFaults (allowedIn_byteOut d) s, fun hs h0 hp => ?_⟩
  have ha : (Phase.byteOut d).allowedIn s.twm.ph = true := by simpa using hp
  have hack := hd.answered h0 ha (o := .ack) rfl
  have hnack := hd.answered h0 ha (o := .nack) rfl
  rw [statusAfter_ack, phAfter_ack, rxdataAfter_byteOut, hasReadBit_eq] at hack
  rw [statusAfter_nack, phAfter_nack, rxdataAfter_byteOut, hasReadBit_eq] at hnack
  refine ⟨_, hd.accepted hs ha, rfl, hd.phaseInProgress h0 ha, fun hph hbit => ?_, fun hph hbit => ?_, fun hph => ?_,
    fun _ => hd.answered_abnormal h0 ha⟩
  · simp only [hph, hbit, if_true, Bool.false_eq_true, if_false] at hack hnack
    exact ⟨hack, hnack⟩
  · simp only [hph, hbit, if_true] at hack hnack
    exact ⟨hack, hnack⟩
  · simp only [hph, reduceCtorEq, if_false] at hack hnack
    exact ⟨hack, hnack⟩

/-! ## `RDACK` and `RDNACK` -/

/-- A primitive that receives a byte: `RXDATA` holds the byte and is returned, and `PH` stays `MR`. -/
theorem IsPrimitive.byteIn_effect {i : Instr} {k : AckBit} (h : IsPrimitive i (.byteIn k)) {s : State}
    (hs : s.acceptsBus) (h0 : s.twm.seq = 0#3) (hp : s.twm.ph = .mr) :
    ∃ t, exec i s = .next t ∧ t = { s with twm := { s.twm with cmdr := encode i, ready := false } } ∧
      t.twm.phaseInProgress = some (.byteIn k) ∧
      (∀ v, ∃ u, envAnswer (.byte v) t = .next u ∧
        u = { s with twm := { s.twm with
          cmdr := encode i, ready := true, status := statusAfter (.byteIn k) s.twm.ph (.byte v), rxdata := v } } ∧
        readReturn u = v) ∧
      ∀ c, c ∉ Config.SIX → envAnswer (.abnormal c) t = .next { s with twm := { s.twm with
        cmdr := encode i, ready := true, status := c } } := by
  have ha : (Phase.byteIn k).allowedIn s.twm.ph = true := by simpa using hp
  exact ⟨_, h.accepted hs ha, rfl, h.phaseInProgress h0 ha,
    fun _ => ⟨_, h.answered h0 ha rfl, rfl, rfl⟩, fun _ => h.answered_abnormal h0 ha⟩

/-- Settles O22. -/
theorem rdackEffect : Obligations.RdackEffect := fun s =>
  ⟨rfl, isPrimitive_rdack.busFaults (allowedIn_byteIn .ack) s, isPrimitive_rdack.byteIn_effect⟩

/-- Settles O23. -/
theorem rdnackEffect : Obligations.RdnackEffect := fun s =>
  ⟨rfl, isPrimitive_rdnack.busFaults (allowedIn_byteIn .nack) s, isPrimitive_rdnack.byteIn_effect⟩

/-! ## `STATUS` -/

theorem not_acceptsBus_iff (s : State) : ¬ s.acceptsBus ↔ s.tks.insvc = true ∨ s.twm.ready = false := by
  simp [State.acceptsBus, or_iff_not_imp_left]

theorem statusReturn_accepted {s : State} (h : s.acceptsBus) : statusReturn s = some s.twm.status :=
  if_neg fun hn => (not_acceptsBus_iff s).2 hn h

theorem statusReturn_turnedAway {s : State} (h : ¬ s.acceptsBus) : statusReturn s = none :=
  if_pos ((not_acceptsBus_iff s).1 h)

/-- Settles O24: `STATUS` is an acceptance that does nothing to the bus engine. -/
theorem statusEffect : Obligations.StatusEffect := by
  refine fun s => ⟨rfl, busFaults_of_acceptBus rfl, fun hs => ⟨?_, statusReturn_accepted hs⟩, statusReturn_turnedAway⟩
  obtain ⟨hc, hr⟩ := hs
  exact congrArg Host.Outcome.next (acceptBus_accepts (f := id) hc hr rfl)

end Sys2Proof.Machine

/-! The two transactions under the oracle (spec 41_bus_transactions.md R140 to R149, R152): the answers that carry a
transaction to each of its steps, and what each answer there does. -/

namespace Sys2Proof.Machine

/-! ## Answers and the phases they complete -/

/-- The answers `os` complete the phases `xs` in turn, each as R121 admits, and lead from `s` to `u`. -/
inductive EnvRun : List PhaseOutcome → List Phase → State → State → Prop where
  | nil (s : State) : EnvRun [] [] s s
  | cons {o : PhaseOutcome} {os : List PhaseOutcome} {x : Phase} {xs : List Phase} {s u : State}
      (hx : s.twm.phaseInProgress = some x) (ho : x.admits o = true)
      (r : EnvRun os xs { s with twm := s.twm.finishPhase x o } u) : EnvRun (o :: os) (x :: xs) s u

section EnvRun
variable {os os' : List PhaseOutcome} {xs xs' : List Phase} {s t u : State}

theorem EnvRun.append (h : EnvRun os xs s t) (h' : EnvRun os' xs' t u) : EnvRun (os ++ os') (xs ++ xs') s u := by
  induction h with
  | nil => exact h'
  | cons hx ho _ ih => exact .cons hx ho (ih h')

theorem EnvRun.answers (h : EnvRun os xs s u) : envAnswers os s = .next u := by
  induction h with
  | nil => rfl
  | cons hx ho _ ih => exact (envAnswers_cons (envAnswer_admitted hx ho) _).trans ih

/-- The phases on the bus are those completed and the one left in progress (R71). -/
theorem EnvRun.trace (h : EnvRun os xs s u) : busTrace os s = xs ++ u.twm.phaseInProgress.toList := by
  induction h with
  | nil => rfl
  | cons hx ho _ ih => rw [busTrace_cons hx (completePhase_admitted ho _), ih, List.cons_append]

/-- A run that ends the command leaves no phase in progress. -/
theorem EnvRun.trace_ready (h : EnvRun os xs s u) (hr : u.twm.ready = true) : busTrace os s = xs := by
  rw [h.trace, phaseInProgress_ready hr, Option.toList_none, List.append_nil]

end EnvRun

/-! ## One answer at one step -/

/-- The machine `s` with the transaction `i` at step `q`, `STATUS`=`code` and the bus in `p`. -/
def State.atStep (s : State) (i : Instr) (q : BitVec 3) (code : Byte) (p : PH) : State :=
  { s with twm := s.twm.atStep (encode i) q code p }

/-- The machine `s` after the transaction `i` ended with `fail(n)` (R142). -/
def State.failedAt (s : State) (i : Instr) (n : BitVec 3) (code : Byte) (p : PH) : State :=
  { s with twm := s.twm.failedAt (encode i) n code p }

/-- The machine `s` after the transaction `i` ended with `OK`=1 (R143, R146). -/
def State.succeeded (s : State) (i : Instr) (code : Byte) (p : PH) : State :=
  { s with twm := s.twm.succeeded (encode i) code p }

section Answer
variable {i : Instr} {q : BitVec 3} {n : Nat} {x : Phase} {c code : Byte} {p : PH} {o : PhaseOutcome} {s : State}

/-- A step of the transaction and any answer R121 admits: the phase completes, and the sequencer goes on. -/
theorem EnvRun.step {b : Twm} {e : Option Byte} (hq : q.toNat = n + 1)
    (hs : (txnSteps (encode i))[n]? = some ⟨x, e⟩) (ha : x.allowedIn p = true) (ho : x.admits o = true)
    (hf : (s.twm.atStep (encode i) q code p).finishPhase x o = b) :
    EnvRun [o] [x] (s.atStep i q code p) { s with twm := b } :=
  .cons (Twm.atStep_phaseInProgress hq hs ha) ho (hf ▸ .nil _)

/-- The expected code takes a verified step to the next one (R141). -/
theorem EnvRun.passes (hq : q.toNat = n + 1) (hs : (txnSteps (encode i))[n]? = some ⟨x, some c⟩)
    (ha : x.allowedIn p = true) (ho : x.admits o = true) (hc : statusAfter x p o = c)
    {p' : PH} (hp : phAfter x p o = p') :
    EnvRun [o] [x] (s.atStep i q code p) (State.atStep { s with twm := s.twm.received x o } i (q + 1#3) c p') := by
  subst hc hp
  exact .step hq hs ha ho (finishPhase_passed (Twm.atStep_currentStep hq hs) rfl rfl)

/-- A code that is not the expected one ends the transaction with `fail(n)` (R142). -/
theorem EnvRun.fails (hq : q.toNat = n + 1) (hs : (txnSteps (encode i))[n]? = some ⟨x, some c⟩)
    (ha : x.allowedIn p = true) (ho : x.admits o = true) (hc : statusAfter x p o ≠ c) :
    EnvRun [o] [x] (s.atStep i q code p)
      (State.failedAt { s with twm := s.twm.received x o } i q (statusAfter x p o) (phAfter x p o)) :=
  .step hq hs ha ho (finishPhase_failed (Twm.atStep_currentStep hq hs) rfl hc)

/-- The stop ends the transaction with `OK`=1, whatever its outcome (R152). -/
theorem EnvRun.stop (hq : q.toNat = n + 1) (hs : (txnSteps (encode i))[n]? = some ⟨.stopCond, none⟩)
    (ha : Phase.stopCond.allowedIn p = true) (ho : Phase.stopCond.admits o = true) :
    EnvRun [o] [.stopCond] (s.atStep i q code p)
      (s.succeeded i (statusAfter .stopCond p o) (phAfter .stopCond p o)) :=
  .step hq hs ha ho (finishPhase_stop (Twm.atStep_currentStep hq hs) rfl .stopCond o)

/-! ## The ways to fail (R144, R147, R149) -/

variable {os : List PhaseOutcome} {xs : List Phase} {t : State}

/-- A run to `fail(n)` is the failure that R142 describes. -/
theorem EnvRun.failsAs (r : EnvRun os xs t (s.failedAt i q code p)) : failsAs (encode i) s t os q code p xs :=
  ⟨r.answers, r.trace_ready rfl⟩

/-- An abnormal outcome at a verified step. -/
theorem VerifiedStep.failsAs_abnormal (h : VerifiedStep i n x c p)
    (r : EnvRun os xs t (s.atStep i (BitVec.ofNat 3 (n + 1)) code p)) {a : Byte} (ha : a ∉ Config.SIX) :
    failsAs (encode i) s t (os ++ [.abnormal a]) (BitVec.ofNat 3 (n + 1)) a p (xs ++ [x]) := by
  have ho : x.admits (.abnormal a) = true := by simpa using ha
  have hf := EnvRun.fails (s := s) (code := code) h.seq_toNat h.step h.allowed ho (h.statusAfter_denial ho rfl)
  rw [statusAfter_abnormal, phAfter_abnormal, Twm.received, rxdataAfter_abnormal] at hf
  exact (r.append hf).failsAs

/-- A byte of a verified step refused. -/
theorem VerifiedStep.failsAs_nack {b : Byte} (h : VerifiedStep i n (.byteOut b) c p)
    (r : EnvRun os xs t (s.atStep i (BitVec.ofNat 3 (n + 1)) code p)) {code' : Byte} {p' : PH}
    (hc : statusAfter (.byteOut b) p .nack = code') (hp : phAfter (.byteOut b) p .nack = p') :
    failsAs (encode i) s t (os ++ [.nack]) (BitVec.ofNat 3 (n + 1)) code' p' (xs ++ [.byteOut b]) := by
  subst hc hp
  exact (r.append (EnvRun.fails h.seq_toNat h.step h.allowed rfl (h.statusAfter_denial rfl rfl))).failsAs

end Answer

/-! ## The expected answers, up to each step

Each run begins where a transaction stands when it has just been accepted on a free bus (R140, R143, R146). -/

section Expected
variable {i : Instr} {a : Address} (h : IsAccess i a) {s : State} {code : Byte}
include h

theorem IsAccess.run_toSelect : EnvRun [.startOk] [.startCond] (s.atStep i 1#3 code .idle)
    (s.atStep i 2#3 Config.ST_START .addr) :=
  .passes (n := 0) rfl h.startStep rfl rfl rfl rfl

theorem IsAccess.run_toLowAddress : EnvRun [.startOk, .ack] [.startCond, .byteOut (selw a)]
    (s.atStep i 1#3 code .idle) (s.atStep i 3#3 Config.ST_SLAW_ACK .mt) :=
  h.run_toSelect.append (.passes (q := 2#3) (n := 1) rfl h.selectStep rfl rfl (by simp) (by simp))

theorem IsAccess.run_addressed : EnvRun [.startOk, .ack, .ack] [.startCond, .byteOut (selw a), .byteOut (alo a)]
    (s.atStep i 1#3 code .idle) (s.atStep i 4#3 Config.ST_DATA_ACK .mt) :=
  h.run_toLowAddress.append (.passes (q := 3#3) (n := 2) rfl h.lowAddressStep rfl rfl rfl rfl)

end Expected

section ExpectedAfter
variable {a : Address} {d v : Byte} {s : State} {code : Byte}

theorem run_toWriteStop : EnvRun [.startOk, .ack, .ack, .ack]
    [.startCond, .byteOut (selw a), .byteOut (alo a), .byteOut d]
    (s.atStep (.wrtxn a d) 1#3 code .idle) (s.atStep (.wrtxn a d) 5#3 Config.ST_DATA_ACK .mt) :=
  (isAccess_wrtxn a d).run_addressed.append
    (.passes (q := 4#3) (n := 3) rfl (VerifiedStep.data a d).step rfl rfl rfl rfl)

theorem run_toSelectRead : EnvRun [.startOk, .ack, .ack, .startOk]
    [.startCond, .byteOut (selw a), .byteOut (alo a), .startCond]
    (s.atStep (.rdtxn a) 1#3 code .idle) (s.atStep (.rdtxn a) 5#3 Config.ST_RSTART .addr) :=
  (isAccess_rdtxn a).run_addressed.append
    (.passes (q := 4#3) (n := 3) rfl (VerifiedStep.repeatedStart a).step rfl rfl rfl rfl)

theorem run_toRead : EnvRun [.startOk, .ack, .ack, .startOk, .ack]
    [.startCond, .byteOut (selw a), .byteOut (alo a), .startCond, .byteOut (selr a)]
    (s.atStep (.rdtxn a) 1#3 code .idle) (s.atStep (.rdtxn a) 6#3 Config.ST_SLAR_ACK .mr) :=
  run_toSelectRead.append
    (.passes (q := 5#3) (n := 4) rfl (VerifiedStep.selectRead a).step rfl rfl (by simp) (by simp))

theorem run_toReadStop : EnvRun [.startOk, .ack, .ack, .startOk, .ack, .byte v]
    [.startCond, .byteOut (selw a), .byteOut (alo a), .startCond, .byteOut (selr a), .byteIn .nack]
    (s.atStep (.rdtxn a) 1#3 code .idle)
    (State.atStep { s with twm := { s.twm with rxdata := v } } (.rdtxn a) 7#3 Config.ST_RX_NACK .mr) :=
  run_toRead.append
    (.passes (q := 6#3) (n := 5) rfl (VerifiedStep.read a).step rfl rfl rfl rfl)

/-- A write to its end: every step as expected, and any outcome of the stop (R143, R152). -/
theorem run_wrtxn {o : PhaseOutcome} (ho : Phase.stopCond.admits o = true) : EnvRun [.startOk, .ack, .ack, .ack, o]
    [.startCond, .byteOut (selw a), .byteOut (alo a), .byteOut d, .stopCond] (s.atStep (.wrtxn a d) 1#3 code .idle)
    (s.succeeded (.wrtxn a d) (statusAfter .stopCond .mt o) (phAfter .stopCond .mt o)) :=
  run_toWriteStop.append (.stop (q := 5#3) (n := 4) rfl (by simp [writeSteps]) rfl ho)

/-- A read to its end: every step as expected, and any outcome of the stop (R146, R152). -/
theorem run_rdtxn {o : PhaseOutcome} (ho : Phase.stopCond.admits o = true) :
    EnvRun [.startOk, .ack, .ack, .startOk, .ack, .byte v, o]
      [.startCond, .byteOut (selw a), .byteOut (alo a), .startCond, .byteOut (selr a), .byteIn .nack, .stopCond]
      (s.atStep (.rdtxn a) 1#3 code .idle)
      (State.succeeded { s with twm := { s.twm with rxdata := v } } (.rdtxn a) (statusAfter .stopCond .mr o)
        (phAfter .stopCond .mr o)) :=
  run_toReadStop.append (.stop (q := 7#3) (n := 6) rfl (by simp [readSteps]) rfl ho)

end ExpectedAfter

/-! ## The transactions from a free bus (R143, R144, R146, R147, R152) -/

/-- Settles O25. -/
theorem wrtxnSucceeds : Obligations.WrtxnSucceeds := by
  intro s a d hs hp
  have r := run_wrtxn (a := a) (d := d) (s := s) (code := s.twm.status) (o := .done) rfl
  exact ⟨_, _, exec_access_idle (isAccess_wrtxn a d) hs hp, hp ▸ rfl, r.trace_ready rfl, r.answers, rfl, rfl⟩

/-- Settles O27. -/
theorem rdtxnSucceeds : Obligations.RdtxnSucceeds := by
  intro s a v hs hp
  have r := run_rdtxn (a := a) (v := v) (s := s) (code := s.twm.status) (o := .done) rfl
  exact ⟨_, _, exec_access_idle (isAccess_rdtxn a) hs hp, hp ▸ rfl, r.trace_ready rfl, r.answers, rfl, rfl⟩

/-- Settles O30. -/
theorem stopOfTransactionNotVerified : Obligations.StopOfTransactionNotVerified := by
  intro s a d v c hs hp hc
  have ho : Phase.stopCond.admits (.abnormal c) = true := by simpa using hc
  exact ⟨⟨_, exec_access_idle (isAccess_wrtxn a d) hs hp, (run_wrtxn ho).answers⟩,
    ⟨_, exec_access_idle (isAccess_rdtxn a) hs hp, (run_rdtxn ho).answers⟩⟩

/-- Settles O26: the rows are the verified steps of a write, each refused or answered abnormally. -/
theorem wrtxnFailureTable : Obligations.WrtxnFailureTable := by
  intro s a d c hs hp hc
  have h := isAccess_wrtxn a d
  exact ⟨_, exec_access_idle h hs hp, (VerifiedStep.start h).failsAs_abnormal (.nil _) hc,
    (VerifiedStep.select h).failsAs_nack h.run_toSelect (by simp) (by simp),
    (VerifiedStep.select h).failsAs_abnormal h.run_toSelect hc,
    (VerifiedStep.lowAddress h).failsAs_nack h.run_toLowAddress rfl rfl,
    (VerifiedStep.lowAddress h).failsAs_abnormal h.run_toLowAddress hc,
    (VerifiedStep.data a d).failsAs_nack h.run_addressed rfl rfl,
    (VerifiedStep.data a d).failsAs_abnormal h.run_addressed hc⟩

/-- Settles O28: the rows are the verified steps of a read, each refused or answered abnormally. -/
theorem rdtxnFailureTable : Obligations.RdtxnFailureTable := by
  intro s a c hs hp hc
  have h := isAccess_rdtxn a
  exact ⟨_, exec_access_idle h hs hp, (VerifiedStep.start h).failsAs_abnormal (.nil _) hc,
    (VerifiedStep.select h).failsAs_nack h.run_toSelect (by simp) (by simp),
    (VerifiedStep.select h).failsAs_abnormal h.run_toSelect hc,
    (VerifiedStep.lowAddress h).failsAs_nack h.run_toLowAddress rfl rfl,
    (VerifiedStep.lowAddress h).failsAs_abnormal h.run_toLowAddress hc,
    (VerifiedStep.repeatedStart a).failsAs_abnormal h.run_addressed hc,
    (VerifiedStep.selectRead a).failsAs_nack run_toSelectRead (by simp) (by simp),
    (VerifiedStep.selectRead a).failsAs_abnormal run_toSelectRead hc,
    (VerifiedStep.read a).failsAs_abnormal run_toRead hc⟩

/-- Settles O29: on a held bus the start is a repeated one, whose code no first step expects. -/
theorem heldBusTransactionFailsAtStepOne : Obligations.HeldBusTransactionFailsAtStepOne := by
  intro s i c hi hs hp hc
  obtain ⟨a, h⟩ : ∃ a, IsAccess i a := by
    rcases hi with ⟨a, d, rfl⟩ | ⟨a, rfl⟩
    · exact ⟨a, isAccess_wrtxn a d⟩
    · exact ⟨a, isAccess_rdtxn a⟩
  have hstart : statusAfter .startCond s.twm.ph .startOk = Config.ST_RSTART := if_neg hp
  have hab : Phase.startCond.admits (.abnormal c) = true := by simpa using hc
  have hok := EnvRun.fails (s := s) (q := 1#3) (code := s.twm.status) (n := 0) rfl h.startStep
    (allowedIn_start s.twm.ph) (o := .startOk) rfl (by rw [hstart]; decide)
  rw [hstart] at hok
  exact ⟨_, exec_access h hs, hok.failsAs, (EnvRun.fails (s := s) (q := 1#3) (n := 0) rfl h.startStep
    (allowedIn_start _) hab (Config.ne_of_not_mem_six hc (by decide))).failsAs⟩

end Sys2Proof.Machine

/-! What one answer of the environment does to the command in progress (spec 40_bus_primitives.md R121;
41_bus_transactions.md R140 to R142), whichever environment gives it: it takes the command one step further or ends it, so
that seven answers end any command; and no tick moves it meanwhile (R151). -/

namespace Sys2Proof.Machine

/-! ## A verified step (R141, R142) -/

/-- Settles O31. -/
theorem mismatchAbortsTransaction : Obligations.MismatchAbortsTransaction := by
  intro s x o st c hx hst hc ho
  refine ⟨fun hne => ⟨_, envAnswer_admitted hx ho, ?_⟩, fun heq => ⟨_, envAnswer_admitted hx ho, ?_⟩⟩
  · rw [finishPhase_failed hst hc hne]
    exact ⟨rfl, rfl, rfl, rfl, phaseInProgress_ready rfl, rfl, rfl, rfl, rfl, rfl⟩
  · rw [finishPhase_passed hst hc heq]
    exact ⟨rfl, (phaseInProgress_allowed hx).1, heq, rfl, rfl, rfl⟩

/-! ## How many answers a command takes (R140) -/

/-- How many answers the command in progress can still take: a primitive one, a transaction at `SEQ`=n those of the
steps n to 7, the most there are. -/
def Twm.answersLeft (b : Twm) : Nat :=
  if b.ready = true then 0 else if b.seq = 0#3 then 1 else 8 - b.seq.toNat

theorem answersLeft_le_seven (b : Twm) : b.answersLeft ≤ 7 := by
  unfold Twm.answersLeft
  split_ifs with hr hs
  · omega
  · omega
  · have hpos : b.seq.toNat ≠ 0 := fun h => hs (BitVec.eq_of_toNat_eq h)
    omega

theorem answersLeft_eq_zero_iff (b : Twm) : b.answersLeft = 0 ↔ b.ready = true := by
  have hlt := b.seq.isLt
  unfold Twm.answersLeft
  split_ifs with hr hs
  · exact iff_of_true rfl hr
  · exact iff_of_false not_false hr
  · exact iff_of_false (by omega) hr

/-- A completed phase leaves fewer answers to come. -/
theorem finishPhase_answersLeft_lt {b : Twm} {x : Phase} {o : PhaseOutcome} (hx : b.phaseInProgress = some x) :
    (b.finishPhase x o).answersLeft < b.answersLeft := by
  have hr := (phaseInProgress_allowed hx).1
  rcases finishPhase_progress (o := o) hx with ⟨-, hend⟩ | ⟨hup, -, hpos⟩
  · rw [(answersLeft_eq_zero_iff _).2 hend, Nat.pos_iff_ne_zero, Ne, answersLeft_eq_zero_iff, hr]
    decide
  · have hlt := (b.finishPhase x o).seq.isLt
    have hb : b.answersLeft = 8 - b.seq.toNat := by
      simp [Twm.answersLeft, hr, show b.seq ≠ 0#3 from fun h => by simp [h] at hpos]
    rw [hb]
    unfold Twm.answersLeft
    split_ifs <;> omega

/-- What one answer, of the oracle or of the device, can do to the bus engine. -/
inductive Twm.Answered (b : Twm) : Twm → Prop where
  | idle (hn : b.phaseInProgress = none) : Twm.Answered b b
  | complete {x : Phase} {o : PhaseOutcome} (hx : b.phaseInProgress = some x) (ho : x.admits o = true) :
      Twm.Answered b (b.finishPhase x o)

theorem envAnswer_answered {o : PhaseOutcome} {s t : State} (h : envAnswer o s = .next t) : s.twm.Answered t.twm := by
  rcases envAnswer_next h with ⟨hn, rfl⟩ | ⟨x, hx, ho, rfl⟩
  · exact .idle hn
  · exact .complete hx ho

theorem devAnswer_answered (s : State) : ∃ t, devAnswer s = .next t ∧ s.twm.Answered t.twm := by
  cases hx : s.twm.phaseInProgress with
  | none => exact ⟨s, devAnswer_idle hx, .idle hx⟩
  | some x => exact ⟨_, devAnswer_busy hx, .complete hx (Dev.respond_admitted _ _ _ _)⟩

section Answered
variable {b b' : Twm}

theorem Twm.Answered.good (h : b.Answered b') (hg : b.Good) : b'.Good := by
  cases h with
  | idle => exact hg
  | complete hx ho => exact finishPhase_good hg hx ho

/-- An engine in good order with no phase in progress is at rest, so every answer counts. -/
theorem Twm.Answered.answersLeft_le (h : b.Answered b') (hg : b.Good) {n : Nat} (hn : b.answersLeft ≤ n + 1) :
    b'.answersLeft ≤ n := by
  cases h with
  | idle hx =>
    have hr : b.ready = true := Bool.of_not_eq_false fun hr => hg.busy hr hx
    exact (answersLeft_eq_zero_iff b).2 hr ▸ Nat.zero_le n
  | complete hx _ => exact Nat.le_of_lt_succ (Nat.lt_of_lt_of_le (finishPhase_answersLeft_lt hx) hn)

end Answered

/-- As many answers of the device as a command can still take end it. -/
theorem devAnswers_end {n : Nat} {s : State} (hg : s.twm.Good) (hn : s.twm.answersLeft ≤ n) :
    ∃ t, devAnswers n s = .next t ∧ t.twm.ready = true := by
  induction n generalizing s with
  | zero => exact ⟨s, rfl, (answersLeft_eq_zero_iff _).1 (Nat.le_zero.1 hn)⟩
  | succ n ih =>
    obtain ⟨t, ht, h⟩ := devAnswer_answered s
    rw [devAnswers, ht, andThen_of_next]
    exact ih (h.good hg) (h.answersLeft_le hg hn)

/-- As many answers of the oracle as a command can still take end it, if they do not stop the machine. -/
theorem envAnswers_end {os : List PhaseOutcome} {s t : State} (hg : s.twm.Good) (hn : s.twm.answersLeft ≤ os.length)
    (h : envAnswers os s = .next t) : t.twm.ready = true := by
  induction os generalizing s with
  | nil => cases h; exact (answersLeft_eq_zero_iff _).1 (Nat.le_zero.1 hn)
  | cons o os ih =>
    obtain ⟨u, hu, h⟩ := andThen_next h
    have hans := envAnswer_answered hu
    exact ih (hans.good hg) (hans.answersLeft_le hg hn) h

/-- Settles O36: no command can take more than seven answers. -/
theorem busCommandEndsWithinSevenAnswers : Obligations.BusCommandEndsWithinSevenAnswers := fun _ hi =>
  ⟨devAnswers_end hi.twm (answersLeft_le_seven _),
    fun _ _ hlen h => envAnswers_end hi.twm (Nat.le_trans (answersLeft_le_seven _) hlen) h⟩

/-! ## Ticks meanwhile (R151) -/

/-- The scheduler, its commands and an illegal word leave the bus engine (R97, R161, R170, R172). -/
theorem perform_tick_twm {e : Event} {s t : State} (he : e.isTick = true) (h : perform e s = .next t) :
    t.twm = s.twm := by
  cases e with
  | timerClock => cases h; rfl
  | dispatch => cases h; rfl
  | command w =>
    cases hd : decode w with
    | illegal r => cases (presentWord_illegal hd s).symm.trans h; rfl
    | command i =>
      obtain ⟨u, hu, -, -, -, -, htwm⟩ := exec_next i s
      cases hu.symm.trans ((presentWord_legal hd s).symm.trans h)
      exact htwm (by simpa [Event.isTick, hd] using he)
  | _ => cases he

/-- What an oracle answer does to the bus engine depends on nothing else. -/
theorem envAnswer_twm {o : PhaseOutcome} {s s' t : State} (hs : s'.twm = s.twm) (h : envAnswer o s = .next t) :
    ∃ t', envAnswer o s' = .next t' ∧ t'.twm = t.twm := by
  rcases envAnswer_next h with ⟨hn, rfl⟩ | ⟨x, hx, ho, rfl⟩
  · exact ⟨s', envAnswer_idle (hs ▸ hn) o, hs⟩
  · exact ⟨_, envAnswer_admitted (hs ▸ hx) ho, congrArg (Twm.finishPhase x o) hs⟩

/-- A run with ticks, and the run of its answers alone from a state with the same bus engine, end with the same one. -/
theorem performAll_filter_twm {es : List Event} (hes : ∀ e ∈ es, e.isEnv = true ∨ e.isTick = true) {s s' t : State}
    (hs : s'.twm = s.twm) (h : performAll es s = .next t) :
    ∃ u, performAll (es.filter Event.isEnv) s' = .next u ∧ u.twm = t.twm := by
  induction es generalizing s s' with
  | nil => cases h; exact ⟨s', rfl, hs⟩
  | cons e es ih =>
    obtain ⟨he, hrest⟩ := List.forall_mem_cons.1 hes
    obtain ⟨r, hr, ht⟩ := andThen_next h
    cases hev : e.isEnv with
    | false =>
      have htick : e.isTick = true := he.resolve_left (by simp [hev])
      rw [List.filter_cons_of_neg (by simp [hev])]
      exact ih hrest (hs.trans (perform_tick_twm htick hr).symm) ht
    | true =>
      obtain ⟨o, rfl⟩ : ∃ o, e = .env o := by cases e <;> simp [Event.isEnv] at hev ⊢
      obtain ⟨r', hr', htwm⟩ := envAnswer_twm hs hr
      have hr'' : perform (.env o) s' = .next r' := hr'
      rw [List.filter_cons_of_pos hev, performAll, hr'', andThen_of_next]
      exact ih hrest htwm ht

/-- Settles O34. -/
theorem transactionIndependentOfTicks : Obligations.TransactionIndependentOfTicks :=
  fun _ _ _ hes h => performAll_filter_twm hes rfl h

end Sys2Proof.Machine

/-! A transaction and the host's own sequence of primitives (spec 40_bus_primitives.md R128; 41_bus_transactions.md R153):
step by step the two have the same phase on the bus, and each answer does the same to `STATUS`, `RXDATA` and `PH` of both. -/

namespace Sys2Proof.Machine

/-! ## The steps of a transaction as primitives -/

/-- The primitive whose one phase is `x` (R122 to R126). -/
def primitiveOf : Phase → Instr
  | .startCond => .start
  | .stopCond => .stop
  | .byteOut b => .writeb b
  | .byteIn .ack => .rdack
  | .byteIn .nack => .rdnack

theorem isPrimitive_primitiveOf (x : Phase) : IsPrimitive (primitiveOf x) x :=
  match x with
  | .startCond => isPrimitive_start
  | .stopCond => isPrimitive_stop
  | .byteOut b => isPrimitive_writeb b
  | .byteIn .ack => isPrimitive_rdack
  | .byteIn .nack => isPrimitive_rdnack

/-- A step of a transaction as the host does it: a primitive, and the code to compare `STATUS` with afterwards (R153). -/
def TxnStep.asPrimitive (st : TxnStep) : Instr × Option Byte := (primitiveOf st.phase, st.expected)

theorem handWrite_eq (a : Address) (d : Byte) : handWrite a d = (writeSteps a d).map TxnStep.asPrimitive := rfl
theorem handRead_eq (a : Address) : handRead a = (readSteps a).map TxnStep.asPrimitive := rfl

/-- The primitives from step `n` on: that step's, and those after it. -/
theorem drop_map_asPrimitive {l : List TxnStep} {n : Nat} {st : TxnStep} (h : l[n]? = some st) :
    (l.drop n).map TxnStep.asPrimitive =
      (primitiveOf st.phase, st.expected) :: (l.drop (n + 1)).map TxnStep.asPrimitive := by
  rw [List.drop_eq_getElem?_toList_append, h]; rfl

/-- Only the last step of a transaction is not verified (R140). -/
theorem txnSteps_dropLast_verified (w : CommandWord) : ∀ st ∈ (txnSteps w).dropLast, st.expected ≠ none := by
  rcases txnSteps_cases w with h | ⟨a, d, h⟩ | ⟨a, h⟩
  · simp [List.length_eq_zero_iff.1 h]
  · simp [h, writeSteps]
  · simp [h, readSteps]

/-- No step follows one that is not verified. -/
theorem txnSteps_drop_unverified {w : CommandWord} {n : Nat} {st : TxnStep} (h : (txnSteps w)[n]? = some st)
    (he : st.expected = none) : (txnSteps w).drop (n + 1) = [] := by
  rw [List.drop_eq_nil_iff]
  by_contra hlt
  have hmem : (txnSteps w).dropLast[n]? = some st := by rw [List.getElem?_dropLast, if_pos (by omega), h]
  exact txnSteps_dropLast_verified w st (List.mem_of_getElem? hmem) he

/-- The phase of a transaction in progress is that of the step `SEQ` names (R24). -/
theorem currentStep_of_phaseInProgress {b : Twm} {x : Phase} (hx : b.phaseInProgress = some x) (hs : b.seq ≠ 0#3) :
    ∃ st, b.currentStep = some st ∧ st.phase = x := by
  have hr := (phaseInProgress_allowed hx).1
  cases hc : b.currentStep with
  | none => simp [Twm.phaseInProgress, Twm.wantedPhase, hr, hs, hc] at hx
  | some st =>
    obtain ⟨-, hphase⟩ : st.phase.allowedIn b.ph = true ∧ st.phase = x := by
      simpa [Twm.phaseInProgress, Twm.wantedPhase, hr, hs, hc] using hx
    exact ⟨st, rfl, hphase⟩

/-! ## The host's own sequence, primitive by primitive (R128) -/

section ByHand
variable {i : Instr} {want : Option Byte} {c : Byte} {rest : List (Instr × Option Byte)} {o : PhaseOutcome}
  {os : List PhaseOutcome} {s t u : State}

theorem byHand_hangs : byHand ((i, want) :: rest) [] s = exec i s := rfl

theorem byHand_stops {r : Fault} (hi : exec i s = .next t) (ho : envAnswer o t = .fault r) :
    byHand ((i, want) :: rest) (o :: os) s = .fault r := by
  simp only [byHand, hi, ho, andThen]

theorem byHand_unverified (hi : exec i s = .next t) (ho : envAnswer o t = .next u) :
    byHand ((i, none) :: rest) (o :: os) s = byHand rest os u := by
  simp only [byHand, hi, ho, andThen_of_next]

theorem byHand_passes (hi : exec i s = .next t) (ho : envAnswer o t = .next u) (hc : u.twm.status = c) :
    byHand ((i, some c) :: rest) (o :: os) s = byHand rest os u := by
  simp only [byHand, hi, ho, andThen_of_next, hc, if_true]

theorem byHand_mismatch (hi : exec i s = .next t) (ho : envAnswer o t = .next u) (hc : u.twm.status ≠ c) :
    byHand ((i, some c) :: rest) (o :: os) s = .next u := by
  simp only [byHand, hi, ho, andThen_of_next, hc, if_false]

end ByHand

/-! ## The two side by side -/

/-- What follows a completed phase writes neither `STATUS` nor `PH`. -/
theorem proceed_keeps_status_ph (b : Twm) : b.proceed.status = b.status ∧ b.proceed.ph = b.ph := by
  rcases proceed_cases b with ⟨-, h⟩ | ⟨-, -, -, h⟩ | ⟨-, -, -, h⟩ | ⟨-, -, -, -, -, h⟩ <;> rw [h] <;> exact ⟨rfl, rfl⟩

/-- The machine `s` after the primitive whose phase is `x` completed with outcome `o` (R121 to R126). -/
def State.afterPrimitive (s : State) (x : Phase) (o : PhaseOutcome) : State :=
  { s with twm := { s.twm with
    cmdr := encode (primitiveOf x), ready := true, status := statusAfter x s.twm.ph o
    rxdata := rxdataAfter x o s.twm.rxdata, ph := phAfter x s.twm.ph o } }

/-- The transaction in progress in `t` has `n` steps behind it, and in `s` the host that builds it by hand has issued as many
primitives and is about to issue the next; `STATUS`, `RXDATA`, `PH` are the same. -/
structure InStep (n : Nat) (s t : State) : Prop where
  good : t.twm.Good
  busy : t.twm.ready = false
  seq : t.twm.seq.toNat = n + 1
  accepts : s.acceptsBus
  noSeq : s.twm.seq = 0#3
  status : t.twm.status = s.twm.status
  rxdata : t.twm.rxdata = s.twm.rxdata
  ph : t.twm.ph = s.twm.ph

section InStep
variable {n : Nat} {s t : State} {st : TxnStep} {o : PhaseOutcome}

/-- The transaction is at a step whose phase is in progress, and may begin where the host is too. -/
theorem InStep.step (h : InStep n s t) : ∃ st, t.twm.currentStep = some st ∧ (txnSteps t.twm.cmdr)[n]? = some st ∧
    t.twm.phaseInProgress = some st.phase ∧ st.phase.allowedIn s.twm.ph = true := by
  have hs : t.twm.seq ≠ 0#3 := fun h0 => by simpa [h0] using h.seq
  obtain ⟨x, hx⟩ := Option.ne_none_iff_exists'.1 (h.good.busy h.busy)
  obtain ⟨st, hst, rfl⟩ := currentStep_of_phaseInProgress hx hs
  exact ⟨st, hst, currentStep_of h.seq ▸ hst, hx, h.ph ▸ (phaseInProgress_allowed hx).2⟩

/-- A completed phase leaves `STATUS`, `RXDATA` and `PH` the same on both sides, whatever follows it in the transaction. -/
theorem InStep.finishPhase_same (h : InStep n s t) (x : Phase) (o : PhaseOutcome) :
    (t.twm.finishPhase x o).status = (s.afterPrimitive x o).twm.status ∧
      (t.twm.finishPhase x o).rxdata = (s.afterPrimitive x o).twm.rxdata ∧
      (t.twm.finishPhase x o).ph = (s.afterPrimitive x o).twm.ph := by
  obtain ⟨hstatus, hph⟩ := proceed_keeps_status_ph (t.twm.record x o)
  exact ⟨hstatus.trans (congrArg (statusAfter x · o) h.ph),
    (finishPhase_rxdata _ _ _).trans (congrArg (rxdataAfter x o) h.rxdata), hph.trans (congrArg (phAfter x · o) h.ph)⟩

/-- With the expected code the transaction goes to its next step, and the host to its next primitive. -/
theorem InStep.advances (h : InStep n s t) (hst : t.twm.currentStep = some st)
    (hx : t.twm.phaseInProgress = some st.phase) (ho : st.phase.admits o = true)
    (he : st.expected = some (statusAfter st.phase s.twm.ph o)) :
    InStep (n + 1) (s.afterPrimitive st.phase o) { t with twm := t.twm.finishPhase st.phase o } := by
  obtain ⟨hstatus, hrxdata, hph⟩ := h.finishPhase_same st.phase o
  have hbusy : (t.twm.finishPhase st.phase o).ready = false := by
    rw [finishPhase_passed hst he (congrArg (statusAfter st.phase · o) h.ph)]
    exact h.busy
  refine ⟨finishPhase_good h.good hx ho, hbusy, ?_, ⟨h.accepts.1, rfl⟩, h.noSeq, hstatus, hrxdata, hph⟩
  rcases finishPhase_progress (o := o) hx with ⟨-, hend⟩ | ⟨hup, -, -⟩
  · exact nomatch hend.symm.trans hbusy
  · exact hup.trans (congrArg (· + 1) h.seq)

end InStep

/-- What can be compared of two states is what `busEffect` says. -/
theorem busEffect_next_congr {u u' : State} (hstatus : u.twm.status = u'.twm.status)
    (hrxdata : u.twm.rxdata = u'.twm.rxdata) (hph : u.twm.ph = u'.twm.ph)
    (hphase : u.twm.phaseInProgress = u'.twm.phaseInProgress) : busEffect (.next u) = busEffect (.next u') := by
  simp only [busEffect, nextOf, Option.map_some, hstatus, hrxdata, hph, hphase]

/-- A transaction goes on as the host's own sequence does, whatever the environment answers (R153). -/
theorem InStep.busEffect_eq {os : List PhaseOutcome} {n : Nat} {s t : State} (h : InStep n s t) :
    busEffect (envAnswers os t) =
      busEffect (byHand (((txnSteps t.twm.cmdr).drop n).map TxnStep.asPrimitive) os s) := by
  induction os generalizing n s t with
  | nil =>
    obtain ⟨st, -, hst, hx, ha⟩ := h.step
    have hp := isPrimitive_primitiveOf st.phase
    rw [drop_map_asPrimitive hst, byHand_hangs, hp.accepted h.accepts ha]
    exact busEffect_next_congr h.status h.rxdata h.ph (hx.trans (hp.phaseInProgress h.noSeq ha).symm)
  | cons o os ih =>
    obtain ⟨st, hcur, hst, hx, ha⟩ := h.step
    have hp := isPrimitive_primitiveOf st.phase
    have hexec := hp.accepted h.accepts ha
    rw [drop_map_asPrimitive hst]
    cases ho : st.phase.admits o with
    | false =>
      rw [envAnswers, envAnswer_stops hx ho, byHand_stops hexec (envAnswer_stops (hp.phaseInProgress h.noSeq ha) ho)]
      rfl
    | true =>
      have hans : envAnswer o { s with twm := s.twm.accept (encode (primitiveOf st.phase)) } =
        .next (s.afterPrimitive st.phase o) := hp.answered h.noSeq ha ho
      obtain ⟨hstatus, hrxdata, hph⟩ := h.finishPhase_same st.phase o
      have hends (hr : (t.twm.finishPhase st.phase o).ready = true) :
          busEffect (envAnswers os { t with twm := t.twm.finishPhase st.phase o }) =
            busEffect (.next (s.afterPrimitive st.phase o)) := by
        rw [envAnswers_idle (phaseInProgress_ready hr)]
        exact busEffect_next_congr hstatus hrxdata hph (phaseInProgress_ready hr)
      rw [envAnswers_cons (envAnswer_admitted hx ho)]
      cases he : st.expected with
      | none =>
        rw [byHand_unverified hexec hans, txnSteps_drop_unverified hst he]
        exact hends (by rw [finishPhase_stop hcur he]; rfl)
      | some c =>
        by_cases hc : (s.afterPrimitive st.phase o).twm.status = c
        · rw [byHand_passes hexec hans hc, ← finishPhase_cmdr t.twm st.phase o]
          exact ih (h.advances hcur hx ho (he.trans (congrArg some hc.symm)))
        · rw [byHand_mismatch hexec hans hc]
          exact hends (by rw [finishPhase_failed hcur he (h.ph.symm ▸ hc)]; rfl)

/-- A transaction just accepted is in step with the host about to build it by hand. -/
theorem inStep_accepted {i : Instr} {a : Address} (hi : IsAccess i a) {s : State} (hs : s.acceptsBus)
    (h0 : s.twm.seq = 0#3) : InStep 0 s { s with twm := s.twm.atStep (encode i) 1#3 s.twm.status s.twm.ph } :=
  ⟨s.twm.acceptTxn_good hi.startStep, rfl, rfl, hs, h0, rfl, rfl, rfl⟩

/-- Settles O33: both transactions are in step with the host's sequence from their acceptance on. -/
theorem transactionsEqualHandBuiltSequences : Obligations.TransactionsEqualHandBuiltSequences := by
  intro s a d os hs h0
  have hw := (inStep_accepted (isAccess_wrtxn a d) hs h0).busEffect_eq (os := os)
  have hr := (inStep_accepted (isAccess_rdtxn a) hs h0).busEffect_eq (os := os)
  refine ⟨⟨_, exec_access (isAccess_wrtxn a d) hs, ?_⟩, ⟨_, exec_access (isAccess_rdtxn a) hs, ?_⟩⟩
  · rw [hw, handWrite_eq, ← txnSteps_wrtxn]; rfl
  · rw [hr, handRead_eq, ← txnSteps_rdtxn]; rfl

end Sys2Proof.Machine


/-! The tick scheduler (spec 42_tick_scheduler.md): what its commands, the timer clock and a dispatch do in one step; where the
count stands after any number of clocks (R174); and why no handler run begins while the timer is stopped (R166, R173). -/

namespace Sys2Proof.Machine

/-! ## The commands (R163 to R168) -/

/-- `TSETH` is turned away while the scheduler runs (R163). -/
theorem exec_tseth_running {s : State} (hr : s.tks.run = true) (h : Token) :
    exec (.tseth h) s = .next (s.raise .rearm) := by
  simp [exec, execTseth, hr]

/-- `TRET` is turned away with no handler in service (R168). -/
theorem exec_tret_outside {s : State} (hi : s.tks.insvc = false) : exec .tret s = .next (s.raise .tret) := by
  simp [exec, execTret, hi]

theorem exec_tret_inService {s : State} (hi : s.tks.insvc = true) :
    exec .tret s = .next { s with tks := s.tks.leaveHandler } := by
  simp [exec, execTret, hi]

/-- Settles O38. -/
theorem tsethEffect : Obligations.TsethEffect :=
  fun _ h => ⟨rfl, fun hr => exec_tseth_running hr h, fun hr => exec_tseth_stopped hr h⟩

/-- Settles O39. -/
theorem tstartEffect : Obligations.TstartEffect := fun _ => ⟨rfl, rfl⟩

/-- Settles O40. -/
theorem tstopEffect : Obligations.TstopEffect := fun _ => ⟨rfl, rfl⟩

/-- With no handler in service the request line follows `T_PEND` (R205). -/
theorem irq_main {k : Tks} (h : k.insvc = false) : k.irq = k.pend := by
  simp [Tks.irq, h]

/-- Settles O41: the return leaves `T_PEND`, which `IRQ` follows again. -/
theorem tretEffect : Obligations.TretEffect := fun _ =>
  ⟨rfl, exec_tret_outside, fun hi => ⟨_, exec_tret_inService hi, rfl, rfl, irq_main rfl⟩⟩

/-! ## Dispatch (R172) -/

theorem irq_eq_true {k : Tks} (hp : k.pend = true) (hi : k.insvc = false) : k.irq = true :=
  (irq_main hi).trans hp

theorem irq_eq_false {k : Tks} (h : k.pend = false ∨ k.insvc = true) : k.irq = false := by
  rcases h with hp | hi
  · simp [Tks.irq, hp]
  · simp [Tks.irq, hi]

theorem request_enabled {k : Tks} (h : k.irq = true) : k.request = some k.handler := by
  simp [Tks.request, h]

theorem request_disabled {k : Tks} (h : k.irq = false) : k.request = none := by
  simp [Tks.request, h]

theorem step_dispatch {s : State} {rest : List Event} (ha : s.agenda = .dispatch :: rest) :
    step s = .next { s with tks := s.tks.dispatch, agenda := rest } := step_cons ha

/-- Settles O43: `IRQ` enables the request and the dispatch alike. -/
theorem dispatchEffect : Obligations.DispatchEffect := by
  intro s rest ha
  rw [step_dispatch ha]
  refine ⟨fun hp hi => ?_, fun h => ?_⟩
  · have hirq := irq_eq_true hp hi
    rw [dispatch_enabled hirq]
    exact ⟨request_enabled hirq, _, rfl, rfl, rfl⟩
  · have hirq := irq_eq_false h
    rw [dispatch_disabled hirq]
    exact ⟨request_disabled hirq, rfl⟩

/-! ## The timer clock (R170, R171) -/

/-- A tick is latched exactly when a handler is registered; one already pending stays pending (R171). -/
theorem tick_eq (k : Tks) : k.tick = { k with pend := k.pend || k.hvalid } := by
  rcases tick_cases k with ⟨hv, h⟩ | ⟨hv, h⟩
  · have hp : (k.pend || k.hvalid) = k.pend := by simp [hv]
    rw [h, hp]
  · have hp : (k.pend || k.hvalid) = true := by simp [hv]
    rw [h, hp]

/-- At the compare value the count restarts and a tick is raised (R170). -/
theorem clock_restarts {k : Tks} (hr : k.run = true) (hc : k.cnt = Config.T_TOP) :
    k.clock = { k with cnt := 0#_, pend := k.pend || k.hvalid } :=
  (clock_match hr hc).trans (tick_eq _)

theorem step_timerClock {s : State} {rest : List Event} (ha : s.agenda = .timerClock :: rest) :
    step s = .next { s with tks := s.tks.clock, agenda := rest } := step_cons ha

/-- Settles O42: the timer is stopped, at the compare value, or below it. -/
theorem timerClockEffect : Obligations.TimerClockEffect := by
  intro s rest ha hc
  refine ⟨_, step_timerClock ha, rfl, rfl, rfl, rfl, ?_⟩
  cases hr : s.tks.run with
  | false => simp [clock_stopped hr, hr]
  | true =>
    rcases Nat.lt_or_eq_of_le hc with hlt | heq
    · obtain ⟨c, hcnt, hk⟩ := clock_count hr hlt
      have hne : s.tks.cnt ≠ Config.T_TOP := fun h => Nat.ne_of_lt hlt (congrArg BitVec.toNat h)
      simp [hk, hcnt, hr, hne]
    · have htop : s.tks.cnt = Config.T_TOP := BitVec.eq_of_toNat_eq heq
      simp [clock_restarts hr htop, hr, htop]

/-! ## Whole periods (R174) -/

/-- The count restarts when a whole period is over, and only then. -/
theorem succ_mod_of_mod_eq {n p : Nat} (h : n % (p + 1) = p) : (n + 1) % (p + 1) = 0 := by
  rw [← Nat.mod_add_mod, h, Nat.mod_self]

theorem succ_mod_of_mod_lt {n p : Nat} (h : n % (p + 1) < p) : (n + 1) % (p + 1) = n % (p + 1) + 1 := by
  rw [← Nat.mod_add_mod, Nat.mod_eq_of_lt (Nat.succ_lt_succ h)]

/-- Within a period no further period ends. -/
theorem period_le_succ_iff_of_mod_lt {n p : Nat} (h : n % (p + 1) < p) : p + 1 ≤ n + 1 ↔ p + 1 ≤ n := by
  have hne : n ≠ p := by rintro rfl; exact Nat.ne_of_lt h (Nat.mod_eq_of_lt (Nat.lt_succ_self n))
  omega

/-- `k` started, and `n` timer clocks later: the count is `n` modulo a period, and a tick has been latched once the first
period is over, if a handler is registered. -/
structure Tks.StartedFor (k : Tks) (n : Nat) (k' : Tks) : Prop where
  run : k'.run = true
  hvalid : k'.hvalid = k.hvalid
  count : k'.cnt.toNat = n % (Config.T_TOP.toNat + 1)
  pend : k'.pend = (k.pend || (k.hvalid && decide (Config.T_TOP.toNat + 1 ≤ n)))

theorem startedFor_zero (k : Tks) : k.StartedFor 0 k.start where
  run := rfl
  hvalid := rfl
  count := (BitVec.toNat_zero).trans (Nat.zero_mod _).symm
  pend := by simp

/-- After `n` clocks the next one matches exactly when it ends a whole period. -/
theorem Tks.StartedFor.count_cases {k k' : Tks} {n : Nat} (h : k.StartedFor n k') :
    (k'.cnt = Config.T_TOP ∧ (n + 1) % (Config.T_TOP.toNat + 1) = 0) ∨
    (k'.cnt.toNat < Config.T_TOP.toNat ∧ (n + 1) % (Config.T_TOP.toNat + 1) = n % (Config.T_TOP.toNat + 1) + 1) := by
  have hle : n % (Config.T_TOP.toNat + 1) ≤ Config.T_TOP.toNat := Nat.le_of_lt_succ (Nat.mod_lt _ (Nat.succ_pos _))
  rcases Nat.lt_or_eq_of_le hle with hlt | heq
  · exact .inr ⟨h.count ▸ hlt, succ_mod_of_mod_lt hlt⟩
  · exact .inl ⟨BitVec.eq_of_toNat_eq (h.count.trans heq), succ_mod_of_mod_eq heq⟩

theorem Tks.StartedFor.match_iff {k k' : Tks} {n : Nat} (h : k.StartedFor n k') :
    (countClock Config.T_TOP k'.cnt).2 = decide ((n + 1) % (Config.T_TOP.toNat + 1) = 0) := by
  rcases h.count_cases with ⟨htop, hmod⟩ | ⟨hlt, hmod⟩
  · rw [htop, countClock_match, hmod]; rfl
  · rw [(countClock_toNat hlt).2, hmod]; rfl

theorem Tks.StartedFor.clock {k k' : Tks} {n : Nat} (h : k.StartedFor n k') : k.StartedFor (n + 1) k'.clock := by
  rcases h.count_cases with ⟨htop, hmod⟩ | ⟨hlt, hmod⟩
  · have hper : Config.T_TOP.toNat + 1 ≤ n + 1 := Nat.le_of_dvd (Nat.succ_pos n) (Nat.dvd_of_mod_eq_zero hmod)
    rw [clock_restarts h.run htop]
    refine ⟨h.run, h.hvalid, BitVec.toNat_zero.trans hmod.symm, ?_⟩
    simp only [h.pend, h.hvalid, hper, decide_true, Bool.and_true]
    cases k.pend <;> cases k.hvalid <;> simp
  · obtain ⟨c, hc, hk⟩ := clock_count h.run hlt
    have hper := period_le_succ_iff_of_mod_lt (h.count ▸ hlt)
    rw [hk]
    refine ⟨h.run, h.hvalid, hc.trans (hmod ▸ congrArg (· + 1) h.count), ?_⟩
    simp only [h.pend, hper]

/-- Timer clocks, one after another, move the scheduler alone. -/
theorem performAll_timerClocks (n : Nat) (s : State) :
    performAll (List.replicate n .timerClock) s = .next { s with tks := Tks.clock^[n] s.tks } := by
  induction n generalizing s with
  | zero => rfl
  | succ n ih => exact ih (timerClock s)

theorem startedFor_iterate (k : Tks) (n : Nat) : k.StartedFor n (Tks.clock^[n] k.start) := by
  induction n with
  | zero => exact startedFor_zero k
  | succ n ih => rw [Function.iterate_succ_apply']; exact ih.clock

/-- Settles O44, by induction on the number of clocks. -/
theorem ticksFallOnWholePeriods : Obligations.TicksFallOnWholePeriods := by
  intro s n
  have h := startedFor_iterate s.tks n
  exact ⟨_, _, rfl, performAll_timerClocks n _, h.count, h.match_iff, h.pend, h.run, rfl, rfl, rfl⟩

/-! ## No handler run after `TSTOP` (R166, R173) -/

/-- The scheduler is stopped in `k'` with nothing pending, and a handler in service was in service in `k`. -/
structure Tks.StoppedSince (k k' : Tks) : Prop where
  run : k'.run = false
  pend : k'.pend = false
  insvc : k'.insvc = true → k.insvc = true

namespace Tks.StoppedSince

variable {k k' : Tks}

theorem stop (h : k'.insvc = true → k.insvc = true) : k.StoppedSince k'.stop := ⟨rfl, rfl, h⟩

theorem atReset (d : Nat) : k.StoppedSince (Tks.atReset d) := ⟨rfl, rfl, fun h => nomatch h⟩

theorem register (h : k.StoppedSince k') (x : Token) : k.StoppedSince (k'.register x) := ⟨h.run, h.pend, h.insvc⟩

theorem leaveHandler (h : k.StoppedSince k') : k.StoppedSince k'.leaveHandler := ⟨h.run, h.pend, fun h => nomatch h⟩

/-- No timer clock counts, so no tick is raised. -/
theorem clock (h : k.StoppedSince k') : k.StoppedSince k'.clock := (clock_stopped h.run).symm ▸ h

/-- With nothing pending no dispatch occurs. -/
theorem dispatch (h : k.StoppedSince k') : k.StoppedSince k'.dispatch :=
  (dispatch_disabled (irq_eq_false (.inl h.pend))).symm ▸ h

end Tks.StoppedSince

/-- Of the commands only `TSTART` can end the stop. -/
theorem exec_stoppedSince {i : Instr} {k : Tks} {s t : State} (hi : i ≠ .tstart) (hs : k.StoppedSince s.tks)
    (h : exec i s = .next t) : k.StoppedSince t.tks := by
  obtain ⟨u, hu, -, -, -, hbus, -⟩ := exec_next i s
  cases hu.symm.trans h
  cases i with
  | tstart => exact absurd rfl hi
  | tstop => cases h; exact .stop hs.insvc
  | tseth x => cases (exec_tseth_stopped hs.run x).symm.trans h; exact hs.register x
  | tret =>
    cases hv : s.tks.insvc with
    | false => cases (exec_tret_outside hv).symm.trans h; exact hs
    | true => cases (exec_tret_inService hv).symm.trans h; exact hs.leaveHandler
  | _ => exact (hbus rfl).symm ▸ hs

theorem delay_tks (s : State) : (delay s).tks = s.tks := by
  cases h : s.mainMoves with
  | false => rw [delay_waits h]
  | true => rw [delay_mainMoves h]; rfl

/-- No event but a `TSTART` ends the stop. -/
theorem perform_stoppedSince {e : Event} {k : Tks} {s t : State} (he : ∀ w, e = .command w → decode w ≠ .command .tstart)
    (hs : k.StoppedSince s.tks) (h : perform e s = .next t) : k.StoppedSince t.tks := by
  cases e with
  | command w =>
    cases hd : decode w with
    | illegal r => cases (presentWord_illegal hd s).symm.trans h; exact hs
    | command i =>
      exact exec_stoppedSince (fun hi => he w rfl (hi ▸ hd)) hs ((presentWord_legal hd s).symm.trans h)
  | env o =>
    rcases envAnswer_next h with ⟨-, rfl⟩ | ⟨x, -, -, rfl⟩
    · exact hs
    · exact hs
  | dev =>
    obtain ⟨u, hu, htks, -⟩ := devAnswer_next s
    cases hu.symm.trans h
    exact htks.symm ▸ hs
  | timerClock => cases h; exact hs.clock
  | dispatch => cases h; exact hs.dispatch
  | settle => cases h; exact hs
  | delay => cases h; exact (delay_tks s).symm ▸ hs
  | reset => cases h; exact .atReset s.draws
  | powerCycle => cases h; exact .atReset s.draws

theorem performAll_stoppedSince {es : List Event} {k : Tks} {s t : State}
    (hes : ∀ w, Event.command w ∈ es → decode w ≠ .command .tstart) (hs : k.StoppedSince s.tks)
    (h : performAll es s = .next t) : k.StoppedSince t.tks := by
  induction es generalizing s with
  | nil => cases h; exact hs
  | cons e es ih =>
    obtain ⟨u, hu, ht⟩ := andThen_next h
    have hu' : k.StoppedSince u.tks :=
      perform_stoppedSince (fun w he => hes w (he ▸ List.mem_cons_self)) hs hu
    exact ih (fun w hw => hes w (List.mem_cons_of_mem e hw)) hu' ht

/-- Settles O45: `TSTOP` begins the stop, and every event but a `TSTART` keeps it. -/
theorem noHandlerRunAfterStop : Obligations.NoHandlerRunAfterStop := by
  intro es s t u hes ht hu
  cases ht
  obtain ⟨hrun, hpend, hinsvc⟩ := performAll_stoppedSince hes (.stop id : s.tks.StoppedSince s.tks.stop) hu
  exact ⟨hrun, hpend, hinsvc⟩

end Sys2Proof.Machine

/-! Exceptions (spec 60_exceptions.md): the order of the fault checks (R203), what lasts through any run of events but those that
end it, a recorded fault (R196) and a hang (R193), and events that fall together (R207). -/

namespace Sys2Proof.Machine

/-! ## The order of the checks (R203) -/

/-- A bus command passes the checks of R203 in their order, whatever its own check of `PH`. -/
theorem exec_bus_busFaults {i : Instr} (h : i.isBus = true) (s : State) : ∃ allowed, busFaults i allowed s := by
  obtain ⟨allowed, he⟩ := exec_bus h s
  exact ⟨fun _ => allowed, busFaults_of_acceptBus he⟩

/-- A bus command in the handler records `E_CTX` (R199). -/
theorem exec_bus_handler {i : Instr} (h : i.isBus = true) {s : State} (hc : s.tks.insvc = true) :
    exec i s = .next (recordFault 3#3 s) := by
  obtain ⟨_, hctx, -, -⟩ := exec_bus_busFaults h s
  exact hctx hc

/-- A bus command in the main context while one is in progress records `E_OVERLAP` (R200). -/
theorem exec_bus_busy {i : Instr} (h : i.isBus = true) {s : State} (hc : s.tks.insvc = false) (hr : s.twm.ready = false) :
    exec i s = .next (recordFault 4#3 s) := by
  obtain ⟨_, -, hoverlap, -⟩ := exec_bus_busFaults h s
  exact hoverlap hc hr

/-- A primitive that nothing turns away before, in a `PH` in which its phase may not begin, records `E_PHASE` (R129, R198). -/
theorem IsPrimitive.outOfPhase {i : Instr} {x : Phase} (h : IsPrimitive i x) {s : State} (hs : s.acceptsBus)
    (ha : x.allowedIn s.twm.ph = false) : exec i s = .next (recordFault 2#3 s) := by
  obtain ⟨-, -, hphase⟩ := h.busFaults (fun _ => rfl) s
  exact hphase hs ha

/-- Settles O14, one check of R203 after another; the illegal word is in O4. -/
theorem faultChecksInOrder : Obligations.FaultChecksInOrder := by
  obtain ⟨-, -, -, -, -, hillegal⟩ := illegalWordRecordsFaultOnly
  refine ⟨hillegal, fun _ _ hb => exec_bus_handler hb, fun _ _ hb => exec_bus_busy hb,
    fun s hs hp => isPrimitive_stop.outOfPhase hs ?_, fun d s hs hp => (isPrimitive_writeb d).outOfPhase hs ?_,
    fun s hs hp => ?_, fun h _ hr => exec_tseth_running hr h, fun _ hi => exec_tret_outside hi⟩
  · rw [hp]; rfl
  · rcases hp with hp | hp <;> rw [hp] <;> rfl
  · have ha (k : AckBit) : (Phase.byteIn k).allowedIn s.twm.ph = false := by simpa using hp
    exact ⟨isPrimitive_rdack.outOfPhase hs (ha .ack), isPrimitive_rdnack.outOfPhase hs (ha .nack)⟩

/-! ## What lasts through a run -/

/-- What each event of the list keeps, the whole list keeps. -/
theorem performAll_keeps {P : State → Prop} {es : List Event}
    (he : ∀ e ∈ es, ∀ s t, P s → perform e s = .next t → P t) {s t : State} (hs : P s)
    (h : performAll es s = .next t) : P t := by
  induction es generalizing s with
  | nil => cases h; exact hs
  | cons e es ih =>
    obtain ⟨hhead, htail⟩ := List.forall_mem_cons.1 he
    obtain ⟨u, hu, ht⟩ := andThen_next h
    exact ih htail (hhead s u hs hu) ht

/-! ### `FAULT` (R196) -/

theorem raise_sticky {s : State} (h : s.fault ≠ 0#3) (c : Cause) : (s.raise c).fault = s.fault := if_neg h

/-- A command can record a cause only in `FAULT`=0. -/
theorem exec_fault_sticky {i : Instr} {s t : State} (hf : s.fault ≠ 0#3) (h : exec i s = .next t) : t.fault = s.fault := by
  obtain ⟨u, hu, hcases⟩ := exec_cases i s
  cases hu.symm.trans h
  rcases hcases with ⟨c, rfl⟩ | ⟨-, rfl⟩ | ⟨-, k, rfl⟩
  · exact raise_sticky hf c
  · rfl
  · rfl

theorem delay_fault (s : State) : (delay s).fault = s.fault := by
  cases h : s.mainMoves with
  | false => rw [delay_waits h]
  | true => rw [delay_mainMoves h]; rfl

/-- No event but a reset of the block changes a `FAULT` that is not 0. -/
theorem perform_fault_sticky {e : Event} {s t : State} (he : e.keepsPower = true) (hf : s.fault ≠ 0#3)
    (h : perform e s = .next t) : t.fault = s.fault := by
  cases e with
  | command w =>
    cases hd : decode w with
    | illegal r => cases (presentWord_illegal hd s).symm.trans h; exact raise_sticky hf .illegal
    | command i => exact exec_fault_sticky hf ((presentWord_legal hd s).symm.trans h)
  | env o => rcases envAnswer_next h with ⟨-, rfl⟩ | ⟨x, -, -, rfl⟩ <;> rfl
  | dev =>
    obtain ⟨u, hu, -, hfault, -⟩ := devAnswer_next s
    cases hu.symm.trans h
    exact hfault
  | timerClock => cases h; rfl
  | dispatch => cases h; rfl
  | settle => cases h; rfl
  | delay => cases h; exact delay_fault s
  | reset | powerCycle => cases he

/-- Settles O15: every event keeps `FAULT`, and a final state has `FAULT`=0. -/
theorem faultIsSticky : Obligations.FaultIsSticky := by
  intro es s t hes hf h
  have hkept : t.fault = s.fault := performAll_keeps (P := fun u => u.fault = s.fault)
    (fun e he u v hu hv => (perform_fault_sticky (hes e he) (hu ▸ hf) hv).trans hu) rfl h
  refine ⟨hkept, ?_⟩
  rintro ⟨-, -, -, -, hzero⟩
  exact hf (hkept.symm.trans hzero)

/-! ### A hang (R193) -/

/-- While a bus command is in progress no command touches the bus engine: a bus command is turned away (R199, R200). -/
theorem exec_busy_twm {i : Instr} {s t : State} (hr : s.twm.ready = false) (h : exec i s = .next t) :
    t.twm = s.twm := by
  cases hb : i.isBus with
  | false =>
    obtain ⟨u, hu, -, -, -, -, htwm⟩ := exec_next i s
    cases hu.symm.trans h
    exact htwm hb
  | true =>
    cases hc : s.tks.insvc with
    | true => cases (exec_bus_handler hb hc).symm.trans h; rfl
    | false => cases (exec_bus_busy hb hc hr).symm.trans h; rfl

/-- While a bus command is in progress only an answer or a reset touches the bus engine. -/
theorem perform_busy_twm {e : Event} {s t : State} (he : e.endsWait = false) (hr : s.twm.ready = false)
    (h : perform e s = .next t) : t.twm = s.twm := by
  cases e with
  | command w =>
    cases hd : decode w with
    | illegal r => cases (presentWord_illegal hd s).symm.trans h; rfl
    | command i => exact exec_busy_twm hr ((presentWord_legal hd s).symm.trans h)
  | timerClock => cases h; rfl
  | dispatch => cases h; rfl
  | settle => cases h; rfl
  | delay => cases h; exact (delay_quiet s).twm
  | env | dev | reset | powerCycle => cases he

/-- Settles O35. -/
theorem hangLastsUntilAnswerOrReset : Obligations.HangLastsUntilAnswerOrReset := by
  intro es s t hr hes h
  exact performAll_keeps (P := fun u => u.twm = s.twm)
    (fun e he u v hu hv => (perform_busy_twm (hes e he) (hu ▸ hr) hv).trans hu) rfl h

/-! ## Events that fall together (R207) -/

/-- An answer of the environment does not see the scheduler: it commutes with a dispatch (R207 (d)). -/
theorem dispatch_envAnswer_comm (s : State) (o : PhaseOutcome) :
    envAnswer o (dispatch s) = andThen (envAnswer o s) (fun r => .next (dispatch r)) := by
  cases hx : s.twm.phaseInProgress with
  | none =>
    rw [envAnswer_idle hx]
    exact envAnswer_idle (s := dispatch s) hx o
  | some x =>
    cases ho : x.admits o with
    | false =>
      rw [envAnswer_stops hx ho]
      exact envAnswer_stops (s := dispatch s) hx ho
    | true =>
      rw [envAnswer_admitted hx ho]
      exact envAnswer_admitted (s := dispatch s) hx ho

/-- Settles O46: after a `TSTOP` the timer clock does nothing, and before it what it latches is dropped. -/
theorem simultaneousEventsCommute : Obligations.SimultaneousEventsCommute := by
  refine ⟨fun s => ⟨_, _, rfl, rfl, rfl, rfl, ?_⟩, dispatch_envAnswer_comm⟩
  have hstop : s.tks.stop.clock = s.tks.stop := clock_stopped rfl
  exact ⟨congrArg Tks.run hstop, congrArg Tks.pend hstop, rfl, rfl⟩

end Sys2Proof.Machine

/-! Reset of the block (spec 70_reset_and_hazards.md R220 to R223), what a host that keeps its duties is spared (R232, R236,
R238), and how it frees the bus after a transaction that failed (R231). -/

namespace Sys2Proof.Machine

/-! ## Reset (R220 to R223) -/

theorem step_reset {s : State} {rest : List Event} (ha : s.agenda = .reset :: rest) :
    step s = .next (blockReset { s with agenda := rest }) := step_cons ha

/-- Settles O9: the engine at reset is ready, so no phase is in progress, and nothing is pending, so nothing is requested. -/
theorem resetWorksInEveryState : Obligations.ResetWorksInEveryState := fun _ _ ha =>
  ⟨_, step_reset ha, rfl, rfl, rfl, rfl, rfl, rfl, rfl, rfl, rfl, rfl, rfl, BitVec.toNat_zero,
    phaseInProgress_ready rfl, request_disabled (irq_eq_false (.inl rfl)), rfl, rfl, rfl⟩

/-! ## A host that keeps its duties (R129, R232, R236, R238) -/

theorem exec_status_accepted {s : State} (hs : s.acceptsBus) : exec .status s = .next s :=
  congrArg Host.Outcome.next (acceptBus_accepts (f := id) hs.1 hs.2 rfl)

/-- Nothing turns away a command of a host that keeps its duties, so `FAULT` keeps its value. -/
theorem exec_dutiful_fault {i : Instr} {s : State} (h : keepsDuties i s) : ∃ t, exec i s = .next t ∧ t.fault = s.fault := by
  obtain ⟨hbus, -, htret, htseth, hstop, hwriteb, hread⟩ := h
  cases i with
  | start => exact ⟨_, isPrimitive_start.accepted (hbus rfl) rfl, rfl⟩
  | stop => exact ⟨_, isPrimitive_stop.accepted (hbus rfl) (by simpa using hstop rfl), rfl⟩
  | writeb d => exact ⟨_, (isPrimitive_writeb d).accepted (hbus rfl) (by simpa using hwriteb ⟨d, rfl⟩), rfl⟩
  | rdack => exact ⟨_, isPrimitive_rdack.accepted (hbus rfl) (by simpa using hread (.inl rfl)), rfl⟩
  | rdnack => exact ⟨_, isPrimitive_rdnack.accepted (hbus rfl) (by simpa using hread (.inr rfl)), rfl⟩
  | status => exact ⟨_, exec_status_accepted (hbus rfl), rfl⟩
  | wrtxn a d => exact ⟨_, exec_access (isAccess_wrtxn a d) (hbus rfl), rfl⟩
  | rdtxn a => exact ⟨_, exec_access (isAccess_rdtxn a) (hbus rfl), rfl⟩
  | tseth x => exact ⟨_, exec_tseth_stopped (htseth ⟨x, rfl⟩) x, rfl⟩
  | tstart => exact ⟨_, rfl, rfl⟩
  | tstop => exact ⟨_, rfl, rfl⟩
  | tret => exact ⟨_, exec_tret_inService (htret rfl), rfl⟩

/-- Settles O16: a dutiful command keeps `FAULT`, which is 0. -/
theorem dutifulHostRaisesNoFault : Obligations.DutifulHostRaisesNoFault := by
  intro i s h h0
  obtain ⟨t, ht, hf⟩ := exec_dutiful_fault h
  exact ⟨t, ht, hf.trans h0⟩

/-! ## The recovery recipe (R231)

Only a start can begin on a free bus, and only one that ended abnormally leaves the bus free; so the bus is held from step 2
of a transaction on, and after a failure at step 1 whose code is one of `SIX`. -/

/-- On a free bus only a start may begin (R129). -/
theorem eq_startCond_of_allowedIn_idle {x : Phase} (h : x.allowedIn .idle = true) : x = .startCond := by
  cases x with
  | startCond => rfl
  | _ => cases h

/-- A held bus is freed by a stop alone (R30). -/
theorem phAfter_ne_idle {x : Phase} {p : PH} (hx : x ≠ .stopCond) (hp : p ≠ .idle) (o : PhaseOutcome) :
    phAfter x p o ≠ .idle := by
  unfold phAfter
  split
  · exact hp
  · decide
  · split_ifs
    · decide
    · decide
    · exact hp
  · exact hp
  · exact absurd rfl hx

/-- A phase other than the stop leaves the bus held, or it was an abnormal start on a free bus (R30, R31, R129). -/
theorem phAfter_held_or_abnormal {x : Phase} {p : PH} {o : PhaseOutcome} (hx : x ≠ .stopCond)
    (ha : x.allowedIn p = true) (ho : x.admits o = true) :
    phAfter x p o ≠ .idle ∨ (p = .idle ∧ statusAfter x p o ∉ Config.SIX) := by
  by_cases hp : p = .idle
  · subst hp
    cases eq_startCond_of_allowedIn_idle ha
    rcases admits_cases ho with ⟨c, rfl, hc⟩ | ⟨-, rfl⟩ | ⟨b, hb, -⟩ | ⟨k, v, hk, -⟩ | ⟨hstop, -⟩
    · exact .inr ⟨rfl, hc⟩
    · exact .inl (by decide)
    · cases hb
    · cases hk
    · cases hstop
  · exact .inl (phAfter_ne_idle hx hp o)

theorem currentStep_mem {b : Twm} {st : TxnStep} (h : b.currentStep = some st) : st ∈ txnSteps b.cmdr := by
  cases hn : b.seq.toNat with
  | zero => simp [Twm.currentStep, hn] at h
  | succ n => exact List.mem_of_getElem? ((currentStep_of hn).symm.trans h)

/-- A verified step is no stop, and the code it must reach is one of `SIX` (R140, R143, R146). -/
theorem txnSteps_verified (w : CommandWord) :
    ∀ st ∈ txnSteps w, ∀ c, st.expected = some c → st.phase ≠ .stopCond ∧ c ∈ Config.SIX := by
  rcases txnSteps_cases w with h | ⟨a, d, h⟩ | ⟨a, h⟩
  · simp [List.length_eq_zero_iff.1 h]
  · simp [h, writeSteps, Config.SIX]
  · simp [h, readSteps, Config.SIX]

/-- How a transaction that was accepted stands, as far as the recovery recipe asks. -/
inductive Twm.Recoverable (b : Twm) : Prop where
  /-- at its start, or past it with the bus held -/
  | running (hr : b.ready = false) (hs : b.seq ≠ 0#3) (hp : b.seq = 1#3 ∨ b.ph ≠ .idle)
  | passed (hr : b.ready = true) (hok : b.ok = true)
  | failedHeld (hr : b.ready = true) (hp : b.ph ≠ .idle)
  /-- by an abnormal start, which leaves a free bus free -/
  | failedAtStart (hr : b.ready = true) (hf : b.fstep = 1#3) (hc : b.status ∉ Config.SIX)

/-- A completed phase of a transaction: the next step begins with the bus held, or the transaction has ended. -/
theorem finishPhase_recoverable {b : Twm} {x : Phase} {o : PhaseOutcome} (hs : b.seq ≠ 0#3)
    (hp : b.seq = 1#3 ∨ b.ph ≠ .idle) (hx : b.phaseInProgress = some x) (ho : x.admits o = true) :
    (b.finishPhase x o).Recoverable := by
  obtain ⟨hr, ha⟩ := phaseInProgress_allowed hx
  obtain ⟨st, hst, rfl⟩ := currentStep_of_phaseInProgress hx hs
  cases he : st.expected with
  | none => rw [finishPhase_stop hst he]; exact .passed rfl rfl
  | some c =>
    obtain ⟨hstop, hsix⟩ := txnSteps_verified b.cmdr st (currentStep_mem hst) c he
    have hheld := phAfter_held_or_abnormal hstop ha ho
    by_cases hc : statusAfter st.phase b.ph o = c
    · have hph : phAfter st.phase b.ph o ≠ .idle := hheld.resolve_right fun ⟨_, hn⟩ => hn (hc ▸ hsix)
      rcases finishPhase_progress (o := o) hx with ⟨-, hend⟩ | ⟨hup, -, -⟩
      · rw [finishPhase_passed hst he hc] at hend
        exact nomatch hr.symm.trans hend
      · rw [finishPhase_passed hst he hc] at hup ⊢
        exact .running hr (fun h0 => by rw [h0] at hup; cases hup) (.inr hph)
    · rw [finishPhase_failed hst he hc]
      rcases hheld with hph | ⟨hidle, hn⟩
      · exact .failedHeld rfl hph
      · exact .failedAtStart rfl (hp.resolve_right fun h => h hidle) hn

theorem Twm.Recoverable.answered {b b' : Twm} (h : b.Recoverable) (ha : b.Answered b') : b'.Recoverable := by
  cases ha with
  | idle => exact h
  | complete hx ho =>
    have hbusy := (phaseInProgress_allowed hx).1
    cases h with
    | running _ hs hp => exact finishPhase_recoverable hs hp hx ho
    | passed hr | failedHeld hr | failedAtStart hr => exact nomatch hbusy.symm.trans hr

/-- What each answer of the oracle keeps, any number of them keep. -/
theorem envAnswers_keeps {P : State → Prop} (hstep : ∀ o s t, P s → envAnswer o s = .next t → P t)
    {os : List PhaseOutcome} {s t : State} (hs : P s) (h : envAnswers os s = .next t) : P t := by
  induction os generalizing s with
  | nil => cases h; exact hs
  | cons o os ih =>
    obtain ⟨u, hu, ht⟩ := andThen_next h
    exact ih (hstep o s u hs hu) ht

theorem envAnswers_tks {os : List PhaseOutcome} {s t : State} (h : envAnswers os s = .next t) : t.tks = s.tks := by
  refine envAnswers_keeps (P := fun u => u.tks = s.tks) (fun o u v hu hv => ?_) rfl h
  obtain ⟨htks, -⟩ := phaseFrame o u v hv
  exact htks.trans hu

theorem envAnswers_recoverable {os : List PhaseOutcome} {s t : State} (hs : s.twm.Recoverable)
    (h : envAnswers os s = .next t) : t.twm.Recoverable :=
  envAnswers_keeps (P := fun u => u.twm.Recoverable) (fun _ _ _ hu hv => hu.answered (envAnswer_answered hv)) hs h

/-- Where the recipe says to issue `STOP`, the bus is held. -/
theorem Twm.Recoverable.held {b : Twm} (h : b.Recoverable) (hr : b.ready = true) (hok : b.ok = false)
    (hrecipe : ¬ (b.fstep = 1#3 ∧ b.status ≠ Config.ST_RSTART)) : b.ph ≠ .idle := by
  cases h with
  | running hb => exact nomatch hb.symm.trans hr
  | passed _ hy => exact nomatch hok.symm.trans hy
  | failedHeld _ hp => exact hp
  | failedAtStart _ hf hc => exact absurd ⟨hf, Config.ne_of_not_mem_six hc (by decide)⟩ hrecipe

/-- Settles O37: every answer keeps the transaction recoverable, and `STOP` is allowed on a held bus (R123). -/
theorem recoveryRecipeNeverFaults : Obligations.RecoveryRecipeNeverFaults := by
  intro s t u i os hi hs ht hu hr hok hrecipe
  obtain ⟨a, h⟩ : ∃ a, IsAccess i a := by
    rcases hi with ⟨a, d, rfl⟩ | ⟨a, rfl⟩
    · exact ⟨a, isAccess_wrtxn a d⟩
    · exact ⟨a, isAccess_rdtxn a⟩
  cases (exec_access h hs).symm.trans ht
  have hrec : u.twm.Recoverable := envAnswers_recoverable (.running rfl (by simp [Twm.atStep]) (.inl rfl)) hu
  have hp : u.twm.ph ≠ .idle := hrec.held hr hok hrecipe
  have hacc : u.acceptsBus := ⟨(congrArg Tks.insvc (envAnswers_tks hu)).trans hs.1, hr⟩
  exact ⟨hp, isPrimitive_stop.accepted hacc (by simpa using hp)⟩

end Sys2Proof.Machine
